-- ==== Sys2Proof/Word.lean ====
section
/-! DEFINITION. The word types of the block: 64-bit host registers, 32-bit command and descriptor words, bytes. -/

namespace Sys2Proof

/-- A host register's value (10_state.md R30). -/
abbrev Word := BitVec 64

/-- A command word, an operand word or a descriptor word (30_encoding.md R110, 10_state.md R47). -/
abbrev Word32 := BitVec 32

/-- A byte of the data space (20_memory.md R80). -/
abbrev Byte := BitVec 8

/-- A waker handle: the number of the task it wakes (41_waker.md R140). -/
abbrev Handle := Nat

/-- A host register's number (30_encoding.md R110). -/
abbrev RegNum := BitVec 4

end Sys2Proof
end

