-- ==== Sys2Proof/Syntax.lean ====
section
/-! DEFINITION. The commands: one constructor per row of spec/opcode_table.json (30_encoding.md R116). Every operand has
the width of the field or operand word it is read from (R110, R113, R114). -/

namespace Sys2Proof

/-- A command with its operands. -/
inductive Instr where
  /-- WREG: register the current task in a waker cell (41_waker.md R141). -/
  | wreg (cell : BitVec 16)
  /-- WAKE: wake a waker cell (41_waker.md R142). -/
  | wake (cell : BitVec 16)
  /-- SIGNAL: invoke a task's handle (41_waker.md R143). -/
  | signal (handle : BitVec 16)
  /-- DRES: reserve a channel (42_dma.md R160). -/
  | dres (ch : BitVec 6)
  /-- DCFG: configure a channel (42_dma.md R170). -/
  | dcfg (rd : RegNum) (ch : BitVec 6) (dir wc : BitVec 2) (src dst count opts : Word32)
  /-- DEN: enable a channel (42_dma.md R178). -/
  | den (ch : BitVec 6)
  /-- DTRG: trigger a channel (42_dma.md R179). -/
  | dtrg (ch : BitVec 6)
  /-- DPOLL: poll a channel's completion (42_dma.md R180). -/
  | dpoll (rd : RegNum) (ch : BitVec 6)
  /-- DRD: read a channel status bit (42_dma.md R181). -/
  | drd (rd : RegNum) (ch : BitVec 6) (sel : BitVec 4)
  /-- TNOW: read the logical time (43_time.md R230). -/
  | tnow (rd : RegNum)
  /-- TSCHED: schedule a wake-up (43_time.md R232). -/
  | tsched (rs : RegNum)
  /-- TALARM: set the alarm (43_time.md R233). -/
  | talarm (rd rs : RegNum)
  /-- TRD: read a time-driver register (43_time.md R231). -/
  | trd (rd : RegNum) (sel : BitVec 4)
  /-- LI: load a 64-bit immediate (44_host.md R271). -/
  | li (rd : RegNum) (imm : Word)
  /-- ADDI: add a signed 16-bit immediate (44_host.md R272). -/
  | addi (rd rs : RegNum) (imm : BitVec 16)
  /-- LD: load from the data space (44_host.md R273). -/
  | ld (rd : RegNum) (wc : BitVec 2) (addr : Word32)
  /-- ST: store to the data space (44_host.md R274). -/
  | st (rs : RegNum) (wc : BitVec 2) (addr : Word32)
  /-- BEQ: branch if equal to an immediate (44_host.md R275). -/
  | beq (rs : RegNum) (imm : BitVec 16) (target : Word32)
  /-- BNE: branch if different from an immediate (44_host.md R276). -/
  | bne (rs : RegNum) (imm : BitVec 16) (target : Word32)
  /-- JMP: jump (44_host.md R277). -/
  | jmp (target : Word32)
  /-- YIELD: suspend the current task (44_host.md R278). -/
  | yield
  /-- HALT: end the current task (44_host.md R279). -/
  | halt
  /-- BLTU: branch if below, unsigned (44_host.md R280). -/
  | bltu (rs rt : RegNum) (target : Word32)
deriving DecidableEq, Repr

end Sys2Proof
end

