-- ==== Sys2Proof/Decode.lean ====
section
/-! DEFINITION. The command decoder and encoder (30_encoding.md): the opcode map of R116 as a table, decoding of a word list
as R117 gives it, and the words of a command. -/

namespace Sys2Proof

/-! ### The header's fields (R110) -/

/-- RD, header bits 23:20. -/
def headerRd (h : Word32) : RegNum := h.extractLsb' 20 4

/-- RS, header bits 19:16. -/
def headerRs (h : Word32) : RegNum := h.extractLsb' 16 4

/-- IMM16, header bits 15:0. -/
def headerImm (h : Word32) : BitVec 16 := h.extractLsb' 0 16

/-- A header from its four fields OP, RD, RS, IMM16. -/
def header (op : BitVec 8) (rd rs : RegNum) (imm : BitVec 16) : Word32 := op ++ rd ++ rs ++ imm

/-! ### The sub-fields of IMM16 (R114) -/

/-- CH, IMM16[5:0]. -/
def immCh (imm : BitVec 16) : BitVec 6 := imm.extractLsb' 0 6

/-- DIR, IMM16[7:6]. -/
def immDir (imm : BitVec 16) : BitVec 2 := imm.extractLsb' 6 2

/-- WC of DCFG, IMM16[9:8]. -/
def immCfgWc (imm : BitVec 16) : BitVec 2 := imm.extractLsb' 8 2

/-- SEL of DRD, IMM16[9:6]. -/
def immDrdSel (imm : BitVec 16) : BitVec 4 := imm.extractLsb' 6 4

/-- SEL of TRD, IMM16[3:0]. -/
def immTrdSel (imm : BitVec 16) : BitVec 4 := imm.extractLsb' 0 4

/-- WC of LD and ST, IMM16[1:0]. -/
def immMemWc (imm : BitVec 16) : BitVec 2 := imm.extractLsb' 0 2

/-- Operand word w(i+1), a zero where the list is shorter. -/
def operandWord (ws : List Word32) (i : Nat) : Word32 := ws.getD i 0

/-- LI's immediate: w2 the high word, w1 the low word (R113). -/
def liImm (lo hi : Word32) : Word := hi ++ lo

/-! ### The opcode map (R116) -/

/-- One row of the opcode map: the number K of operand words, `match`, `mask`, and the command a header that the row
selects stands for, with its operand words. -/
structure OpcodeRow where
  operandWords : Nat
  pattern : Word32
  mask : Word32
  build : Word32 → List Word32 → Instr

/-- A header selects the row with (h and mask) = match (R116). -/
def OpcodeRow.selects (r : OpcodeRow) (h : Word32) : Bool := (h &&& r.mask) == r.pattern

/-- Waker commands (R116, OP 0x01 to 0x03). -/
def wakerRows : List OpcodeRow :=
  [⟨0, 0x01000000, 0xFFFF0000, fun h _ => .wreg (headerImm h)⟩,
   ⟨0, 0x02000000, 0xFFFF0000, fun h _ => .wake (headerImm h)⟩,
   ⟨0, 0x03000000, 0xFFFF0000, fun h _ => .signal (headerImm h)⟩]

/-- DMA commands (R116, OP 0x10 to 0x15). -/
def dmaRows : List OpcodeRow :=
  [⟨0, 0x10000000, 0xFFFFFFC0, fun h _ => .dres (immCh (headerImm h))⟩,
   ⟨4, 0x11000000, 0xFF0FFC00, fun h ws =>
      .dcfg (headerRd h) (immCh (headerImm h)) (immDir (headerImm h)) (immCfgWc (headerImm h))
        (operandWord ws 0) (operandWord ws 1) (operandWord ws 2) (operandWord ws 3)⟩,
   ⟨0, 0x12000000, 0xFFFFFFC0, fun h _ => .den (immCh (headerImm h))⟩,
   ⟨0, 0x13000000, 0xFFFFFFC0, fun h _ => .dtrg (immCh (headerImm h))⟩,
   ⟨0, 0x14000000, 0xFF0FFFC0, fun h _ => .dpoll (headerRd h) (immCh (headerImm h))⟩,
   ⟨0, 0x15000000, 0xFF0FFC00, fun h _ =>
      .drd (headerRd h) (immCh (headerImm h)) (immDrdSel (headerImm h))⟩]

/-- Time commands (R116, OP 0x20 to 0x23). -/
def timeRows : List OpcodeRow :=
  [⟨0, 0x20000000, 0xFF0FFFFF, fun h _ => .tnow (headerRd h)⟩,
   ⟨0, 0x21000000, 0xFFF0FFFF, fun h _ => .tsched (headerRs h)⟩,
   ⟨0, 0x22000000, 0xFF00FFFF, fun h _ => .talarm (headerRd h) (headerRs h)⟩,
   ⟨0, 0x23000000, 0xFF0FFFF0, fun h _ => .trd (headerRd h) (immTrdSel (headerImm h))⟩]

/-- Host commands (R116, OP 0x30 to 0x39). -/
def hostRows : List OpcodeRow :=
  [⟨2, 0x30000000, 0xFF0FFFFF, fun h ws =>
      .li (headerRd h) (liImm (operandWord ws 0) (operandWord ws 1))⟩,
   ⟨0, 0x31000000, 0xFF000000, fun h _ => .addi (headerRd h) (headerRs h) (headerImm h)⟩,
   ⟨1, 0x32000000, 0xFF0FFFFC, fun h ws =>
      .ld (headerRd h) (immMemWc (headerImm h)) (operandWord ws 0)⟩,
   ⟨1, 0x33000000, 0xFFF0FFFC, fun h ws =>
      .st (headerRs h) (immMemWc (headerImm h)) (operandWord ws 0)⟩,
   ⟨1, 0x34000000, 0xFFF00000, fun h ws => .beq (headerRs h) (headerImm h) (operandWord ws 0)⟩,
   ⟨1, 0x35000000, 0xFFF00000, fun h ws => .bne (headerRs h) (headerImm h) (operandWord ws 0)⟩,
   ⟨1, 0x36000000, 0xFFFFFFFF, fun _ ws => .jmp (operandWord ws 0)⟩,
   ⟨0, 0x37000000, 0xFFFFFFFF, fun _ _ => .yield⟩,
   ⟨0, 0x38000000, 0xFFFFFFFF, fun _ _ => .halt⟩,
   ⟨1, 0x39000000, 0xFF00FFFF, fun h ws =>
      .bltu (headerRs h) (headerRd h) (operandWord ws 0)⟩]

/-- The complete opcode map (R116). -/
def opcodeMap : List OpcodeRow := wakerRows ++ dmaRows ++ timeRows ++ hostRows

/-! ### Decoding (R117, R118) -/

/-- Why a word list is no command: its header matches no row (R118), or it ends before the header or before the last
operand word (R117). -/
inductive DecodeError where
  | illegalHeader (h : Word32)
  | endOfStream
deriving DecidableEq, Repr

/-- Decode the command at the head of a word list: the command and the words after it, or the reason there is none
(R117). -/
def decode (words : List Word32) : Except DecodeError (Instr × List Word32) :=
  match words with
  | [] => .error .endOfStream
  | h :: rest =>
    match opcodeMap.find? (fun r => r.selects h) with
    | none => .error (.illegalHeader h)
    | some row =>
      if rest.length < row.operandWords then .error .endOfStream
      else .ok (row.build h rest, rest.drop row.operandWords)

/-! ### Encoding -/

/-- The words of a command (R110, R113, R114, R116). -/
def encode (i : Instr) : List Word32 :=
  match i with
  | .wreg cell => [header 0x01 0 0 cell]
  | .wake cell => [header 0x02 0 0 cell]
  | .signal h => [header 0x03 0 0 h]
  | .dres ch => [header 0x10 0 0 (0#10 ++ ch)]
  | .dcfg rd ch dir wc src dst count opts =>
      [header 0x11 rd 0 (0#6 ++ wc ++ dir ++ ch), src, dst, count, opts]
  | .den ch => [header 0x12 0 0 (0#10 ++ ch)]
  | .dtrg ch => [header 0x13 0 0 (0#10 ++ ch)]
  | .dpoll rd ch => [header 0x14 rd 0 (0#10 ++ ch)]
  | .drd rd ch sel => [header 0x15 rd 0 (0#6 ++ sel ++ ch)]
  | .tnow rd => [header 0x20 rd 0 0]
  | .tsched rs => [header 0x21 0 rs 0]
  | .talarm rd rs => [header 0x22 rd rs 0]
  | .trd rd sel => [header 0x23 rd 0 (0#12 ++ sel)]
  | .li rd imm => [header 0x30 rd 0 0, imm.extractLsb' 0 32, imm.extractLsb' 32 32]
  | .addi rd rs imm => [header 0x31 rd rs imm]
  | .ld rd wc addr => [header 0x32 rd 0 (0#14 ++ wc), addr]
  | .st rs wc addr => [header 0x33 0 rs (0#14 ++ wc), addr]
  | .beq rs imm target => [header 0x34 0 rs imm, target]
  | .bne rs imm target => [header 0x35 0 rs imm, target]
  | .jmp target => [header 0x36 0 0 0, target]
  | .yield => [header 0x37 0 0 0]
  | .halt => [header 0x38 0 0 0]
  | .bltu rs rt target => [header 0x39 rt rs 0, target]

/-- The number of words of a command, 1 + K (R112, R119). -/
def commandLength (i : Instr) : Nat := (encode i).length

/-! ### The host's view of one table word -/

/-- The longest command, in words (R119). -/
def maxCommandWords : Nat := 5

/-- The first `nbits` bits of `w`, every bit above them 0, as `maxCommandWords` command words, the first word in bits
31:0, the second in bits 63:32, and so on. A command word is a 32-bit value and has no byte order (20_memory.md R82). -/
def tableWords (nbits w : Nat) : List Word32 :=
  (List.range maxCommandWords).map fun i => BitVec.ofNat 32 ((w % 2 ^ nbits) / 2 ^ (32 * i))

/-- The command the decoder reads from an instruction whose bits are `w`, numbered as spec/opcode_table.json numbers
them, operand words of zeros above bit `nbits`. -/
def decodeTableWord (nbits w : Nat) : Option Instr :=
  match decode (tableWords nbits w) with
  | .ok (i, _) => some i
  | .error _ => none

end Sys2Proof
end

