-- ==== Sys2Proof/Config.lean ====
section
/-! DEFINITION. What an implementation fixes (the launch parameters of 70_reset_and_hazards.md R352), the vocabulary
they are written in, and the free values of the model: the peripheral environment's answers, the interleaving of the
agents, and the length of a queue too long for a register. -/

namespace Sys2Proof

/-- The agents a fault record or an event of the history can name (60_exceptions.md R300, 20_memory.md R89). -/
inductive Agent where
  | host
  | engine (ch : Nat)
  | dmaShim
  | tickHandler
deriving DecidableEq, Repr

inductive AccessKind where
  | read
  | write
deriving DecidableEq, Repr

/-- One entry of HIST (20_memory.md R89). -/
structure Event where
  agent : Agent
  kind  : AccessKind
  addr  : Nat
  size  : Nat
  value : Nat
deriving DecidableEq, Repr

/-- REGION(a): what a byte address is (20_memory.md R80); `unmapped` is the spec's NONE. -/
inductive RegionKind where
  | ram
  | periph
  | unmapped
deriving DecidableEq, Repr

/-- One line of the platform's address map: the `size` bytes from `base` are of kind `kind`. -/
structure Region where
  base : Nat
  size : Nat
  kind : RegionKind
deriving DecidableEq, Repr

/-- The launch parameters that are not the length of a list of State (00_scope.md R6, 70_reset_and_hazards.md R352). -/
structure Params where
  /-- DESC_BASE -/
  descBase   : Nat
  /-- DMA_MAX_XFER -/
  dmaMaxXfer : Nat
  /-- REGION: the first line that covers an address gives its kind; an address no line covers is NONE -/
  regions    : List Region
  /-- QCAP -/
  queueCap   : Nat
  /-- TICK_INC -/
  tickInc    : Nat
deriving DecidableEq, Repr

/-- How many channels, tasks and waker cells there are (NCH, NTASKS, N_I2C, N_RNG, N_WDT, N_ESPI of 00_scope.md R6). -/
structure Counts where
  nch    : Nat
  ntasks : Nat
  nI2c   : Nat
  nRng   : Nat
  nWdt   : Nat
  nEspi  : Nat
deriving DecidableEq, Repr

/-- What the interleaving offers next (00_scope.md R5): a step of one agent. `engine ch granted` carries the
PERIPHERAL environment's grant for that step (42_dma.md R191). -/
inductive Choice where
  | host
  | start (t : Nat)
  | resume (t : Nat)
  | engine (ch : Nat) (granted : Bool)
  | dmaShim
  | tickSource
  | tickHandler
deriving DecidableEq, Repr, Inhabited

namespace Config

/-- FREE VALUE (log 6). The PERIPHERAL environment's answer to a read of `size` bytes at `addr`, a function of HIST and
the access (20_memory.md R84, R89; 70_reset_and_hazards.md R352). Nothing is known of it. -/
opaque periphRead (hist : List Event) (agent : Agent) (addr size : Nat) : Nat

/-- FREE VALUE (log 3). The interleaving of the agents once the choices listed in State are used up
(00_scope.md R5, 60_exceptions.md R306, R307). Nothing is known of it. -/
opaque schedule (index : Nat) : Choice

/-- FREE VALUE (log 15). What TRD reads for a queue of `length` entries where the length does not fit in 64 bits, which
43_time.md R231 does not state. Nothing is known of it. -/
opaque longQueueLength (length : Nat) : Word

/-- DESC_SIZE (00_scope.md R6). -/
def descSize : Nat := 16

/-- DESC_ALIGN (00_scope.md R6). -/
def descAlign : Nat := 1024

/-- The number of byte addresses (20_memory.md R80). -/
def addrSpace : Nat := 2 ^ 32

/-- TICK_HZ (00_scope.md R6); no rule depends on it (70_reset_and_hazards.md R369). -/
def tickHz : Nat := 1000

/-- The source's NCH (00_scope.md R6). -/
def sourceNch : Nat := 33

/-- DESIGN CHOICE (log 2): the common launch of 95_test_vectors.md, which State.reset is launched with. -/
def commonParams : Params where
  descBase := 0x20000000
  dmaMaxXfer := 1024
  regions :=
    [⟨0x20000000, 0x10000, .ram⟩, ⟨0x40000000, 0x10000, .periph⟩, ⟨0xFFFF0000, 0x10000, .ram⟩]
  queueCap := 8
  tickInc := 1

/-- DESIGN CHOICE (log 2): the counts of the common launch of 95_test_vectors.md. -/
def commonCounts : Counts where
  nch := sourceNch
  ntasks := 2
  nI2c := 1
  nRng := 1
  nWdt := 1
  nEspi := 1

end Config

end Sys2Proof
end

