-- ==== Sys2Proof/Machine/Region.lean ====
section
/-! DEFINITION. REGION, the platform's address map (20_memory.md R80, R85): the kind of one byte address and of all the
bytes of an access. -/

namespace Sys2Proof.Machine

/-- Does the line of the map cover the address? -/
def regionCovers (r : Region) (a : Nat) : Bool :=
  decide (r.base ≤ a) && decide (a < r.base + r.size)

/-- REGION(a): the kind the first covering line gives; NONE where no line covers the address and outside the 2^32
addresses (20_memory.md R80). -/
def regionKind (rs : List Region) (a : Nat) : RegionKind :=
  if a < Config.addrSpace then
    match rs.find? (fun r => regionCovers r a) with
    | some r => r.kind
    | none => .unmapped
  else .unmapped

/-- The kind all `n` bytes from `a` share, if they share one (20_memory.md R85). -/
def accessKind (rs : List Region) (a n : Nat) : Option RegionKind :=
  if (List.range n).all (fun i => regionKind rs (a + i) == regionKind rs a) then
    some (regionKind rs a)
  else none

end Sys2Proof.Machine
end

