-- ==== Sys2Proof/Machine/State.lean ====
section
/-! DEFINITION. State: every piece of state the spec gives the block (10_state.md), the reasons a step can stop, and the
state after reset (10_state.md R70). NCH, NTASKS, N_I2C, N_RNG, N_WDT and N_ESPI are the lengths of the lists below. -/

namespace Sys2Proof.Machine

/-! ### Why a step can stop without a next state -/

/-- A step or a meaning that has no next state. None is a fault of the spec: a fault of the spec is entered, with a next
state whose FAULT is set (60_exceptions.md R300). -/
inductive Fault where
  /-- Raised by `step` and by every meaning where FAULT is not NONE: no agent has an enabled step (60_exceptions.md
  R300 item 3). Safe: the hardware stops too. -/
  | blockStopped
  /-- Raised by a meaning where CURRENT is NONE or names no task: a host step is not enabled there (44_host.md R290).
  Safe: no step of the machine runs a command there. -/
  | noRunningTask
  /-- Raised by a meaning where PHASE names a micro-step the command does not have (10_state.md R35). Safe: no run
  reaches such a state. -/
  | noSuchMicroStep
deriving DecidableEq, Repr

/-- A step the model refuses. -/
inductive Refusal where
  /-- Raised by a command that has no meaning yet, by its mnemonic. Safe: the hardware goes on. -/
  | notModelled (mnemonic : String)
  /-- Raised by `step` where the launch breaks a constraint of 70_reset_and_hazards.md R352: the model refuses it. Safe:
  the spec gives such a launch no run. -/
  | launchNotAdmitted
deriving DecidableEq, Repr

/-! ### The faults of the spec -/

/-- The faults of 60_exceptions.md R301 with the info their rules name. A fault with two or three shapes of info has a
constructor for each. -/
inductive BlockFault where
  /-- 1 F_ILLEGAL_CMD -/
  | illegalCmd (task cp : Nat) (header : Word32)
  /-- 2 F_CP_RANGE -/
  | cpRange (task cp : Nat)
  /-- 3 F_UNINIT_REG -/
  | uninitReg (task : Nat) (reg : RegNum)
  /-- 4 F_BAD_OPERAND -/
  | badOperand (sel : BitVec 4)
  /-- 5 F_BAD_CELL -/
  | badCell (id : BitVec 16)
  /-- 6 F_BAD_HANDLE -/
  | badHandle (h : Handle)
  /-- 7 F_BAD_CHANNEL -/
  | badChannel (ch : Nat)
  /-- 8 F_DOUBLE_RESERVE -/
  | doubleReserve (ch : Nat) (owner : Option Nat)
  /-- 9 F_NOT_OWNER -/
  | notOwner (ch task : Nat)
  /-- 10 F_CHANNEL_BUSY -/
  | channelBusy (ch : Nat)
  /-- 11 F_UNMODELLED_OPTION -/
  | unmodelledOption (ch : Nat) (opts : Word32)
  /-- 12 F_MISALIGNED of LD and ST -/
  | misalignedAccess (addr size : Nat)
  /-- 12 F_MISALIGNED of DCFG (bases) and DTRG (end addresses) -/
  | misalignedTransfer (ch src dst width : Nat)
  /-- 13 F_ADDR_WRAP of LD and ST -/
  | addrWrapAccess (addr size : Nat)
  /-- 13 F_ADDR_WRAP of DCFG (base) and DTRG (end address) -/
  | addrWrapTransfer (ch addr count width : Nat)
  /-- 14 F_TRIGGER_NOT_READY -/
  | triggerNotReady (ch : Nat) (valid enable inten : Bool)
  /-- 15 F_LINK_UNSUPPORTED -/
  | linkUnsupported (ch : Nat) (link : Nat)
  /-- 16 F_POLL_NOT_STARTED -/
  | pollNotStarted (ch : Nat)
  /-- 17 F_DMA_RACE of a transfer that writes the descriptor table -/
  | raceWithTable (ch : Nat)
  /-- 17 F_DMA_RACE of two transfers -/
  | raceWithChannel (ch other : Nat)
  /-- 17 F_DMA_RACE of a host access and a transfer -/
  | raceWithHost (ch addr size : Nat)
  /-- 18 F_BUS -/
  | bus (agent : Agent) (addr size : Nat)
  /-- 19 F_QUEUE_FULL -/
  | queueFull (ts : Word) (task : Nat)
deriving DecidableEq, Repr

/-- What FAULT records: the fault and, for the host, CURRENT and its CP (60_exceptions.md R300). -/
structure FaultRecord where
  fault : BlockFault
  agent : Agent
  task  : Option Nat
  cp    : Option Nat
deriving DecidableEq, Repr

/-! ### Host tasks -/

/-- TSTATE (10_state.md R33). -/
inductive TaskState where
  | init
  | running
  | suspended
  | halted
deriving DecidableEq, Repr

/-- A host register: its value and its written flag (10_state.md R30, R31). -/
structure Reg where
  value   : Word
  written : Bool
deriving DecidableEq, Repr

/-- The state of one host task (10_state.md R30 to R35). -/
structure Task where
  regs   : Vector Reg 16
  cp     : Nat
  phase  : Fin 4
  latch  : Word32
  tstate : TaskState
  ready  : Bool
  /-- PROG[t]; LEN[t] is its length. -/
  prog   : List Word32
deriving DecidableEq, Repr

/-- A task as reset leaves it, with every unspecified value 0 (log 1) and no program. -/
def Task.blank : Task where
  regs := Vector.replicate 16 ⟨0, false⟩
  cp := 0
  phase := 0
  latch := 0
  tstate := .init
  ready := false
  prog := []

/-! ### DMA channels -/

/-- CHCFG (10_state.md R43). -/
structure ChannelConfig where
  valid  : Bool
  dir    : BitVec 2
  wcode  : BitVec 2
  srcInc : Bool
  dstInc : Bool
  count  : Word32
  opts   : Word32
deriving DecidableEq, Repr

/-- The in-flight transfer state (10_state.md R45). -/
structure Transfer where
  rem    : Nat
  srcEnd : Word32
  dstEnd : Word32
  width  : Nat
  srcInc : Bool
  dstInc : Bool
  dir    : BitVec 2
  count  : Word32
deriving DecidableEq, Repr

/-- The state of one DMA channel: RES, CHCFG, the control and status bits, the in-flight transfer, and its waker cell
(10_state.md R40 to R45). -/
structure Channel where
  res     : Option Nat
  cfg     : ChannelConfig
  enable  : Bool
  inten   : Bool
  active  : Bool
  done    : Bool
  started : Bool
  xfer    : Transfer
  waker   : Option Handle
deriving DecidableEq, Repr

/-- A channel as reset leaves it, with every unspecified value 0 (log 1). -/
def Channel.blank : Channel where
  res := none
  cfg := ⟨false, 0, 0, false, false, 0, 0⟩
  enable := false
  inten := false
  active := false
  done := false
  started := false
  xfer := ⟨0, 0, 0, 0, false, false, 0, 0⟩
  waker := none

/-! ### The machine -/

/-- An entry of the deadline queue (10_state.md R63). -/
structure QueueEntry where
  ts     : Word
  handle : Handle
deriving DecidableEq, Repr

/-- RAM: the bytes that differ from what an unlisted address reads as, at strictly rising addresses (log 4). -/
abbrev Memory := List Host.Cell

/-- The whole machine. -/
structure State where
  /-- the launch parameters; no step writes them -/
  params      : Params
  tasks       : List Task
  /-- CURRENT -/
  current     : Option Nat
  chans       : List Channel
  /-- CELL of class 1 -/
  i2cCells    : List (Option Handle)
  /-- CELL of class 2 -/
  rngCells    : List (Option Handle)
  /-- CELL of class 3 -/
  wdtCells    : List (Option Handle)
  /-- CELL of class 4 -/
  espiCells   : List (Option Handle)
  mem         : Memory
  /-- HIST, the latest event last -/
  hist        : List Event
  period      : BitVec 32
  count       : BitVec 32
  compare     : BitVec 31
  alarmEn     : Bool
  alarmTs     : Option Word
  tickPend    : Bool
  /-- QUEUE, a multiset kept sorted by timestamp and handle -/
  queue       : List QueueEntry
  fault       : Option FaultRecord
  /-- the model's own: scheduling choices still to be taken (log 3) -/
  choices     : List Choice
  /-- the model's own: how many choices were drawn from Config.schedule (log 3) -/
  choiceIndex : Nat
deriving DecidableEq, Repr

/-! ### Reset -/

/-- The launch inputs (70_reset_and_hazards.md R352). A task's record gives its program, its preset registers and the
draw of LATCH; a channel's record gives the draws of the fields R70 calls unspecified; the rest of both records is
replaced by the reset values. -/
structure Launch where
  params  : Params
  tasks   : List Task
  chans   : List Channel
  nI2c    : Nat
  nRng    : Nat
  nWdt    : Nat
  nEspi   : Nat
  /-- RAM contents, the descriptor table's included -/
  ram     : Memory
  choices : List Choice
deriving DecidableEq, Repr

/-- A task at reset: the specified values of 10_state.md R70, the draws and the launch inputs kept. -/
def Task.atReset (draw : Task) : Task :=
  { draw with cp := 0, phase := 0, tstate := .init, ready := false }

/-- A channel at reset: the specified values of 10_state.md R70, the draws kept. -/
def Channel.atReset (draw : Channel) : Channel :=
  { draw with
    res := none, cfg := { draw.cfg with valid := false }, enable := false, inten := false,
    active := false, done := false, started := false, xfer := { draw.xfer with rem := 0 },
    waker := none }

/-- The state after reset under a launch (10_state.md R70, 70_reset_and_hazards.md R350). -/
def State.launch (l : Launch) : State where
  params := l.params
  tasks := l.tasks.map Task.atReset
  current := none
  chans := l.chans.map Channel.atReset
  i2cCells := List.replicate l.nI2c none
  rngCells := List.replicate l.nRng none
  wdtCells := List.replicate l.nWdt none
  espiCells := List.replicate l.nEspi none
  mem := l.ram
  hist := []
  period := 0
  count := 0
  compare := 0
  alarmEn := false
  alarmTs := none
  tickPend := false
  queue := []
  fault := none
  choices := l.choices
  choiceIndex := 0

/-- DESIGN CHOICE (log 1, log 2, log 4): the common launch of 95_test_vectors.md, with no program and every unspecified
value 0. -/
def commonLaunch : Launch where
  params := Config.commonParams
  tasks := List.replicate Config.commonCounts.ntasks Task.blank
  chans := List.replicate Config.commonCounts.nch Channel.blank
  nI2c := Config.commonCounts.nI2c
  nRng := Config.commonCounts.nRng
  nWdt := Config.commonCounts.nWdt
  nEspi := Config.commonCounts.nEspi
  ram := []
  choices := []

/-- The machine right after reset. -/
def State.reset : State := State.launch commonLaunch

end Sys2Proof.Machine
end

