-- ==== Sys2Proof/Machine/Ops.lean ====
section
/-! DEFINITION. The named operations every rule is written with: memory, tasks and their registers, channels, waker cells,
the data space, the history, taking a fault, the frame of a command, command fetch, and the next scheduling choice. -/

namespace Sys2Proof.Machine

/-! ### Memory (20_memory.md R83) -/

/-- What a byte that no entry lists reads as. DESIGN CHOICE (log 4): 0, the launch byte of 95_test_vectors.md. -/
def Memory.unlisted : Byte := 0

/-- M[a]. -/
def Memory.read : Memory → Nat → Byte
  | [], _ => Memory.unlisted
  | (k, b) :: m, a => if a = k then b else Memory.read m a

/-- The entry for a byte at the head of a memory, none where the byte reads so unlisted. -/
def Memory.cons (a : Nat) (v : Byte) (m : Memory) : Memory :=
  if v = Memory.unlisted then m else (a, v) :: m

/-- M[a] <- v, keeping the canonical form. -/
def Memory.write : Memory → Nat → Byte → Memory
  | [], a, v => Memory.cons a v []
  | (k, b) :: m, a, v =>
    if a < k then Memory.cons a v ((k, b) :: m)
    else if a = k then Memory.cons a v m
    else (k, b) :: Memory.write m a v

/-- The canonical form: addresses strictly rising, no entry equal to what an unlisted byte reads as. -/
def Memory.wf : Memory → Bool
  | [] => true
  | (a, v) :: m => (v != Memory.unlisted) && m.all (fun c => decide (a < c.1)) && Memory.wf m

/-- MemRead(a, n): n bytes, little-endian (20_memory.md R82, R83). -/
def memRead (m : Memory) (a : Nat) : Nat → Nat
  | 0 => 0
  | n + 1 => (m.read a).toNat + 2 ^ 8 * memRead m (a + 1) n

/-- MemWrite(a, n, v): the low n bytes of v, little-endian (20_memory.md R82, R83). -/
def memWrite (m : Memory) (a : Nat) : Nat → Nat → Memory
  | 0, _ => m
  | n + 1, v => memWrite (m.write a (BitVec.ofNat 8 v)) (a + 1) n (v / 2 ^ 8)

/-! ### Tasks and registers (10_state.md R30 to R35) -/

/-- The record of task t; a blank one where there is no task t. -/
def State.task (s : State) (t : Nat) : Task := (s.tasks[t]?).getD Task.blank

/-- Change the record of task t; nothing where there is no task t. -/
def State.updTask (s : State) (t : Nat) (f : Task → Task) : State :=
  { s with tasks := s.tasks.modify t f }

/-- A task's register as a value and a written flag. -/
def Task.reg (k : Task) (r : RegNum) : Reg := k.regs[r.toNat]'r.isLt

/-- The register of a task after a write: the value, and the flag set (10_state.md R31). -/
def Task.setReg (k : Task) (r : RegNum) (v : Word) : Task :=
  { k with regs := k.regs.set r.toNat ⟨v, true⟩ r.isLt }

/-- x[i] of task t, or F_UNINIT_REG (00_scope.md R8, 10_state.md R31). -/
def State.readReg (s : State) (t : Nat) (r : RegNum) : Except BlockFault Word :=
  let g := (s.task t).reg r
  if g.written then .ok g.value else .error (.uninitReg t r)

/-- x[i] <- v in task t (10_state.md R31). -/
def State.setReg (s : State) (t : Nat) (r : RegNum) (v : Word) : State :=
  s.updTask t fun k => k.setReg r v

/-- CP[t] <- target (00_scope.md R8). -/
def State.setCp (s : State) (t : Nat) (target : Nat) : State :=
  s.updTask t fun k => { k with cp := target }

/-- CP[t] <- CP[t] + n (30_encoding.md R112). -/
def State.advance (s : State) (t : Nat) (n : Nat) : State :=
  s.setCp t ((s.task t).cp + n)

/-- PHASE[t] <- p (10_state.md R35). -/
def State.setPhase (s : State) (t : Nat) (p : Fin 4) : State :=
  s.updTask t fun k => { k with phase := p }

/-- LATCH[t] <- v (10_state.md R35). -/
def State.setLatch (s : State) (t : Nat) (v : Word32) : State :=
  s.updTask t fun k => { k with latch := v }

/-- TSTATE[t] <- v (10_state.md R33). -/
def State.setTstate (s : State) (t : Nat) (v : TaskState) : State :=
  s.updTask t fun k => { k with tstate := v }

/-- CURRENT <- c (10_state.md R33). -/
def State.setCurrent (s : State) (c : Option Nat) : State := { s with current := c }

/-- READY[t] <- v (10_state.md R33). -/
def State.setReady (s : State) (t : Nat) (v : Bool) : State :=
  s.updTask t fun k => { k with ready := v }

/-- ready(h), the effect of invoking a handle (41_waker.md R140). -/
def State.ready (s : State) (h : Handle) : State := s.setReady h true

/-! ### Channels (10_state.md R42 to R46) -/

/-- NCH. -/
def State.nch (s : State) : Nat := s.chans.length

/-- NTASKS. -/
def State.ntasks (s : State) : Nat := s.tasks.length

/-- The record of channel ch; a blank one where there is no channel ch. -/
def State.chan (s : State) (ch : Nat) : Channel := (s.chans[ch]?).getD Channel.blank

/-- Change the record of channel ch; nothing where there is no channel ch. -/
def State.updChan (s : State) (ch : Nat) (f : Channel → Channel) : State :=
  { s with chans := s.chans.modify ch f }

/-- DONE[ch] and INTEN[ch], the channel's share of DMA_IRQ (10_state.md R46). -/
def Channel.irq (c : Channel) : Bool := c.done && c.inten

/-- DMA_IRQ (10_state.md R46). -/
def State.dmaIrq (s : State) : Bool := s.chans.any Channel.irq

/-- The counts of the launch, which are the lengths of the lists. -/
def State.counts (s : State) : Counts where
  nch := s.nch
  ntasks := s.ntasks
  nI2c := s.i2cCells.length
  nRng := s.rngCells.length
  nWdt := s.wdtCells.length
  nEspi := s.espiCells.length

/-! ### Waker cells (10_state.md R40, R41) -/

/-- The class of a cell id, id[15:12]. -/
def cellClass (id : BitVec 16) : Nat := (id.extractLsb' 12 4).toNat

/-- The instance of a cell id, id[11:0]. -/
def cellInstance (id : BitVec 16) : Nat := (id.extractLsb' 0 12).toNat

/-- The id of channel ch's cell: class 0, instance ch (42_dma.md R180). -/
def dmaCellId (ch : Nat) : BitVec 16 := BitVec.ofNat 16 ch

/-- CELL[id]; none where the id is invalid: a reserved class, or an instance not below its class's count
(10_state.md R41). -/
def State.cell (s : State) (id : BitVec 16) : Option (Option Handle) :=
  match cellClass id with
  | 0 => (s.chans[cellInstance id]?).map Channel.waker
  | 1 => s.i2cCells[cellInstance id]?
  | 2 => s.rngCells[cellInstance id]?
  | 3 => s.wdtCells[cellInstance id]?
  | 4 => s.espiCells[cellInstance id]?
  | _ => none

/-- CELL[id] <- v; nothing where the id is invalid. -/
def State.setCell (s : State) (id : BitVec 16) (v : Option Handle) : State :=
  match cellClass id with
  | 0 => s.updChan (cellInstance id) fun c => { c with waker := v }
  | 1 => { s with i2cCells := s.i2cCells.set (cellInstance id) v }
  | 2 => { s with rngCells := s.rngCells.set (cellInstance id) v }
  | 3 => { s with wdtCells := s.wdtCells.set (cellInstance id) v }
  | 4 => { s with espiCells := s.espiCells.set (cellInstance id) v }
  | _ => s

/-- WAKE_CELL(id): swap the cell with NONE and invoke the old handle (41_waker.md R142). -/
def State.wakeCell (s : State) (id : BitVec 16) : State :=
  match s.cell id with
  | some (some h) => (s.setCell id none).ready h
  | _ => s

/-! ### The data space and the history (20_memory.md R80 to R89) -/

/-- HIST <- HIST followed by an event (20_memory.md R89). -/
def State.record (s : State) (e : Event) : State := { s with hist := s.hist ++ [e] }

/-- M <- m. -/
def State.setMem (s : State) (m : Memory) : State := { s with mem := m }

/-- The value a read of n bytes at a gives: MemRead in RAM, the environment's draw on PERIPH, else F_BUS
(20_memory.md R83 to R85). -/
def State.readValue (s : State) (agent : Agent) (a n : Nat) : Except BlockFault Nat :=
  match accessKind s.params.regions a n with
  | some .ram => .ok (memRead s.mem a n)
  | some .periph => .ok (Config.periphRead s.hist agent a n % 2 ^ (8 * n))
  | _ => .error (.bus agent a n)

/-- The memory after a write of the low n bytes of v at a: MemWrite in RAM, no change on PERIPH, else F_BUS
(20_memory.md R83 to R85). -/
def State.writeValue (s : State) (agent : Agent) (a n v : Nat) : Except BlockFault State :=
  match accessKind s.params.regions a n with
  | some .ram => .ok (s.setMem (memWrite s.mem a n v))
  | some .periph => .ok s
  | _ => .error (.bus agent a n)

/-- Record a host access in HIST where it is an access to PERIPH (20_memory.md R84, R89). -/
def State.recordPeriph (s : State) (e : Event) : State :=
  if accessKind s.params.regions e.addr e.size = some .periph then s.record e else s

/-- MemRead of a descriptor word by the host: F_BUS outside RAM (42_dma.md R179). -/
def State.readRam (s : State) (a n : Nat) : Except BlockFault Nat :=
  if accessKind s.params.regions a n = some .ram then .ok (memRead s.mem a n)
  else .error (.bus .host a n)

/-- MemWrite of a descriptor word by the host: F_BUS outside RAM (42_dma.md R170, 60_exceptions.md R302). -/
def State.writeRam (s : State) (a n v : Nat) : Except BlockFault State :=
  if accessKind s.params.regions a n = some .ram then .ok (s.setMem (memWrite s.mem a n v))
  else .error (.bus .host a n)

/-! ### Faults (60_exceptions.md R300) -/

/-- FAULT ENTRY, the one exception the block takes: no write of the step happens, FAULT records the fault, the agent and,
for the host, CURRENT and its CP (60_exceptions.md R300). There is no return from it: FAULT is never cleared and no
agent steps afterwards. An interrupt saves nothing at entry and restores nothing at return (R308, R309), so it has
no operation of its own here: its handler's step is the whole of it. -/
def State.takeFault (s : State) (agent : Agent) (f : BlockFault) : State :=
  { s with
    fault := some
      { fault := f
        agent := agent
        task := if agent = .host then s.current else none
        cp := if agent = .host then s.current.map (fun t => (s.task t).cp) else none } }

/-! ### The frame of a command (44_host.md R290) -/

/-- What a meaning gives the step: the state it leaves, or the fault it raises, taken as R300 says. -/
def hostResult (s : State) (r : Except BlockFault State) : Host.Outcome State Fault Refusal :=
  match r with
  | .ok s' => .next s'
  | .error f => .next (s.takeFault .host f)

/-- A host step is enabled when FAULT = NONE and CURRENT names a task (44_host.md R290). -/
def hostCommand (s : State) (body : Nat → Host.Outcome State Fault Refusal) :
    Host.Outcome State Fault Refusal :=
  if s.fault = none then
    match s.current with
    | some t => if t < s.ntasks then body t else .fault .noRunningTask
    | none => .fault .noRunningTask
  else .fault .blockStopped

/-- An atomic command: one step, begun with PHASE = 0 (00_scope.md R10, 44_host.md R290). -/
def atomicCommand (s : State) (body : Nat → Except BlockFault State) :
    Host.Outcome State Fault Refusal :=
  hostCommand s fun t =>
    if (s.task t).phase = 0 then hostResult s (body t) else .fault .noSuchMicroStep

/-! ### Command fetch (30_encoding.md R117) -/

/-- The words of task t from CP[t] on. -/
def State.wordsAtCp (s : State) (t : Nat) : List Word32 := (s.task t).prog.drop (s.task t).cp

/-- Fetch and decode the command at CP[t] (30_encoding.md R117). -/
def State.fetch (s : State) (t : Nat) : Except BlockFault Instr :=
  match decode (s.wordsAtCp t) with
  | .ok (i, _) => .ok i
  | .error (.illegalHeader h) => .error (.illegalCmd t (s.task t).cp h)
  | .error .endOfStream => .error (.cpRange t (s.task t).cp)

/-! ### Scheduling (00_scope.md R5) -/

/-- The next choice of the interleaving: the first listed one, else the next of Config.schedule (log 3). -/
def State.nextChoice (s : State) : Choice :=
  match s.choices with
  | c :: _ => c
  | [] => Config.schedule s.choiceIndex

/-- The state once its next choice is taken. -/
def State.dropChoice (s : State) : State :=
  match s.choices with
  | _ :: cs => { s with choices := cs }
  | [] => { s with choiceIndex := s.choiceIndex + 1 }

/-! ### Placing a command for the host's check -/

/-- A program with the words `ws` at index `at_`, zeros before them where the program is shorter. -/
def placeWords (prog : List Word32) (at_ : Nat) (ws : List Word32) : List Word32 :=
  prog.take at_ ++ List.replicate (at_ - prog.length) 0 ++ ws ++ prog.drop (at_ + ws.length)

/-- The task that the next host step runs: CURRENT, or task 0 where no task runs. -/
def State.fetchTask (s : State) : Nat := s.current.getD 0

/-- Put words where the next host step fetches, make their task the running one at a command's first step, and let
the next choice be a host step. -/
def State.placeCommand (s : State) (ws : List Word32) : State :=
  { s with
    tasks := s.tasks.modify s.fetchTask fun k =>
      { k with prog := placeWords k.prog k.cp ws, phase := 0, tstate := .running }
    current := some s.fetchTask
    fault := none
    choices := .host :: s.choices }

end Sys2Proof.Machine
end

