-- ==== Sys2Proof/Machine/Flags.lean ====
section
/-! DEFINITION. Results. The block has no flags and no condition codes (10_state.md R34): a condition is a value a command
returns in a host register. Here are those values (00_scope.md R11) and the numbers of the faults (60_exceptions.md
R301). -/

namespace Sys2Proof.Machine

/-- Ready (00_scope.md R11). -/
def resultReady : Word := 1

/-- Pending (00_scope.md R11). -/
def resultPending : Word := 0

/-- DCFG's success (42_dma.md R171). -/
def statusOk : Word := 0

/-- E_DIR (42_dma.md R171). -/
def statusDir : Word := 1

/-- E_WIDTH (42_dma.md R171). -/
def statusWidth : Word := 2

/-- E_COUNT (42_dma.md R171). -/
def statusCount : Word := 3

/-- The number of a fault (60_exceptions.md R301). -/
def BlockFault.code : BlockFault → Nat
  | .illegalCmd _ _ _ => 1
  | .cpRange _ _ => 2
  | .uninitReg _ _ => 3
  | .badOperand _ => 4
  | .badCell _ => 5
  | .badHandle _ => 6
  | .badChannel _ => 7
  | .doubleReserve _ _ => 8
  | .notOwner _ _ => 9
  | .channelBusy _ => 10
  | .unmodelledOption _ _ => 11
  | .misalignedAccess _ _ => 12
  | .misalignedTransfer _ _ _ _ => 12
  | .addrWrapAccess _ _ => 13
  | .addrWrapTransfer _ _ _ _ => 13
  | .triggerNotReady _ _ _ _ => 14
  | .linkUnsupported _ _ => 15
  | .pollNotStarted _ => 16
  | .raceWithTable _ => 17
  | .raceWithChannel _ _ => 17
  | .raceWithHost _ _ _ => 17
  | .bus _ _ _ => 18
  | .queueFull _ _ => 19

end Sys2Proof.Machine
end

