-- ==== Sys2Proof/Machine/Operands.lean ====
section
/-! DEFINITION. Operand forms (30_encoding.md R113, R114): immediates, the widths of LD, ST and DCFG, and the
selectors. -/

namespace Sys2Proof.Machine

/-- ADDI's immediate, sext_64(IMM16) (30_encoding.md R113). -/
def addiImm (imm : BitVec 16) : Word := imm.signExtend 64

/-- BEQ's and BNE's compare value, zext_64(IMM16) (30_encoding.md R113). -/
def branchImm (imm : BitVec 16) : Word := imm.setWidth 64

/-- SIGNAL's handle, zext(IMM16) (30_encoding.md R113). -/
def signalHandle (h : BitVec 16) : Handle := h.toNat

/-- The width 2^WC in bytes: 1, 2, 4, 8 for LD and ST (30_encoding.md R114), 1, 2, 4 for a channel (42_dma.md R173). -/
def widthBytes (wc : BitVec 2) : Nat := 2 ^ wc.toNat

/-- An Option read as a number: NONE is 2^64 − 1 (00_scope.md R9). -/
def optionWord (o : Option Word) : Word := o.getD (BitVec.allOnes 64)

/-- zext_64 of one bit. -/
def bitWord (b : Bool) : Word := if b then 1 else 0

end Sys2Proof.Machine
end

