-- ==== Sys2Proof/Machine/DmaOps.lean ====
section
/-! DEFINITION. What the DMA commands, the engine and the host's accesses share: descriptors, end addresses, byte ranges and
the race checks (10_state.md R47, 42_dma.md R161, R172, R175, R176, R179, R195, 70_reset_and_hazards.md R360, R361). -/

namespace Sys2Proof.Machine

/-! ### Descriptors (10_state.md R47) -/

/-- DESC(ch). -/
def State.desc (s : State) (ch : Nat) : Nat := s.params.descBase + Config.descSize * ch

/-- Write the four words of a channel's descriptor: reserved 0, source end, destination end, link 0 (42_dma.md R170). -/
def State.writeDescriptor (s : State) (ch srcEnd dstEnd : Nat) : Except BlockFault State :=
  match s.writeRam (s.desc ch) 4 0 with
  | .error f => .error f
  | .ok s1 =>
    match s1.writeRam (s.desc ch + 4) 4 srcEnd with
    | .error f => .error f
    | .ok s2 =>
      match s2.writeRam (s.desc ch + 8) 4 dstEnd with
      | .error f => .error f
      | .ok s3 => s3.writeRam (s.desc ch + 12) 4 0

/-- The words of a channel's descriptor that DTRG reads: source end, destination end, link (42_dma.md R179). -/
def State.readDescriptor (s : State) (ch : Nat) : Except BlockFault (Nat × Nat × Nat) :=
  match s.readRam (s.desc ch + 4) 4 with
  | .error f => .error f
  | .ok se =>
    match s.readRam (s.desc ch + 8) 4 with
    | .error f => .error f
    | .ok de =>
      match s.readRam (s.desc ch + 12) 4 with
      | .error f => .error f
      | .ok lk => .ok (se, de, lk)

/-! ### Ownership (42_dma.md R161) -/

/-- CHK(ch) for task t: the fault it raises, if any. -/
def State.chkFault (s : State) (t ch : Nat) : Option BlockFault :=
  if s.nch ≤ ch then some (.badChannel ch)
  else if (s.chan ch).res ≠ some t then some (.notOwner ch t)
  else none

/-! ### Directions and end addresses (42_dma.md R172, R176) -/

/-- INC(dir), whether the source side advances. -/
def srcAdvances (dir : BitVec 2) : Bool := dir = 0 || dir = 1

/-- INC(dir), whether the destination side advances. -/
def dstAdvances (dir : BitVec 2) : Bool := dir = 0 || dir = 2

/-- Does a transfer of this direction need the environment's grants (42_dma.md R190, R191)? -/
def needsGrant (dir : BitVec 2) : Bool := dir = 1 || dir = 2

/-- END(base, count, w, inc) (42_dma.md R176). -/
def endAddr (base count w : Nat) (inc : Bool) : Nat :=
  if inc then base + (count - 1) * w else base

/-! ### Byte ranges (42_dma.md R179) -/

/-- An inclusive range of byte addresses, on unbounded integers. -/
structure ByteRange where
  lo : Int
  hi : Int
deriving DecidableEq, Repr

/-- RANGE(end, n, w, inc) (42_dma.md R179). -/
def byteRange (end_ n w : Nat) (inc : Bool) : ByteRange :=
  if inc then ⟨(end_ : Int) - ((n : Int) - 1) * w, (end_ : Int) + w - 1⟩
  else ⟨(end_ : Int), (end_ : Int) + w - 1⟩

/-- The bytes both ranges hold. -/
def ByteRange.inter (r q : ByteRange) : ByteRange := ⟨max r.lo q.lo, min r.hi q.hi⟩

/-- No byte. -/
def ByteRange.isEmpty (r : ByteRange) : Bool := decide (r.hi < r.lo)

/-- Do the ranges share a byte? -/
def ByteRange.meets (r q : ByteRange) : Bool := !(r.inter q).isEmpty

/-- Within 0 .. 0xFFFF_FFFF (42_dma.md R179). -/
def ByteRange.inSpace (r : ByteRange) : Bool :=
  decide (0 ≤ r.lo) && decide (r.hi < (Config.addrSpace : Int))

/-- Is some byte of the range of kind PERIPH? -/
def ByteRange.hasPeriph (rs : List Region) (r : ByteRange) : Bool :=
  (List.range (r.hi - r.lo + 1).toNat).any fun i =>
    regionKind rs (r.lo + i).toNat == .periph

/-- The bytes of an access of n bytes at a. -/
def accessRange (a n : Nat) : ByteRange := ⟨(a : Int), (a : Int) + n - 1⟩

/-- SRc, the bytes the transfer in flight reads (42_dma.md R179, R195). -/
def Transfer.srcRange (x : Transfer) : ByteRange :=
  byteRange x.srcEnd.toNat x.count.toNat x.width x.srcInc

/-- DRc, the bytes the transfer in flight writes. -/
def Transfer.dstRange (x : Transfer) : ByteRange :=
  byteRange x.dstEnd.toNat x.count.toNat x.width x.dstInc

/-- The descriptor table's bytes (10_state.md R47). -/
def State.tableRange (s : State) : ByteRange :=
  accessRange s.params.descBase (Config.descSize * s.nch)

/-- The bytes of channel ch's descriptor slot (70_reset_and_hazards.md R360). -/
def State.slotRange (s : State) (ch : Nat) : ByteRange := accessRange (s.desc ch) Config.descSize

/-! ### Races -/

/-- Does a transfer that reads `sr` and writes `dr` conflict with channel c's transfer (42_dma.md R195)? -/
def State.transferConflict (s : State) (sr dr : ByteRange) (c : Nat) : Bool :=
  let x := (s.chan c).xfer
  dr.meets x.srcRange || dr.meets x.dstRange || sr.meets x.dstRange ||
    (sr.inter x.srcRange).hasPeriph s.params.regions

/-- RACECHK(ch, SR, DR): the fault it raises, if any (42_dma.md R195). -/
def State.raceFault (s : State) (ch : Nat) (sr dr : ByteRange) : Option BlockFault :=
  if dr.meets s.tableRange then some (.raceWithTable ch)
  else
    match (List.range s.nch).find? fun c =>
        decide (c ≠ ch) && (s.chan c).active && s.transferConflict sr dr c with
    | some c => some (.raceWithChannel ch c)
    | none => none

/-- Does a host access conflict with channel c's transfer (70_reset_and_hazards.md R360, R361)? -/
def State.hostConflict (s : State) (a n : Nat) (kind : AccessKind) (c : Nat) : Bool :=
  let x := (s.chan c).xfer
  let b := accessRange a n
  b.meets (s.slotRange c) || b.meets x.dstRange ||
    (decide (kind = .write) && b.meets x.srcRange) ||
    (b.inter x.srcRange).hasPeriph s.params.regions

/-- HOSTRACE(a, n, kind): a channel the access races with; the lowest where there are several, DESIGN CHOICE (log 8)
(70_reset_and_hazards.md R361). -/
def State.hostRace (s : State) (a n : Nat) (kind : AccessKind) : Option Nat :=
  (List.range s.nch).find? fun c => (s.chan c).active && s.hostConflict a n kind c

/-- The checks LD and ST make of an address before the access, in order: the fault they raise, if any
(44_host.md R273, R274). -/
def State.accessFault (s : State) (a n : Nat) (kind : AccessKind) : Option BlockFault :=
  if a % n ≠ 0 then some (.misalignedAccess a n)
  else if Config.addrSpace < a + n then some (.addrWrapAccess a n)
  else
    match s.hostRace a n kind with
    | some c => some (.raceWithHost c a n)
    | none => none

end Sys2Proof.Machine
end

