-- ==== Sys2Proof/Machine/TimeOps.lean ====
section
/-! DEFINITION. The procedures the time commands and the tick handler share (43_time.md R220 to R226). Timestamps are
compared as unbounded integers. -/

namespace Sys2Proof.Machine

/-- 2^31, the counter units of one period. -/
def periodLength : Nat := 2 ^ 31

/-- NOW(P, C) = P * 2^31 + (C xor (P[0] << 31)) (43_time.md R220). -/
def logicalTime (p c : Word32) : Nat :=
  p.toNat * periodLength + (c ^^^ (((p.extractLsb' 0 1).setWidth 32) <<< 31)).toNat

/-- COUNT[30:0], the sub-counter (10_state.md R60). -/
def State.subCount (s : State) : Nat := (s.count.extractLsb' 0 31).toNat

/-- NOWI (43_time.md R221). -/
def State.nowi (s : State) : Nat := s.period.toNat * periodLength + s.subCount

/-! ### The queue (43_time.md R222) -/

/-- The order the queue is kept in: by timestamp, then by handle. -/
def QueueEntry.le (e f : QueueEntry) : Bool :=
  decide (e.ts.toNat < f.ts.toNat) || (decide (e.ts = f.ts) && decide (e.handle ≤ f.handle))

/-- QUEUE + {e}. -/
def queueInsert (e : QueueEntry) : List QueueEntry → List QueueEntry
  | [] => [e]
  | f :: q => if e.le f then e :: f :: q else f :: queueInsert e q

/-- QMIN, the least ts of any entry; none where the queue is empty. -/
def queueMin : List QueueEntry → Option Word
  | [] => none
  | e :: q =>
    match queueMin q with
    | none => some e.ts
    | some m => some (if e.ts.toNat ≤ m.toNat then e.ts else m)

/-- Does the entry expire at time n: ts ≤ n? -/
def QueueEntry.expired (e : QueueEntry) (n : Nat) : Bool := decide (e.ts.toNat ≤ n)

/-- QUEUE <- q. -/
def State.setQueue (s : State) (q : List QueueEntry) : State := { s with queue := q }

/-- ready(h) of every entry of a list. -/
def State.readyAll (s : State) (es : List QueueEntry) : State :=
  es.foldl (fun s e => s.ready e.handle) s

/-- POP_EXPIRED(n) (43_time.md R222). DEDUCED (log 14): a popped entry's handle is readied directly and no waker cell is
read or written, as R222 and 41_waker.md R145 say, although 20_memory.md R95 lists alarm processing among the swaps of
waker cells. -/
def State.popExpired (s : State) (n : Nat) : State :=
  (s.setQueue (s.queue.filter fun e => !e.expired n)).readyAll (s.queue.filter fun e => e.expired n)

/-! ### The alarm (43_time.md R223 to R226) -/

/-- ALARM_EN <- en; ALARM_TS <- ts. -/
def State.setAlarmRegs (s : State) (en : Bool) (ts : Option Word) : State :=
  { s with alarmEn := en, alarmTs := ts }

/-- COMPARE <- v. -/
def State.setCompare (s : State) (v : BitVec 31) : State := { s with compare := v }

/-- ts < (PERIOD + 1) * 2^31: the time lies before the next wrap. -/
def State.beforeWrap (s : State) (ts : Word) : Bool :=
  decide (ts.toNat < (s.period.toNat + 1) * periodLength)

/-- SET_ALARM(ts): the state it leaves (43_time.md R223). -/
def State.setAlarm (s : State) (ts : Word) : State :=
  if ts.toNat ≤ s.nowi then s.setAlarmRegs false none
  else (s.setCompare (ts.extractLsb' 0 31)).setAlarmRegs (s.beforeWrap ts) (some ts)

/-- SET_ALARM(ts): its result, true unless ts is already overdue (43_time.md R223). -/
def State.setAlarmResult (s : State) (ts : Word) : Bool := decide (s.nowi < ts.toNat)

/-- REARM(), at most `fuel` passes (43_time.md R224). -/
def State.rearmLoop (s : State) : Nat → State
  | 0 => s.setAlarmRegs false none
  | fuel + 1 =>
    match queueMin s.queue with
    | none => s.setAlarmRegs false none
    | some m =>
      if s.setAlarmResult m then s.setAlarm m
      else ((s.setAlarm m).popExpired s.nowi).rearmLoop fuel

/-- REARM() (43_time.md R224). Each pass that does not return removes an entry, so one pass more than the queue has
entries is enough. -/
def State.rearm (s : State) : State := s.rearmLoop (s.queue.length + 1)

/-- NEXT_PERIOD() (43_time.md R225). -/
def State.nextPeriod (s : State) : State :=
  match s.alarmTs with
  | some ts => if s.beforeWrap ts then s.setAlarmRegs true (some ts) else s
  | none => s

/-- ALARM_FIRE() (43_time.md R226). -/
def State.alarmFire (s : State) : State :=
  ((s.setAlarmRegs false none).popExpired s.nowi).rearm

/-- Is the alarm armed and passed: ALARM_EN = 1, ALARM_TS = Some ts and NOWI ≥ ts (43_time.md R241)? -/
def State.alarmDue (s : State) : Bool :=
  match s.alarmTs with
  | some ts => s.alarmEn && decide (ts.toNat ≤ s.nowi)
  | none => false

/-! ### The counter (43_time.md R241) -/

/-- PERIOD <- p; COUNT <- (p[0] << 31) | c, for a sub-counter value c below 2^31 (10_state.md R62). -/
def State.setClock (s : State) (p : BitVec 32) (c : Nat) : State :=
  { s with period := p, count := (p.extractLsb' 0 1) ++ BitVec.ofNat 31 c }

/-- TICK_PEND <- v. -/
def State.setTickPend (s : State) (v : Bool) : State := { s with tickPend := v }

/-- Advance the counter by TICK_INC, and the period on a wrap (43_time.md R241). -/
def State.advanceClock (s : State) : State :=
  let c := s.subCount + s.params.tickInc
  if periodLength ≤ c then (s.setClock (s.period + 1) (c - periodLength)).nextPeriod
  else s.setClock s.period c

end Sys2Proof.Machine
end

