-- ==== Sys2Proof/Machine/Agents.lean ====
section
/-! DEFINITION. The steps of the agents other than the host's commands: executor, DMA engine, DMA shim, tick source and tick
handler, and when each is enabled (00_scope.md R5). -/

namespace Sys2Proof.Machine

/-! ### Executor (44_host.md R291, R292) -/

/-- START(t) (44_host.md R291). -/
def State.startTask (s : State) (t : Nat) : State :=
  (s.setTstate t .running).setCurrent (some t)

/-- RESUME(t): READY consumed, CP past the YIELD (44_host.md R292). -/
def State.resumeTask (s : State) (t : Nat) : State :=
  (((s.setReady t false).advance t 1).setTstate t .running).setCurrent (some t)

/-! ### DMA engine (42_dma.md R190 to R192) -/

/-- The address of the element moved with k elements remaining, on a side with this end address (42_dma.md R190). -/
def elementAddr (end_ : Word32) (k w : Nat) (inc : Bool) : Nat :=
  if inc then end_.toNat - (k - 1) * w else end_.toNat

/-- A channel after an element is moved: XREM counted down, and COMPLETE(ch) after the last one (42_dma.md R190,
R192). -/
def Channel.elementMoved (c : Channel) : Channel :=
  if c.xfer.rem - 1 = 0 then
    { c with xfer := { c.xfer with rem := 0 }, active := false, done := true }
  else { c with xfer := { c.xfer with rem := c.xfer.rem - 1 } }

/-- ENG(ch): move one element (42_dma.md R190). -/
def State.engineElement (s : State) (ch : Nat) : Except BlockFault State :=
  let x := (s.chan ch).xfer
  let sa := elementAddr x.srcEnd x.rem x.width x.srcInc
  let da := elementAddr x.dstEnd x.rem x.width x.dstInc
  match s.readValue (.engine ch) sa x.width with
  | .error f => .error f
  | .ok v =>
    match s.writeValue (.engine ch) da x.width v with
    | .error f => .error f
    | .ok s1 =>
      .ok (((s1.record ⟨.engine ch, .read, sa, x.width, v⟩).record
        ⟨.engine ch, .write, da, x.width, v⟩).updChan ch Channel.elementMoved)

/-- ENG(ch) with its fault taken (42_dma.md R190, 60_exceptions.md R309). -/
def State.engineStep (s : State) (ch : Nat) : State :=
  match s.engineElement ch with
  | .ok s1 => s1
  | .error f => s.takeFault (.engine ch) f

/-! ### DMA interrupt shim (42_dma.md R193) -/

/-- The shim's work on one channel. -/
def State.serveChannel (s : State) (ch : Nat) : State :=
  if (s.chan ch).irq then
    (s.updChan ch fun c => { c with inten := false }).wakeCell (dmaCellId ch)
  else s

/-- The DMA interrupt shim, channels in ascending order (42_dma.md R193). -/
def State.dmaShim (s : State) : State :=
  (List.range s.nch).foldl State.serveChannel s

/-! ### Tick source and tick handler (43_time.md R240, R241) -/

/-- The tick source's step (43_time.md R240). -/
def State.tickSource (s : State) : State := s.setTickPend true

/-- The tick handler (43_time.md R241). -/
def State.tickHandler (s : State) : State :=
  let s1 := (s.setTickPend false).advanceClock
  if s1.alarmDue then s1.alarmFire else s1

/-! ### When a step is enabled -/

/-- Is the choice's step enabled? Every enabling condition includes FAULT = NONE (60_exceptions.md R300). -/
def State.enabled (s : State) (c : Choice) : Bool :=
  s.fault.isNone &&
    match c with
    | .host => s.current.isSome
    | .start t => s.current.isNone && decide (t < s.ntasks) && decide ((s.task t).tstate = .init)
    | .resume t =>
      s.current.isNone && decide (t < s.ntasks) && decide ((s.task t).tstate = .suspended) &&
        (s.task t).ready
    | .engine ch granted =>
      decide (ch < s.nch) && (s.chan ch).active && decide (0 < (s.chan ch).xfer.rem) &&
        (granted || !needsGrant (s.chan ch).xfer.dir)
    | .dmaShim => s.dmaIrq
    | .tickSource => true
    | .tickHandler => s.tickPend

end Sys2Proof.Machine
end

