-- ==== Sys2Proof/Machine/Dma.lean ====
section
/-! DEFINITION. The DMA channel commands (42_dma.md R160 to R181). -/

namespace Sys2Proof.Machine

/-- DRES (42_dma.md R160). -/
def execDres (ch : BitVec 6) (s : State) : Host.Outcome State Fault Refusal :=
  atomicCommand s fun t =>
    if s.nch ≤ ch.toNat then .error (.badChannel ch.toNat)
    else if (s.chan ch.toNat).res ≠ none then
      .error (.doubleReserve ch.toNat (s.chan ch.toNat).res)
    else .ok ((s.updChan ch.toNat fun c => { c with res := some t }).advance t 1)

/-- DCFG's typed errors, in order (42_dma.md R171, checks 4 to 6). -/
def dcfgTypedError (maxXfer : Nat) (dir wc : BitVec 2) (count : Word32) : Option Word :=
  if dir = 3 then some statusDir
  else if wc = 3 then some statusWidth
  else if count = 0 ∨ maxXfer < count.toNat then some statusCount
  else none

/-- DCFG's checks of its options and bases, in order (42_dma.md R171, checks 7 to 9; R174, R175). Where both sides
wrap, the fault names the source's base, DESIGN CHOICE (log 9). -/
def dcfgBaseFault (ch : Nat) (dir wc : BitVec 2) (src dst count opts : Word32) :
    Option BlockFault :=
  let w := widthBytes wc
  if opts ≠ 0 then some (.unmodelledOption ch opts)
  else if src.toNat % w ≠ 0 ∨ dst.toNat % w ≠ 0 then
    some (.misalignedTransfer ch src.toNat dst.toNat w)
  else if Config.addrSpace < endAddr src.toNat count.toNat w (srcAdvances dir) + w then
    some (.addrWrapTransfer ch src.toNat count.toNat w)
  else if Config.addrSpace < endAddr dst.toNat count.toNat w (dstAdvances dir) + w then
    some (.addrWrapTransfer ch dst.toNat count.toNat w)
  else none

/-- A channel after a successful DCFG: CHCFG written, DONE and STARTED cleared (42_dma.md R170). -/
def Channel.configured (c : Channel) (dir wc : BitVec 2) (count : Word32) : Channel :=
  { c with
    cfg := ⟨true, dir, wc, srcAdvances dir, dstAdvances dir, count, 0⟩
    done := false
    started := false }

/-- DCFG (42_dma.md R170). -/
def execDcfg (rd : RegNum) (ch : BitVec 6) (dir wc : BitVec 2) (src dst count opts : Word32)
    (s : State) : Host.Outcome State Fault Refusal :=
  atomicCommand s fun t =>
    match s.chkFault t ch.toNat with
    | some f => .error f
    | none =>
      if (s.chan ch.toNat).active then .error (.channelBusy ch.toNat)
      else
        match dcfgTypedError s.params.dmaMaxXfer dir wc count with
        | some e => .ok ((s.setReg t rd e).advance t 5)
        | none =>
          match dcfgBaseFault ch.toNat dir wc src dst count opts with
          | some f => .error f
          | none =>
            match s.writeDescriptor ch.toNat
                (endAddr src.toNat count.toNat (widthBytes wc) (srcAdvances dir))
                (endAddr dst.toNat count.toNat (widthBytes wc) (dstAdvances dir)) with
            | .error f => .error f
            | .ok s1 =>
              .ok (((s1.updChan ch.toNat fun c => c.configured dir wc count).setReg t rd
                statusOk).advance t 5)

/-- DEN (42_dma.md R178). -/
def execDen (ch : BitVec 6) (s : State) : Host.Outcome State Fault Refusal :=
  atomicCommand s fun t =>
    match s.chkFault t ch.toNat with
    | some f => .error f
    | none =>
      .ok ((s.updChan ch.toNat fun c => { c with enable := true, inten := true }).advance t 1)

/-- DTRG's checks of the transfer the descriptor gives, in order: link, alignment, range, races (42_dma.md R179). -/
def State.triggerFault (s : State) (ch : Nat) (g : ChannelConfig) (se de lk : Nat) :
    Option BlockFault :=
  let w := widthBytes g.wcode
  let sr := byteRange se g.count.toNat w g.srcInc
  let dr := byteRange de g.count.toNat w g.dstInc
  if lk ≠ 0 then some (.linkUnsupported ch lk)
  else if se % w ≠ 0 ∨ de % w ≠ 0 then some (.misalignedTransfer ch se de w)
  else if !(sr.inSpace && dr.inSpace) then some (.addrWrapTransfer ch se g.count.toNat w)
  else s.raceFault ch sr dr

/-- A channel after DTRG: the transfer latched, VALID consumed, STARTED and ACTIVE set (42_dma.md R179). -/
def Channel.triggered (c : Channel) (se de : Nat) : Channel :=
  { c with
    xfer :=
      { rem := c.cfg.count.toNat
        srcEnd := BitVec.ofNat 32 se
        dstEnd := BitVec.ofNat 32 de
        width := widthBytes c.cfg.wcode
        srcInc := c.cfg.srcInc
        dstInc := c.cfg.dstInc
        dir := c.cfg.dir
        count := c.cfg.count }
    cfg := { c.cfg with valid := false }
    started := true
    active := true }

/-- DTRG (42_dma.md R179). -/
def execDtrg (ch : BitVec 6) (s : State) : Host.Outcome State Fault Refusal :=
  atomicCommand s fun t =>
    match s.chkFault t ch.toNat with
    | some f => .error f
    | none =>
      let c := s.chan ch.toNat
      if c.active then .error (.channelBusy ch.toNat)
      else if !(c.cfg.valid && c.enable && c.inten) then
        .error (.triggerNotReady ch.toNat c.cfg.valid c.enable c.inten)
      else
        match s.readDescriptor ch.toNat with
        | .error f => .error f
        | .ok (se, de, lk) =>
          match s.triggerFault ch.toNat c.cfg se de lk with
          | some f => .error f
          | none => .ok ((s.updChan ch.toNat fun c => c.triggered se de).advance t 1)

/-- DPOLL's first micro-step: check, and Ready if INTEN = 0 (42_dma.md R180). -/
def dpollCheck (rd : RegNum) (ch t : Nat) (s : State) : Except BlockFault State :=
  match s.chkFault t ch with
  | some f => .error f
  | none =>
    if !(s.chan ch).started then .error (.pollNotStarted ch)
    else if (s.chan ch).inten then .ok (s.setPhase t 1)
    else .ok (((s.setReg t rd resultReady).setPhase t 0).advance t 1)

/-- DPOLL's second micro-step: register the task in the channel's cell (42_dma.md R180). -/
def dpollRegister (ch t : Nat) (s : State) : State :=
  (s.setCell (dmaCellId ch) (some t)).setPhase t 2

/-- DPOLL's third micro-step: re-arm INTEN (42_dma.md R180). -/
def dpollRearm (ch t : Nat) (s : State) : State :=
  (s.updChan ch fun c => { c with inten := true }).setPhase t 3

/-- DPOLL's fourth micro-step: re-check INTEN (42_dma.md R180). -/
def dpollRecheck (rd : RegNum) (ch t : Nat) (s : State) : State :=
  ((s.setReg t rd (if (s.chan ch).inten then resultPending else resultReady)).setPhase t 0).advance
    t 1

/-- DPOLL: the micro-step PHASE names (42_dma.md R180, 44_host.md R290). -/
def execDpoll (rd : RegNum) (ch : BitVec 6) (s : State) : Host.Outcome State Fault Refusal :=
  hostCommand s fun t =>
    match (s.task t).phase with
    | 0 => hostResult s (dpollCheck rd ch.toNat t s)
    | 1 => .next (dpollRegister ch.toNat t s)
    | 2 => .next (dpollRearm ch.toNat t s)
    | 3 => .next (dpollRecheck rd ch.toNat t s)

/-- The status bit DRD's selector names (42_dma.md R181). -/
def Channel.statusBit (c : Channel) (sel : BitVec 4) : Option Bool :=
  match sel.toNat with
  | 0 => some c.enable
  | 1 => some c.inten
  | 2 => some c.active
  | 3 => some c.done
  | _ => none

/-- DRD (42_dma.md R181). -/
def execDrd (rd : RegNum) (ch : BitVec 6) (sel : BitVec 4) (s : State) :
    Host.Outcome State Fault Refusal :=
  atomicCommand s fun t =>
    if s.nch ≤ ch.toNat then .error (.badChannel ch.toNat)
    else
      match (s.chan ch.toNat).statusBit sel with
      | none => .error (.badOperand sel)
      | some b => .ok ((s.setReg t rd (bitWord b)).advance t 1)

end Sys2Proof.Machine
end

