-- ==== Sys2Proof/Machine/HostLayer.lean ====
section
/-! DEFINITION. The host command layer (44_host.md R271 to R280). -/

namespace Sys2Proof.Machine

/-- LI (44_host.md R271). -/
def execLi (rd : RegNum) (imm : Word) (s : State) : Host.Outcome State Fault Refusal :=
  atomicCommand s fun t => .ok ((s.setReg t rd imm).advance t 3)

/-- ADDI (44_host.md R272). -/
def execAddi (rd rs : RegNum) (imm : BitVec 16) (s : State) : Host.Outcome State Fault Refusal :=
  atomicCommand s fun t =>
    match s.readReg t rs with
    | .error f => .error f
    | .ok v => .ok ((s.setReg t rd (v + addiImm imm)).advance t 1)

/-- LD (44_host.md R273). -/
def execLd (rd : RegNum) (wc : BitVec 2) (addr : Word32) (s : State) :
    Host.Outcome State Fault Refusal :=
  atomicCommand s fun t =>
    let n := widthBytes wc
    match s.accessFault addr.toNat n .read with
    | some f => .error f
    | none =>
      match s.readValue .host addr.toNat n with
      | .error f => .error f
      | .ok v =>
        .ok (((s.recordPeriph ⟨.host, .read, addr.toNat, n, v⟩).setReg t rd
          (BitVec.ofNat 64 v)).advance t 2)

/-- ST (44_host.md R274). -/
def execSt (rs : RegNum) (wc : BitVec 2) (addr : Word32) (s : State) :
    Host.Outcome State Fault Refusal :=
  atomicCommand s fun t =>
    let n := widthBytes wc
    match s.readReg t rs with
    | .error f => .error f
    | .ok x =>
      let v := x.toNat % 2 ^ (8 * n)
      match s.accessFault addr.toNat n .write with
      | some f => .error f
      | none =>
        match s.writeValue .host addr.toNat n v with
        | .error f => .error f
        | .ok s1 => .ok ((s1.recordPeriph ⟨.host, .write, addr.toNat, n, v⟩).advance t 2)

/-- A branch: CP <- target if taken, else past the command's two words (44_host.md R275, R276, R280). -/
def State.branch (s : State) (t : Nat) (taken : Bool) (target : Word32) : State :=
  if taken then s.setCp t target.toNat else s.advance t 2

/-- BEQ (44_host.md R275). -/
def execBeq (rs : RegNum) (imm : BitVec 16) (target : Word32) (s : State) :
    Host.Outcome State Fault Refusal :=
  atomicCommand s fun t =>
    match s.readReg t rs with
    | .error f => .error f
    | .ok v => .ok (s.branch t (decide (v = branchImm imm)) target)

/-- BNE (44_host.md R276). -/
def execBne (rs : RegNum) (imm : BitVec 16) (target : Word32) (s : State) :
    Host.Outcome State Fault Refusal :=
  atomicCommand s fun t =>
    match s.readReg t rs with
    | .error f => .error f
    | .ok v => .ok (s.branch t (decide (v ≠ branchImm imm)) target)

/-- JMP (44_host.md R277). -/
def execJmp (target : Word32) (s : State) : Host.Outcome State Fault Refusal :=
  atomicCommand s fun t => .ok (s.setCp t target.toNat)

/-- YIELD (44_host.md R278). -/
def execYield (s : State) : Host.Outcome State Fault Refusal :=
  atomicCommand s fun t => .ok ((s.setTstate t .suspended).setCurrent none)

/-- HALT (44_host.md R279). -/
def execHalt (s : State) : Host.Outcome State Fault Refusal :=
  atomicCommand s fun t => .ok ((s.setTstate t .halted).setCurrent none)

/-- BLTU (44_host.md R280). -/
def execBltu (rs rt : RegNum) (target : Word32) (s : State) :
    Host.Outcome State Fault Refusal :=
  atomicCommand s fun t =>
    match s.readReg t rs with
    | .error f => .error f
    | .ok v =>
      match s.readReg t rt with
      | .error f => .error f
      | .ok w => .ok (s.branch t (decide (v.toNat < w.toNat)) target)

end Sys2Proof.Machine
end

