-- ==== Sys2Proof/Machine/Time.lean ====
section
/-! DEFINITION. The time driver's commands (43_time.md R230 to R233). -/

namespace Sys2Proof.Machine

/-- TNOW's first micro-step: read the period (43_time.md R230). -/
def tnowPeriod (t : Nat) (s : State) : State := (s.setLatch t s.period).setPhase t 1

/-- TNOW's second micro-step: read the counter and combine (43_time.md R230). -/
def tnowCounter (rd : RegNum) (t : Nat) (s : State) : State :=
  ((s.setReg t rd (BitVec.ofNat 64 (logicalTime (s.task t).latch s.count))).setPhase t 0).advance
    t 1

/-- TNOW: the micro-step PHASE names (43_time.md R230, 44_host.md R290). -/
def execTnow (rd : RegNum) (s : State) : Host.Outcome State Fault Refusal :=
  hostCommand s fun t =>
    match (s.task t).phase with
    | 0 => .next (tnowPeriod t s)
    | 1 => .next (tnowCounter rd t s)
    | 2 => .fault .noSuchMicroStep
    | 3 => .fault .noSuchMicroStep

/-- TSCHED's critical section for a deadline: insert, and rearm if the deadline is the earliest (43_time.md R232). -/
def State.schedule (s : State) (ts : Word) (t : Nat) : Except BlockFault State :=
  if s.params.queueCap ≤ s.queue.length then .error (.queueFull ts t)
  else
    let inserted := s.setQueue (queueInsert ⟨ts, t⟩ s.queue)
    match queueMin s.queue with
    | none => .ok inserted.rearm
    | some m => if ts.toNat < m.toNat then .ok inserted.rearm else .ok inserted

/-- TSCHED (43_time.md R232). -/
def execTsched (rs : RegNum) (s : State) : Host.Outcome State Fault Refusal :=
  atomicCommand s fun t =>
    match s.readReg t rs with
    | .error f => .error f
    | .ok ts =>
      match s.schedule ts t with
      | .error f => .error f
      | .ok s1 => .ok (s1.advance t 1)

/-- TALARM (43_time.md R233). -/
def execTalarm (rd rs : RegNum) (s : State) : Host.Outcome State Fault Refusal :=
  atomicCommand s fun t =>
    match s.readReg t rs with
    | .error f => .error f
    | .ok ts => .ok (((s.setAlarm ts).setReg t rd (bitWord (s.setAlarmResult ts))).advance t 1)

/-- |QUEUE| as a 64-bit word (43_time.md R231). DESIGN CHOICE (log 15): the rule states no result for a length of 2^64 or
more, which R352 does not exclude, and that value is free. -/
def queueLengthWord (length : Nat) : Word :=
  if length < 2 ^ 64 then BitVec.ofNat 64 length else Config.longQueueLength length

/-- The time register TRD's selector names, zero-extended (43_time.md R231). -/
def State.timeReg (s : State) (sel : BitVec 4) : Option Word :=
  match sel.toNat with
  | 0 => some (s.period.setWidth 64)
  | 1 => some (s.count.setWidth 64)
  | 2 => some (s.compare.setWidth 64)
  | 3 => some (bitWord s.alarmEn)
  | 4 => some (optionWord s.alarmTs)
  | 5 => some (queueLengthWord s.queue.length)
  | 6 => some (bitWord s.tickPend)
  | _ => none

/-- TRD (43_time.md R231). -/
def execTrd (rd : RegNum) (sel : BitVec 4) (s : State) : Host.Outcome State Fault Refusal :=
  atomicCommand s fun t =>
    match s.timeReg sel with
    | none => .error (.badOperand sel)
    | some v => .ok ((s.setReg t rd v).advance t 1)

end Sys2Proof.Machine
end

