-- ==== Sys2Proof/Machine/Waker.lean ====
section
/-! DEFINITION. The waker registry's commands (41_waker.md). -/

namespace Sys2Proof.Machine

/-- WREG (41_waker.md R141). -/
def execWreg (id : BitVec 16) (s : State) : Host.Outcome State Fault Refusal :=
  atomicCommand s fun t =>
    match s.cell id with
    | none => .error (.badCell id)
    | some _ => .ok ((s.setCell id (some t)).advance t 1)

/-- WAKE (41_waker.md R142). -/
def execWake (id : BitVec 16) (s : State) : Host.Outcome State Fault Refusal :=
  atomicCommand s fun t =>
    match s.cell id with
    | none => .error (.badCell id)
    | some _ => .ok ((s.wakeCell id).advance t 1)

/-- SIGNAL (41_waker.md R143). -/
def execSignal (h : BitVec 16) (s : State) : Host.Outcome State Fault Refusal :=
  atomicCommand s fun t =>
    if s.ntasks ≤ signalHandle h then .error (.badHandle (signalHandle h))
    else .ok ((s.ready (signalHandle h)).advance t 1)

end Sys2Proof.Machine
end

