-- ==== Sys2Proof/Machine/Dispatch.lean ====
section
/-! DEFINITION. One arm per command (30_encoding.md R116). -/

namespace Sys2Proof.Machine

/-- One host step of a command: the whole of an atomic command, or the micro-step PHASE names (44_host.md R290). -/
def exec (i : Instr) (s : State) : Host.Outcome State Fault Refusal :=
  match i with
  | .wreg cell => Sys2Proof.Machine.execWreg cell s
  | .wake cell => Sys2Proof.Machine.execWake cell s
  | .signal handle => Sys2Proof.Machine.execSignal handle s
  | .dres ch => Sys2Proof.Machine.execDres ch s
  | .dcfg rd ch dir wc src dst count opts => Sys2Proof.Machine.execDcfg rd ch dir wc src dst count opts s
  | .den ch => Sys2Proof.Machine.execDen ch s
  | .dtrg ch => Sys2Proof.Machine.execDtrg ch s
  | .dpoll rd ch => Sys2Proof.Machine.execDpoll rd ch s
  | .drd rd ch sel => Sys2Proof.Machine.execDrd rd ch sel s
  | .tnow rd => Sys2Proof.Machine.execTnow rd s
  | .tsched rs => Sys2Proof.Machine.execTsched rs s
  | .talarm rd rs => Sys2Proof.Machine.execTalarm rd rs s
  | .trd rd sel => Sys2Proof.Machine.execTrd rd sel s
  | .li rd imm => Sys2Proof.Machine.execLi rd imm s
  | .addi rd rs imm => Sys2Proof.Machine.execAddi rd rs imm s
  | .ld rd wc addr => Sys2Proof.Machine.execLd rd wc addr s
  | .st rs wc addr => Sys2Proof.Machine.execSt rs wc addr s
  | .beq rs imm target => Sys2Proof.Machine.execBeq rs imm target s
  | .bne rs imm target => Sys2Proof.Machine.execBne rs imm target s
  | .jmp target => Sys2Proof.Machine.execJmp target s
  | .yield => Sys2Proof.Machine.execYield s
  | .halt => Sys2Proof.Machine.execHalt s
  | .bltu rs rt target => Sys2Proof.Machine.execBltu rs rt target s

end Sys2Proof.Machine
end

