-- ==== Sys2Proof/WellFormed.lean ====
section
/-! DEFINITION. What is well formed. An `Instr` needs no check: each operand's type has exactly the width of the field or
word that encodes it (30_encoding.md R110, R113, R114), and values a field can hold but a command does not support
are refused when the command executes, never before (R114). A LAUNCH is checked: each constraint of
70_reset_and_hazards.md R352 is one clause below. -/

namespace Sys2Proof

/-- Every byte of the descriptor table has REGION = RAM (70_reset_and_hazards.md R352). -/
def tableInRam (c : Counts) (p : Params) : Bool :=
  (List.range (Config.descSize * c.nch)).all fun i =>
    Machine.regionKind p.regions (p.descBase + i) == .ram

/-- The constraints on the counts: 1 ≤ NCH ≤ 64, 1 ≤ NTASKS ≤ 65536, each cell count at most 4096
(70_reset_and_hazards.md R352). -/
def Counts.admitted (c : Counts) : Bool :=
  decide (1 ≤ c.nch) && decide (c.nch ≤ 64) &&
  decide (1 ≤ c.ntasks) && decide (c.ntasks ≤ 65536) &&
  decide (c.nI2c ≤ 4096) && decide (c.nRng ≤ 4096) &&
  decide (c.nWdt ≤ 4096) && decide (c.nEspi ≤ 4096)

/-- The launch is admitted: every constraint of 70_reset_and_hazards.md R352 holds. -/
def launchAdmitted (c : Counts) (p : Params) : Bool :=
  c.admitted &&
  decide (p.descBase % Config.descAlign = 0) &&
  decide (p.descBase + Config.descSize * c.nch ≤ Config.addrSpace) &&
  decide (1 ≤ p.dmaMaxXfer) &&
  decide (1 ≤ p.queueCap) &&
  decide (1 ≤ p.tickInc) && decide (p.tickInc ≤ 2 ^ 31 - 1) &&
  tableInRam c p

end Sys2Proof
end

