-- ==== Sys2Proof/Machine/Schedule.lean ====
section
/-! DEFINITION. The step of the agent a choice names (00_scope.md R5, 44_host.md R290). -/

namespace Sys2Proof.Machine

/-- Host step: fetch the command at CP and perform it, or take the fetch's fault (44_host.md R290, 30_encoding.md
R117). -/
def State.hostStep (s : State) (t : Nat) : Host.Outcome State Fault Refusal :=
  match s.fetch t with
  | .error f => .next (s.takeFault .host f)
  | .ok i => exec i s

/-- The step of the agent the choice names, where it is enabled. -/
def State.perform (s : State) (c : Choice) : Host.Outcome State Fault Refusal :=
  match c with
  | .host =>
    match s.current with
    | some t => s.hostStep t
    | none => .fault .noRunningTask
  | .start t => .next (s.startTask t)
  | .resume t => .next (s.resumeTask t)
  | .engine ch _ => .next (s.engineStep ch)
  | .dmaShim => .next s.dmaShim
  | .tickSource => .next s.tickSource
  | .tickHandler => .next s.tickHandler

/-- The step a choice leads to: the agent's step where it is enabled, else nothing happens (log 3). -/
def State.agentStep (s : State) (c : Choice) : Host.Outcome State Fault Refusal :=
  if s.enabled c then s.perform c else .next s

/-- Does R352 admit the launch this state comes from? Its counts and parameters are written by no step. -/
def State.admitted (s : State) : Bool := launchAdmitted s.counts s.params

end Sys2Proof.Machine
end

