-- ==== Sys2Proof/Machine/Step.lean ====
section
/-! DEFINITION. One step of the machine, and the placing of a command for the host's check. -/

namespace Sys2Proof.Machine

/-- One step: nothing once FAULT is set (60_exceptions.md R300), no step for a launch R352 refuses, else the step of the
agent the next choice names. -/
def step (s : State) : Host.Outcome State Fault Refusal :=
  match s.fault with
  | some _ => .fault .blockStopped
  | none =>
    if s.admitted then s.dropChoice.agentStep s.nextChoice else .refused .launchNotAdmitted

/-- `s` with the command whose bits are `w` stored at CP of the current task, or of task 0 where no task runs, made the
running task at a command's first step, FAULT clear, and a host step the next choice (log 2). -/
def State.withFetchWord (s : State) (nbits w : Nat) : State := s.placeCommand (tableWords nbits w)

end Sys2Proof.Machine
end

