-- ==== Sys2Proof/Safety.lean ====
section
/-! DEFINITION. The terms claims are made in: which parts of the state a step leaves alone, the premises of a command, the
invariants of the machine, the ends of a run (70_reset_and_hazards.md R371), runs, fairness (R370) and the premise
ONE_WRAP (R363). -/

namespace Sys2Proof.Machine

/-! ### Frames -/

/-- The parts of State a frame names. -/
inductive Part where
  | params | tasks | current | chans | cells | mem | hist
  /-- PERIOD and COUNT -/
  | clock
  /-- COMPARE, ALARM_EN and ALARM_TS -/
  | alarm
  | tickPend | queue | fault
  /-- the model's own scheduling choices -/
  | choices
deriving DecidableEq, Repr

/-- The two states agree on a part. -/
def Part.same (p : Part) (s s' : State) : Prop :=
  match p with
  | .params => s'.params = s.params
  | .tasks => s'.tasks = s.tasks
  | .current => s'.current = s.current
  | .chans => s'.chans = s.chans
  | .cells => s'.i2cCells = s.i2cCells ∧ s'.rngCells = s.rngCells ∧ s'.wdtCells = s.wdtCells ∧
      s'.espiCells = s.espiCells
  | .mem => s'.mem = s.mem
  | .hist => s'.hist = s.hist
  | .clock => s'.period = s.period ∧ s'.count = s.count
  | .alarm => s'.compare = s.compare ∧ s'.alarmEn = s.alarmEn ∧ s'.alarmTs = s.alarmTs
  | .tickPend => s'.tickPend = s.tickPend
  | .queue => s'.queue = s.queue
  | .fault => s'.fault = s.fault
  | .choices => s'.choices = s.choices ∧ s'.choiceIndex = s.choiceIndex

/-- The two states agree on every part not listed. -/
def SameExcept (ps : List Part) (s s' : State) : Prop := ∀ p : Part, p ∉ ps → p.same s s'

/-- The parts of a task. -/
inductive TaskPart where
  | regs | cp | phase | latch | tstate | ready | prog
deriving DecidableEq, Repr

/-- The two task records agree on a part. -/
def TaskPart.same (p : TaskPart) (k k' : Task) : Prop :=
  match p with
  | .regs => k'.regs = k.regs
  | .cp => k'.cp = k.cp
  | .phase => k'.phase = k.phase
  | .latch => k'.latch = k.latch
  | .tstate => k'.tstate = k.tstate
  | .ready => k'.ready = k.ready
  | .prog => k'.prog = k.prog

/-- The two task records agree on every part not listed. -/
def TaskSameExcept (ps : List TaskPart) (k k' : Task) : Prop := ∀ p : TaskPart, p ∉ ps → p.same k k'

/-- The parts of a channel. -/
inductive ChannelPart where
  | res | cfg | enable | inten | active | done | started | xfer | waker
deriving DecidableEq, Repr

/-- The two channel records agree on a part. -/
def ChannelPart.same (p : ChannelPart) (c c' : Channel) : Prop :=
  match p with
  | .res => c'.res = c.res
  | .cfg => c'.cfg = c.cfg
  | .enable => c'.enable = c.enable
  | .inten => c'.inten = c.inten
  | .active => c'.active = c.active
  | .done => c'.done = c.done
  | .started => c'.started = c.started
  | .xfer => c'.xfer = c.xfer
  | .waker => c'.waker = c.waker

/-- The two channel records agree on every part not listed. -/
def ChannelSameExcept (ps : List ChannelPart) (c c' : Channel) : Prop :=
  ∀ p : ChannelPart, p ∉ ps → p.same c c'

/-- There are as many tasks as before, and every task but t is as before. -/
def OtherTasksSame (s s' : State) (t : Nat) : Prop :=
  s'.ntasks = s.ntasks ∧ ∀ u, u ≠ t → s'.task u = s.task u

/-- There are as many channels as before, and every channel but ch is as before. -/
def OtherChansSame (s s' : State) (ch : Nat) : Prop :=
  s'.nch = s.nch ∧ ∀ c, c ≠ ch → s'.chan c = s.chan c

/-- Of the tasks' state, only CP of task t has changed, and it is `cp`. -/
def OnlyCp (s s' : State) (t cp : Nat) : Prop :=
  OtherTasksSame s s' t ∧ TaskSameExcept [.cp] (s.task t) (s'.task t) ∧ (s'.task t).cp = cp

/-- Of the tasks' state, only register rd and CP of task t have changed: rd holds v, written, and CP has moved past a
command of `len` words. -/
def OnlyRegCp (s s' : State) (t : Nat) (rd : RegNum) (v : Word) (len : Nat) : Prop :=
  OtherTasksSame s s' t ∧ TaskSameExcept [.regs, .cp] (s.task t) (s'.task t) ∧
    (s'.task t).reg rd = ⟨v, true⟩ ∧ (∀ r, r ≠ rd → (s'.task t).reg r = (s.task t).reg r) ∧
    (s'.task t).cp = (s.task t).cp + len

/-- Every byte of RAM outside the n bytes from a reads as before. -/
def BytesSameOutside (s s' : State) (a n : Nat) : Prop :=
  ∀ b, (b < a ∨ a + n ≤ b) → s'.mem.read b = s.mem.read b

/-- The entries of the queue that expire at time n are gone, the others are left, and of the tasks' state only the READY
bits of the tasks of those that are gone are newly set (43_time.md R222, POP_EXPIRED). -/
def PoppedExpired (s s' : State) (n : Nat) : Prop :=
  s'.queue.Perm (s.queue.filter fun e => decide (n < e.ts.toNat)) ∧
    ∀ u, u < s.ntasks → TaskSameExcept [.ready] (s.task u) (s'.task u) ∧
      ((s'.task u).ready = true ↔ (s.task u).ready = true ∨
        ∃ e ∈ s.queue, e.handle = u ∧ e.ts.toNat ≤ n)

/-! ### Premises of a command -/

/-- Task t runs and stands at the first step of a command (44_host.md R290). -/
abbrev HostReady (s : State) (t : Nat) : Prop :=
  s.fault = none ∧ s.current = some t ∧ t < s.ntasks ∧ (s.task t).phase = 0

/-- Task t runs and stands at micro-step p + 1 of a command (44_host.md R290). -/
abbrev HostAtPhase (s : State) (t : Nat) (p : Fin 4) : Prop :=
  s.fault = none ∧ s.current = some t ∧ t < s.ntasks ∧ (s.task t).phase = p

/-- Register r of task t has been written and holds v (10_state.md R31). -/
abbrev RegHolds (s : State) (t : Nat) (r : RegNum) (v : Word) : Prop := (s.task t).reg r = ⟨v, true⟩

/-- Register r of task t has never been written (10_state.md R31). -/
abbrev RegUnwritten (s : State) (t : Nat) (r : RegNum) : Prop := ((s.task t).reg r).written = false

/-- Every one of the n bytes from a is of the kind. -/
abbrev AllKind (s : State) (a n : Nat) (k : RegionKind) : Prop :=
  ∀ i, i < n → regionKind s.params.regions (a + i) = k

/-- Task t owns channel ch, which exists (42_dma.md R161). -/
abbrev Owns (s : State) (t ch : Nat) : Prop := ch < s.nch ∧ (s.chan ch).res = some t

/-- A host step that raises f: nothing of the state changes but FAULT, which records f, HOST, task t and its CP
(60_exceptions.md R300). -/
def hostFaults (s : State) (t : Nat) (f : BlockFault) : Host.Outcome State Fault Refusal :=
  .next { s with
    fault := some { fault := f, agent := .host, task := some t, cp := some (s.task t).cp } }

/-! ### Invariants -/

/-- RAM is in its canonical form. -/
abbrev State.MemOk (s : State) : Prop := s.mem.wf = true

/-- COUNT[31] = PERIOD[0] (10_state.md R62). -/
abbrev State.ParityOk (s : State) : Prop := s.count.extractLsb' 31 1 = s.period.extractLsb' 0 1

/-- At most one task is RUNNING, and CURRENT names it (10_state.md R33); an INIT task stands at its first command, CP 0
and PHASE 0 (44_host.md R291). -/
def State.CurrentOk (s : State) : Prop :=
  (∀ t, s.current = some t → t < s.ntasks) ∧
    ∀ t, t < s.ntasks →
      ((s.task t).tstate = .running ↔ s.current = some t) ∧
        ((s.task t).tstate = .init → (s.task t).cp = 0 ∧ (s.task t).phase = 0)

/-- The flags of a channel fit its transfer: STARTED exactly when a transfer is in flight or complete, never both; a
started channel whose INTEN is clear is complete; XREM counts exactly while the transfer is in flight and never
exceeds the count; a configuration awaiting its trigger is legal and its channel not started (10_state.md R43 to R45,
42_dma.md R192, R196). -/
abbrev ChannelOk (maxXfer : Nat) (c : Channel) : Prop :=
  (c.started = (c.active || c.done)) ∧ (c.active = true → c.done = false) ∧
    (c.started = true → c.inten = false → c.done = true) ∧
    (c.active = true ↔ 0 < c.xfer.rem) ∧ (c.active = true → c.xfer.rem ≤ c.xfer.count.toNat) ∧
    (c.cfg.valid = true →
      c.started = false ∧ c.cfg.dir ≠ 3 ∧ c.cfg.wcode ≠ 3 ∧ 1 ≤ c.cfg.count.toNat ∧
        c.cfg.count.toNat ≤ maxXfer ∧ c.cfg.opts = 0 ∧ c.cfg.srcInc = srcAdvances c.cfg.dir ∧
        c.cfg.dstInc = dstAdvances c.cfg.dir)

/-- Every channel's flags fit its transfer. -/
abbrev State.ChannelsOk (s : State) : Prop := ∀ c ∈ s.chans, ChannelOk s.params.dmaMaxXfer c

/-- Every handle the machine holds names a task: in a cell, in the queue, as a channel's owner (41_waker.md R140). -/
def State.HandlesOk (s : State) : Prop :=
  (∀ c ∈ s.chans, ∀ h, (c.waker = some h ∨ c.res = some h) → h < s.ntasks) ∧
    (∀ x ∈ s.i2cCells ++ s.rngCells ++ s.wdtCells ++ s.espiCells, ∀ h, x = some h → h < s.ntasks) ∧
    ∀ e ∈ s.queue, e.handle < s.ntasks

/-- The queue holds at most QCAP entries (10_state.md R63), in its canonical order. -/
abbrev State.QueueOk (s : State) : Prop :=
  s.queue.length ≤ s.params.queueCap ∧ s.queue.Pairwise fun e f => e.le f = true

/-- A command part-way through is the running task's DPOLL of a triggered channel it owns, or its TNOW after its first
micro-step (10_state.md R35). -/
def State.PhaseOk (s : State) : Prop :=
  ∀ t, t < s.ntasks → (s.task t).phase ≠ 0 →
    s.current = some t ∧
      ((∃ rd ch, s.fetch t = .ok (.dpoll rd ch) ∧ Owns s t ch.toNat ∧
          (s.chan ch.toNat).started = true) ∨
        (∃ rd, s.fetch t = .ok (.tnow rd) ∧ (s.task t).phase = 1))

/-- The alarm is armed for the earliest deadline, or nothing is queued and it is disarmed (43_time.md R244). -/
def State.AlarmOk (s : State) : Prop :=
  match queueMin s.queue with
  | none => s.alarmTs = none ∧ s.alarmEn = false
  | some m => s.alarmTs = some m ∧ (s.beforeWrap m = true → s.alarmEn = true)

/-- The invariant of the machine. -/
def State.Inv (s : State) : Prop :=
  s.MemOk ∧ s.ParityOk ∧ s.CurrentOk ∧ s.ChannelsOk ∧ s.HandlesOk ∧ s.QueueOk ∧ s.PhaseOk

/-! ### The ends of a run (70_reset_and_hazards.md R371) -/

/-- What a run has come to. -/
inductive RunEnd where
  | fault | done | stuck | running
deriving DecidableEq, Repr

/-- A task that no step of the executor can start or resume as it stands, and that does not run. -/
def Task.asleep (k : Task) : Bool :=
  decide (k.tstate = .halted) || (decide (k.tstate = .suspended) && !k.ready)

/-- Every task is HALTED and no channel is ACTIVE. -/
def State.isDone (s : State) : Bool :=
  s.tasks.all (fun k => decide (k.tstate = .halted)) && s.chans.all fun c => !c.active

/-- No task runs or can be started or resumed, some task is not HALTED, and no step can ready one: no channel is ACTIVE,
DMA_IRQ = 0, QUEUE is empty. -/
def State.isStuck (s : State) : Bool :=
  s.current.isNone && s.tasks.all Task.asleep &&
    s.tasks.any (fun k => decide (k.tstate ≠ .halted)) && s.chans.all (fun c => !c.active) &&
    !s.dmaIrq && s.queue.isEmpty

/-- The end a state reports (70_reset_and_hazards.md R371). -/
def State.runEnd (s : State) : RunEnd :=
  if s.fault.isSome then .fault
  else if s.isDone then .done
  else if s.isStuck then .stuck
  else .running

/-- What a done run reports: every state component of 10_state.md but PERIOD, COUNT and TICK_PEND
(70_reset_and_hazards.md R371). -/
structure Observation where
  tasks     : List Task
  current   : Option Nat
  chans     : List Channel
  i2cCells  : List (Option Handle)
  rngCells  : List (Option Handle)
  wdtCells  : List (Option Handle)
  espiCells : List (Option Handle)
  mem       : Memory
  compare   : BitVec 31
  alarmEn   : Bool
  alarmTs   : Option Word
  queue     : List QueueEntry
  fault     : Option FaultRecord
deriving DecidableEq, Repr

/-- The observation of a done run that has come to this state (70_reset_and_hazards.md R371). -/
def State.observation (s : State) : Observation where
  tasks := s.tasks
  current := s.current
  chans := s.chans
  i2cCells := s.i2cCells
  rngCells := s.rngCells
  wdtCells := s.wdtCells
  espiCells := s.espiCells
  mem := s.mem
  compare := s.compare
  alarmEn := s.alarmEn
  alarmTs := s.alarmTs
  queue := s.queue
  fault := s.fault

/-! ### Launches, runs, fairness -/

/-- The launch is admitted (70_reset_and_hazards.md R352) and its RAM contents are in canonical form. -/
def Launch.Admitted (l : Launch) : Prop := (State.launch l).admitted = true ∧ l.ram.wf = true

/-- No preset registers (70_reset_and_hazards.md R353). -/
def Launch.Clean (l : Launch) : Prop :=
  ∀ k ∈ l.tasks, ∀ r : RegNum, (k.reg r).written = false

/-- An infinite run: each state's step gives the next. -/
def IsRun (run : Nat → State) : Prop := ∀ k, step (run k) = .next (run (k + 1))

/-- The run diverges: it never reaches fault, done or stuck (70_reset_and_hazards.md R371). -/
def Diverges (run : Nat → State) : Prop := IsRun run ∧ ∀ k, (run k).runEnd = .running

/-- Weak fairness for a step: again and again it is not enabled or it is taken. -/
def WeaklyFair (run : Nat → State) (c : Choice) : Prop :=
  ∀ k, ∃ j, k ≤ j ∧ ((run j).enabled c = false ∨ (run j).nextChoice = c)

/-- Weak fairness for the engine step of a channel whose transfer needs no grant. -/
def EngineFair (run : Nat → State) (ch : Nat) : Prop :=
  ∀ k, ∃ j, k ≤ j ∧ ((run j).enabled (.engine ch false) = false ∨
    ∃ granted, (run j).nextChoice = .engine ch granted)

/-- The fairness every infinite run the model admits has (70_reset_and_hazards.md R370). -/
def FairRun (run : Nat → State) : Prop :=
  WeaklyFair run .host ∧ (∀ t, WeaklyFair run (.start t)) ∧ (∀ t, WeaklyFair run (.resume t)) ∧
    (∀ ch, EngineFair run ch) ∧ WeaklyFair run .dmaShim ∧ WeaklyFair run .tickHandler ∧
    WeaklyFair run .tickSource

/-- The next step of the run is a tick handler step that wraps the sub-counter (43_time.md R241). -/
def State.wraps (s : State) : Bool :=
  decide (s.nextChoice = .tickHandler) && s.enabled .tickHandler &&
    decide (periodLength ≤ s.subCount + s.params.tickInc)

/-- How many of the steps i .. j−1 of the run are wrapping tick handler steps. -/
def wrapsBetween (run : Nat → State) (i j : Nat) : Nat :=
  ((List.range (j - i)).filter fun d => (run (i + d)).wraps).length

/-- ONE_WRAP: at most one wrapping tick handler step falls inside any one TNOW, that is, while a task stands between the
two micro-steps of a TNOW (70_reset_and_hazards.md R363). -/
def OneWrap (run : Nat → State) : Prop :=
  ∀ i j t rd, i ≤ j → (∀ k, i ≤ k → k < j →
      ((run k).task t).phase = 1 ∧ (run k).fetch t = .ok (.tnow rd)) →
    wrapsBetween run i j ≤ 1

end Sys2Proof.Machine
end

