-- ==== Sys2Proof/Certificates/Slice0/Obligations.lean ====
section
/-! DEFINITION. The statements for the provers. A statement that quantifies over every state holds of every launch, since
the launch parameters are fields of State; a value that Config leaves free is not assumed anywhere. -/

open Sys2Proof Sys2Proof.Machine

/-! ### Encoding, fetch and step -/

/-- R110, R113, R114, R116: every command, with every operand at every value, decodes back from its words, and the words
after it are left. -/
def Obligations.DecodeOfEncode : Prop :=
  ∀ (i : Instr) (rest : List Word32), decode (encode i ++ rest) = .ok (i, rest)

/-- R111, R116, R117: whatever decodes is exactly the words of the command it decodes to; no bit is dropped. -/
def Obligations.EncodeOfDecode : Prop :=
  ∀ (ws rest : List Word32) (i : Instr), decode ws = .ok (i, rest) → encode i ++ rest = ws

/-- 95_test_vectors.md: words written out in the spec decode to the commands it names. -/
def Obligations.SampleWordsDecode : Prop :=
  decode [0x01001000] = .ok (.wreg 0x1000, []) ∧
  decode [0x11300200, 0x20001000, 0x20002000, 2, 0] =
    .ok (.dcfg 3 0 0 2 0x20001000 0x20002000 2 0, []) ∧
  decode [0x157000C0] = .ok (.drd 7 0 3, []) ∧
  decode [0x22520000] = .ok (.talarm 5 2, []) ∧
  decode [0x30100000, 0x11223344, 0] = .ok (.li 1 0x11223344, []) ∧
  decode [0x39230000, 2] = .ok (.bltu 3 2 2, [])

/-- R117, R118: no header selects two rows; a header whose OP byte is not in the opcode map begins no command; a header
that begins no command is illegal. -/
def Obligations.IllegalHeadersRefused : Prop :=
  (opcodeMap.Pairwise fun r q => ∀ h, ¬ (r.selects h = true ∧ q.selects h = true)) ∧
  (∀ h : Word32,
    h.extractLsb' 24 8 ∉ ([0x01, 0x02, 0x03, 0x10, 0x11, 0x12, 0x13, 0x14, 0x15, 0x20, 0x21, 0x22,
      0x23, 0x30, 0x31, 0x32, 0x33, 0x34, 0x35, 0x36, 0x37, 0x38, 0x39] : List (BitVec 8)) →
    ∀ i : Instr, (encode i).head? ≠ some h) ∧
  (∀ (h : Word32) (rest : List Word32), (∀ i : Instr, (encode i).head? ≠ some h) →
    decode (h :: rest) = .error (.illegalHeader h))

/-- R117: the fetch at CP, case by case: past the stream, an illegal header, a command cut short by the end of the
stream, a command. -/
def Obligations.FetchAtCp : Prop :=
  ∀ (s : State) (t : Nat),
    ((s.task t).prog.length ≤ (s.task t).cp → s.fetch t = .error (.cpRange t (s.task t).cp)) ∧
    (∀ h, (s.task t).prog[(s.task t).cp]? = some h → (∀ i : Instr, (encode i).head? ≠ some h) →
      s.fetch t = .error (.illegalCmd t (s.task t).cp h)) ∧
    (∀ h (i : Instr), (s.task t).prog[(s.task t).cp]? = some h → (encode i).head? = some h →
      (s.task t).prog.length < (s.task t).cp + commandLength i →
      s.fetch t = .error (.cpRange t (s.task t).cp)) ∧
    (∀ i : Instr, encode i <+: (s.task t).prog.drop (s.task t).cp → s.fetch t = .ok i)

/-- R290: where the next choice is the host's and a task runs, the step is exec of the command fetched at its CP, on the
state with the choice taken; or the entry of the fetch's fault. Taking the choice changes nothing else; the choices are
the model's own (log 3). -/
def Obligations.StepRunsDecodedCommand : Prop :=
  ∀ (s : State) (t : Nat), s.fault = none → s.admitted = true → s.nextChoice = .host →
    s.current = some t →
    SameExcept [.choices] s s.dropChoice ∧
    (∀ i, s.fetch t = .ok i → step s = exec i s.dropChoice) ∧
    (∀ f, s.fetch t = .error f → step s = hostFaults s.dropChoice t f)

/-- R65, R300 item 3: once FAULT is set no agent has an enabled step, no command runs, and the machine has no next
state. -/
def Obligations.NoStepOnceFaulted : Prop :=
  ∀ s : State, s.fault ≠ none →
    step s = .fault .blockStopped ∧ (∀ i, exec i s = .fault .blockStopped) ∧
      ∀ c, s.enabled c = false

/-- R300 items 1 and 2: a step that ends in a fault makes none of its writes; FAULT names CURRENT and its CP for the
host and neither for another agent. -/
def Obligations.FaultingStepWritesNothing : Prop :=
  ∀ (s s' : State) (r : FaultRecord), step s = .next s' → s'.fault = some r →
    s' = { s.dropChoice with fault := some r } ∧
    (r.agent = .host → r.task = s.current ∧ r.cp = s.current.map fun t => (s.task t).cp) ∧
    (r.agent ≠ .host → r.task = none ∧ r.cp = none)

/-- R302, R309: the shim, the tick handler, the tick source and the executor raise no fault; an engine step raises only
F_BUS, with agent ENG(ch). -/
def Obligations.OnlyBusFaultsOutsideHost : Prop :=
  ∀ s s' : State, step s = .next s' →
    (∀ c, s.nextChoice = c →
      (c = .dmaShim ∨ c = .tickHandler ∨ c = .tickSource ∨ (∃ t, c = .start t) ∨
        (∃ t, c = .resume t)) → s'.fault = none) ∧
    (∀ ch g r, s.nextChoice = .engine ch g → s'.fault = some r →
      r.agent = .engine ch ∧ ∃ a n, r.fault = .bus (.engine ch) a n)

/-! ### Reset and invariants -/

/-- R70: the specified reset values, under every launch; the registers are those the launch presets (R352). That HIST is
empty is the model's reading (log 6): R70 does not list it. -/
def Obligations.ResetValues : Prop :=
  ∀ l : Launch,
    (State.launch l).current = none ∧ (State.launch l).fault = none ∧
    (State.launch l).period = 0 ∧ (State.launch l).count = 0 ∧ (State.launch l).compare = 0 ∧
    (State.launch l).alarmEn = false ∧ (State.launch l).alarmTs = none ∧
    (State.launch l).tickPend = false ∧ (State.launch l).queue = [] ∧
    (State.launch l).hist = [] ∧ (State.launch l).dmaIrq = false ∧
    (∀ k ∈ (State.launch l).tasks, k.cp = 0 ∧ k.phase = 0 ∧ k.tstate = .init ∧ k.ready = false) ∧
    (l.Clean → ∀ k ∈ (State.launch l).tasks, ∀ r, (k.reg r).written = false) ∧
    (∀ c ∈ (State.launch l).chans, c.res = none ∧ c.cfg.valid = false ∧ c.enable = false ∧
      c.inten = false ∧ c.active = false ∧ c.done = false ∧ c.started = false ∧ c.xfer.rem = 0) ∧
    (∀ id v, (State.launch l).cell id = some v → v = none)

/-- Every admitted launch (R352) meets the invariant of the machine and the alarm invariant of R244. -/
def Obligations.LaunchMeetsInvariant : Prop :=
  ∀ l : Launch, l.Admitted → (State.launch l).Inv ∧ (State.launch l).AlarmOk

/-- Every step keeps RAM in its canonical form, which is the model's (log 4). -/
def Obligations.StepKeepsMemoryForm : Prop :=
  ∀ s s' : State, s.MemOk → step s = .next s' → s'.MemOk

/-- R62: every step keeps COUNT[31] = PERIOD[0]. -/
def Obligations.StepKeepsParity : Prop :=
  ∀ s s' : State, s.ParityOk → step s = .next s' → s'.ParityOk

/-- R33, R291: every step keeps at most one task RUNNING, the one CURRENT names, and every INIT task at CP 0 and
PHASE 0. -/
def Obligations.StepKeepsCurrent : Prop :=
  ∀ s s' : State, s.CurrentOk → step s = .next s' → s'.CurrentOk

/-- R43 to R45, R192: every step keeps each channel's flags fitting its transfer. -/
def Obligations.StepKeepsChannelFlags : Prop :=
  ∀ s s' : State, s.ChannelsOk → step s = .next s' → s'.ChannelsOk

/-- R63, R140: every step keeps every handle the machine holds a task's, and the queue within QCAP and in the model's
order (log 7). -/
def Obligations.StepKeepsHandlesAndQueue : Prop :=
  ∀ s s' : State, s.HandlesOk → s.QueueOk → step s = .next s' → s'.HandlesOk ∧ s'.QueueOk

/-- R35: every step keeps a command part-way through the running task's DPOLL or TNOW. -/
def Obligations.StepKeepsPhase : Prop :=
  ∀ s s' : State, s.PhaseOk → step s = .next s' → s'.PhaseOk

/-- R196: a DPOLL that completes with Ready leaves its channel's transfer complete. -/
def Obligations.ReadyMeansComplete : Prop :=
  ∀ (s s' : State) (t : Nat) (rd : RegNum) (ch : BitVec 6),
    s.ChannelsOk → s.PhaseOk → t < s.ntasks → s.nextChoice = .host → s.current = some t →
    s.fetch t = .ok (.dpoll rd ch) → step s = .next s' → s'.fault = none →
    (s'.task t).phase = 0 → RegHolds s' t rd 1 →
    (s'.chan ch.toNat).active = false ∧ (s'.chan ch.toNat).done = true ∧
      (s'.chan ch.toNat).xfer.rem = 0

/-- R42, R97, R144 item 4, R352: no step changes a launch parameter, a count, a program or the owner of a reserved
channel. -/
def Obligations.FixedForTheRun : Prop :=
  ∀ s s' : State, step s = .next s' →
    s'.params = s.params ∧ s'.counts = s.counts ∧ (∀ t, (s'.task t).prog = (s.task t).prog) ∧
      ∀ ch o, (s.chan ch).res = some o → (s'.chan ch).res = some o

/-- R30, R89, R242, R97: only a host step writes registers, and only the current task's; HIST only grows, by an engine
step or an LD or ST of PERIPH; only the tick handler moves the clock; only the engine, ST and DCFG change RAM. -/
def Obligations.OnlyNamedWriters : Prop :=
  ∀ s s' : State, step s = .next s' →
    (∀ t, (s.nextChoice ≠ .host ∨ s.current ≠ some t) → (s'.task t).regs = (s.task t).regs) ∧
    (∃ es, s'.hist = s.hist ++ es) ∧
    (s'.hist ≠ s.hist →
      (∃ ch g, s.nextChoice = .engine ch g) ∨
      (s.nextChoice = .host ∧ ∃ t wc a, s.current = some t ∧
        ((∃ rd, s.fetch t = .ok (.ld rd wc a)) ∨ ∃ rs, s.fetch t = .ok (.st rs wc a)) ∧
        AllKind s a.toNat (2 ^ wc.toNat) .periph)) ∧
    (s.nextChoice ≠ .tickHandler → s'.period = s.period ∧ s'.count = s.count) ∧
    ((∀ ch g, s.nextChoice ≠ .engine ch g) →
      (s.nextChoice = .host → ∀ t i, s.current = some t → s.fetch t = .ok i →
        (∀ rs wc a, i ≠ .st rs wc a) ∧
          ∀ rd ch dir wc src dst count opts, i ≠ .dcfg rd ch dir wc src dst count opts) →
      s'.mem = s.mem)

/-! ### Waker registry -/

/-- R41: which cell ids are valid; WREG and WAKE of an invalid one raise F_BAD_CELL, SIGNAL of no task's handle
F_BAD_HANDLE. -/
def Obligations.CellIdsAndHandlesChecked : Prop :=
  ∀ (s : State) (id : BitVec 16),
    ((s.cell id).isSome = true ↔
      (id.toNat / 4096 = 0 ∧ id.toNat % 4096 < s.nch) ∨
      (id.toNat / 4096 = 1 ∧ id.toNat % 4096 < s.i2cCells.length) ∨
      (id.toNat / 4096 = 2 ∧ id.toNat % 4096 < s.rngCells.length) ∨
      (id.toNat / 4096 = 3 ∧ id.toNat % 4096 < s.wdtCells.length) ∨
      (id.toNat / 4096 = 4 ∧ id.toNat % 4096 < s.espiCells.length)) ∧
    ∀ t, HostReady s t →
      (s.cell id = none → exec (.wreg id) s = hostFaults s t (.badCell id) ∧
        exec (.wake id) s = hostFaults s t (.badCell id)) ∧
      (s.ntasks ≤ id.toNat → exec (.signal id) s = hostFaults s t (.badHandle id.toNat))

/-- R141: WREG stores the task in the cell, whatever it held, and readies nobody. -/
def Obligations.WregStoresTask : Prop :=
  ∀ (s : State) (t : Nat) (id : BitVec 16), HostReady s t → s.cell id ≠ none →
    ∃ s', exec (.wreg id) s = .next s' ∧ SameExcept [.tasks, .chans, .cells] s s' ∧
      s'.cell id = some (some t) ∧ (∀ j, j ≠ id → s'.cell j = s.cell j) ∧
      s'.counts = s.counts ∧ (∀ c, ChannelSameExcept [.waker] (s.chan c) (s'.chan c)) ∧
      OnlyCp s s' t ((s.task t).cp + 1)

/-- R142: WAKE empties the cell and readies the task it held, if any. -/
def Obligations.WakeTakesHandle : Prop :=
  ∀ (s : State) (t : Nat) (id : BitVec 16) (old : Option Handle), HostReady s t →
    s.cell id = some old →
    ∃ s', exec (.wake id) s = .next s' ∧ SameExcept [.tasks, .chans, .cells] s s' ∧
      s'.cell id = some none ∧ (∀ j, j ≠ id → s'.cell j = s.cell j) ∧
      s'.counts = s.counts ∧ (∀ c, ChannelSameExcept [.waker] (s.chan c) (s'.chan c)) ∧
      ∀ u, u < s.ntasks → TaskSameExcept [.cp, .ready] (s.task u) (s'.task u) ∧
        (s'.task u).cp = (if u = t then (s.task u).cp + 1 else (s.task u).cp) ∧
        ((s'.task u).ready = true ↔ (s.task u).ready = true ∨ old = some u)

/-- R140, R143: SIGNAL readies the task and touches no cell. -/
def Obligations.SignalReadiesTask : Prop :=
  ∀ (s : State) (t : Nat) (h : BitVec 16), HostReady s t → h.toNat < s.ntasks →
    ∃ s', exec (.signal h) s = .next s' ∧ SameExcept [.tasks] s s' ∧ s'.ntasks = s.ntasks ∧
      ∀ u, u < s.ntasks → TaskSameExcept [.cp, .ready] (s.task u) (s'.task u) ∧
        (s'.task u).cp = (if u = t then (s.task u).cp + 1 else (s.task u).cp) ∧
        ((s'.task u).ready = true ↔ (s.task u).ready = true ∨ u = h.toNat)

/-! ### DMA channel commands -/

/-- R160: DRES of an unreserved channel makes the task its owner; of no channel, it raises F_BAD_CHANNEL. -/
def Obligations.DresReserves : Prop :=
  ∀ (s : State) (t : Nat) (ch : BitVec 6), HostReady s t →
    (s.nch ≤ ch.toNat → exec (.dres ch) s = hostFaults s t (.badChannel ch.toNat)) ∧
    (ch.toNat < s.nch → (s.chan ch.toNat).res = none →
      ∃ s', exec (.dres ch) s = .next s' ∧ SameExcept [.tasks, .chans] s s' ∧
        OnlyCp s s' t ((s.task t).cp + 1) ∧ OtherChansSame s s' ch.toNat ∧
        ChannelSameExcept [.res] (s.chan ch.toNat) (s'.chan ch.toNat) ∧
        (s'.chan ch.toNat).res = some t)

/-- R198: a DRES of a reserved channel always raises F_DOUBLE_RESERVE and changes nothing else. -/
def Obligations.DoubleReserveFaults : Prop :=
  ∀ (s : State) (t o : Nat) (ch : BitVec 6), HostReady s t → ch.toNat < s.nch →
    (s.chan ch.toNat).res = some o →
    exec (.dres ch) s = hostFaults s t (.doubleReserve ch.toNat (some o)) ∧
      ∀ s', exec (.dres ch) s = .next s' → ∀ c, (s'.chan c).res = (s.chan c).res

/-- R170, R176, R197: a DCFG that passes its checks writes the four descriptor words, the end addresses among them, the
configuration and status 0, and no other byte. -/
def Obligations.DcfgConfigures : Prop :=
  ∀ (s : State) (t : Nat) (rd : RegNum) (ch : BitVec 6) (dir wc : BitVec 2)
    (src dst count : Word32) (w se de d : Nat),
    HostReady s t → s.MemOk → Owns s t ch.toNat → (s.chan ch.toNat).active = false →
    dir ≠ 3 → wc ≠ 3 → 1 ≤ count.toNat → count.toNat ≤ s.params.dmaMaxXfer →
    w = 2 ^ wc.toNat →
    se = (if dir = 2 then src.toNat else src.toNat + (count.toNat - 1) * w) →
    de = (if dir = 1 then dst.toNat else dst.toNat + (count.toNat - 1) * w) →
    src.toNat % w = 0 → dst.toNat % w = 0 → se + w ≤ 2 ^ 32 → de + w ≤ 2 ^ 32 →
    d = s.params.descBase + 16 * ch.toNat → AllKind s d 16 .ram →
    ∃ s', exec (.dcfg rd ch dir wc src dst count 0) s = .next s' ∧
      SameExcept [.tasks, .chans, .mem] s s' ∧ OnlyRegCp s s' t rd 0 5 ∧
      OtherChansSame s s' ch.toNat ∧
      ChannelSameExcept [.cfg, .done, .started] (s.chan ch.toNat) (s'.chan ch.toNat) ∧
      (s'.chan ch.toNat).cfg = ⟨true, dir, wc, decide (dir ≠ 2), decide (dir ≠ 1), count, 0⟩ ∧
      (s'.chan ch.toNat).done = false ∧ (s'.chan ch.toNat).started = false ∧
      memRead s'.mem d 4 = 0 ∧ memRead s'.mem (d + 4) 4 = se ∧ memRead s'.mem (d + 8) 4 = de ∧
      memRead s'.mem (d + 12) 4 = 0 ∧ BytesSameOutside s s' d 16

/-- R171, R177: DCFG's checks in their order, the first that applies deciding: faults that write nothing, typed errors
that write x[rd] and CP only, status 0 where none applies. Where both sides wrap, either base may be named. -/
def Obligations.DcfgRefusals : Prop :=
  ∀ (s : State) (t : Nat) (rd : RegNum) (ch : BitVec 6) (dir wc : BitVec 2)
    (src dst count opts : Word32) (w se de : Nat) (r : Host.Outcome State Fault Refusal),
    HostReady s t → w = 2 ^ wc.toNat →
    se = (if dir = 2 then src.toNat else src.toNat + (count.toNat - 1) * w) →
    de = (if dir = 1 then dst.toNat else dst.toNat + (count.toNat - 1) * w) →
    r = exec (.dcfg rd ch dir wc src dst count opts) s →
    (if s.nch ≤ ch.toNat then r = hostFaults s t (.badChannel ch.toNat)
    else if (s.chan ch.toNat).res ≠ some t then r = hostFaults s t (.notOwner ch.toNat t)
    else if (s.chan ch.toNat).active = true then r = hostFaults s t (.channelBusy ch.toNat)
    else if dir = 3 then ∃ s', r = .next s' ∧ SameExcept [.tasks] s s' ∧ OnlyRegCp s s' t rd 1 5
    else if wc = 3 then ∃ s', r = .next s' ∧ SameExcept [.tasks] s s' ∧ OnlyRegCp s s' t rd 2 5
    else if count = 0 ∨ s.params.dmaMaxXfer < count.toNat then
      ∃ s', r = .next s' ∧ SameExcept [.tasks] s s' ∧ OnlyRegCp s s' t rd 3 5
    else if opts ≠ 0 then r = hostFaults s t (.unmodelledOption ch.toNat opts)
    else if src.toNat % w ≠ 0 ∨ dst.toNat % w ≠ 0 then
      r = hostFaults s t (.misalignedTransfer ch.toNat src.toNat dst.toNat w)
    else if 2 ^ 32 < se + w ∨ 2 ^ 32 < de + w then
      ∃ base, (base = src.toNat ∧ 2 ^ 32 < se + w ∨ base = dst.toNat ∧ 2 ^ 32 < de + w) ∧
        r = hostFaults s t (.addrWrapTransfer ch.toNat base count.toNat w)
    else AllKind s (s.params.descBase + 16 * ch.toNat) 16 .ram → ∃ s', r = .next s' ∧
      s'.fault = none ∧ RegHolds s' t rd 0) ∧
    ∀ s' f, r = .next s' → s'.fault = some f → s' = { s with fault := some f }

/-- R178: DEN sets ENABLE and INTEN of a channel the task owns. -/
def Obligations.DenEnables : Prop :=
  ∀ (s : State) (t : Nat) (ch : BitVec 6), HostReady s t → Owns s t ch.toNat →
    ∃ s', exec (.den ch) s = .next s' ∧ SameExcept [.tasks, .chans] s s' ∧
      OnlyCp s s' t ((s.task t).cp + 1) ∧ OtherChansSame s s' ch.toNat ∧
      ChannelSameExcept [.enable, .inten] (s.chan ch.toNat) (s'.chan ch.toNat) ∧
      (s'.chan ch.toNat).enable = true ∧ (s'.chan ch.toNat).inten = true

/-- R161: DCFG, DEN, DTRG and DPOLL of no channel raise F_BAD_CHANNEL, and of a channel the task does not own
F_NOT_OWNER, an unreserved one included. -/
def Obligations.OwnerChecked : Prop :=
  ∀ (s : State) (t : Nat) (ch : BitVec 6) (i : Instr), HostReady s t →
    ((∃ rd dir wc src dst count opts, i = .dcfg rd ch dir wc src dst count opts) ∨ i = .den ch ∨
      i = .dtrg ch ∨ ∃ rd, i = .dpoll rd ch) →
    (s.nch ≤ ch.toNat → exec i s = hostFaults s t (.badChannel ch.toNat)) ∧
    (ch.toNat < s.nch → (s.chan ch.toNat).res ≠ some t →
      exec i s = hostFaults s t (.notOwner ch.toNat t))

/-- R179: a DTRG that passes its checks latches the transfer the descriptor in memory gives, consumes VALID and starts
the channel. -/
def Obligations.DtrgTriggers : Prop :=
  ∀ (s : State) (t : Nat) (ch : BitVec 6) (g : ChannelConfig) (w n d se de : Nat),
    HostReady s t → Owns s t ch.toNat → (s.chan ch.toNat).active = false →
    g = (s.chan ch.toNat).cfg → g.valid = true → (s.chan ch.toNat).enable = true →
    (s.chan ch.toNat).inten = true → w = 2 ^ g.wcode.toNat → n = g.count.toNat →
    d = s.params.descBase + 16 * ch.toNat → AllKind s (d + 4) 12 .ram →
    se = memRead s.mem (d + 4) 4 → de = memRead s.mem (d + 8) 4 →
    memRead s.mem (d + 12) 4 = 0 → se % w = 0 → de % w = 0 →
    (g.srcInc = true → (n - 1) * w ≤ se) → (g.dstInc = true → (n - 1) * w ≤ de) →
    se + w ≤ 2 ^ 32 → de + w ≤ 2 ^ 32 →
    s.raceFault ch.toNat (byteRange se n w g.srcInc) (byteRange de n w g.dstInc) = none →
    ∃ s', exec (.dtrg ch) s = .next s' ∧ SameExcept [.tasks, .chans] s s' ∧
      OnlyCp s s' t ((s.task t).cp + 1) ∧ OtherChansSame s s' ch.toNat ∧
      ChannelSameExcept [.cfg, .active, .started, .xfer] (s.chan ch.toNat) (s'.chan ch.toNat) ∧
      (s'.chan ch.toNat).cfg = { g with valid := false } ∧
      (s'.chan ch.toNat).active = true ∧ (s'.chan ch.toNat).started = true ∧
      (s'.chan ch.toNat).xfer =
        ⟨n, BitVec.ofNat 32 se, BitVec.ofNat 32 de, w, g.srcInc, g.dstInc, g.dir, g.count⟩

/-- R179: DTRG's refusals in their order, after the channel and owner checks. -/
def Obligations.DtrgRefusals : Prop :=
  ∀ (s : State) (t : Nat) (ch : BitVec 6) (c : Channel) (w n d se de lk : Nat)
    (r : Host.Outcome State Fault Refusal),
    HostReady s t → Owns s t ch.toNat → c = s.chan ch.toNat → w = 2 ^ c.cfg.wcode.toNat →
    n = c.cfg.count.toNat → d = s.params.descBase + 16 * ch.toNat → AllKind s (d + 4) 12 .ram →
    se = memRead s.mem (d + 4) 4 → de = memRead s.mem (d + 8) 4 → lk = memRead s.mem (d + 12) 4 →
    r = exec (.dtrg ch) s →
    if c.active = true then r = hostFaults s t (.channelBusy ch.toNat)
    else if ¬ (c.cfg.valid = true ∧ c.enable = true ∧ c.inten = true) then
      r = hostFaults s t (.triggerNotReady ch.toNat c.cfg.valid c.enable c.inten)
    else if lk ≠ 0 then r = hostFaults s t (.linkUnsupported ch.toNat lk)
    else if se % w ≠ 0 ∨ de % w ≠ 0 then
      r = hostFaults s t (.misalignedTransfer ch.toNat se de w)
    else if (c.cfg.srcInc = true ∧ se < (n - 1) * w) ∨ (c.cfg.dstInc = true ∧ de < (n - 1) * w) ∨
        2 ^ 32 < se + w ∨ 2 ^ 32 < de + w then
      r = hostFaults s t (.addrWrapTransfer ch.toNat se n w)
    else
      ∀ f, s.raceFault ch.toNat (byteRange se n w c.cfg.srcInc) (byteRange de n w c.cfg.dstInc) =
        some f → r = hostFaults s t f

/-- R180: the four micro-steps of DPOLL. -/
def Obligations.DpollMicroSteps : Prop :=
  ∀ (s : State) (t : Nat) (rd : RegNum) (ch : BitVec 6), Owns s t ch.toNat →
    (HostAtPhase s t 0 → (s.chan ch.toNat).started = false →
      exec (.dpoll rd ch) s = hostFaults s t (.pollNotStarted ch.toNat)) ∧
    (HostAtPhase s t 0 → (s.chan ch.toNat).started = true → (s.chan ch.toNat).inten = false →
      ∃ s', exec (.dpoll rd ch) s = .next s' ∧ SameExcept [.tasks] s s' ∧
        OnlyRegCp s s' t rd 1 1) ∧
    (HostAtPhase s t 0 → (s.chan ch.toNat).started = true → (s.chan ch.toNat).inten = true →
      ∃ s', exec (.dpoll rd ch) s = .next s' ∧ SameExcept [.tasks] s s' ∧
        OtherTasksSame s s' t ∧ TaskSameExcept [.phase] (s.task t) (s'.task t) ∧
        (s'.task t).phase = 1) ∧
    (HostAtPhase s t 1 →
      ∃ s', exec (.dpoll rd ch) s = .next s' ∧ SameExcept [.tasks, .chans] s s' ∧
        OtherTasksSame s s' t ∧ TaskSameExcept [.phase] (s.task t) (s'.task t) ∧
        (s'.task t).phase = 2 ∧ OtherChansSame s s' ch.toNat ∧
        ChannelSameExcept [.waker] (s.chan ch.toNat) (s'.chan ch.toNat) ∧
        (s'.chan ch.toNat).waker = some t) ∧
    (HostAtPhase s t 2 →
      ∃ s', exec (.dpoll rd ch) s = .next s' ∧ SameExcept [.tasks, .chans] s s' ∧
        OtherTasksSame s s' t ∧ TaskSameExcept [.phase] (s.task t) (s'.task t) ∧
        (s'.task t).phase = 3 ∧ OtherChansSame s s' ch.toNat ∧
        ChannelSameExcept [.inten] (s.chan ch.toNat) (s'.chan ch.toNat) ∧
        (s'.chan ch.toNat).inten = true) ∧
    (HostAtPhase s t 3 →
      ∃ s', exec (.dpoll rd ch) s = .next s' ∧ SameExcept [.tasks] s s' ∧
        OtherTasksSame s s' t ∧ TaskSameExcept [.regs, .cp, .phase] (s.task t) (s'.task t) ∧
        RegHolds s' t rd (if (s.chan ch.toNat).inten = true then 0 else 1) ∧
        (∀ q, q ≠ rd → (s'.task t).reg q = (s.task t).reg q) ∧
        (s'.task t).phase = 0 ∧ (s'.task t).cp = (s.task t).cp + 1)

/-- R181: DRD reads the bit its selector names, of any channel; its faults in order. -/
def Obligations.DrdReadsBit : Prop :=
  ∀ (s : State) (t : Nat) (rd : RegNum) (ch : BitVec 6) (sel : BitVec 4) (c : Channel),
    HostReady s t → c = s.chan ch.toNat →
    if s.nch ≤ ch.toNat then
      exec (.drd rd ch sel) s = hostFaults s t (.badChannel ch.toNat)
    else if 3 < sel.toNat then exec (.drd rd ch sel) s = hostFaults s t (.badOperand sel)
    else
      ∃ s', exec (.drd rd ch sel) s = .next s' ∧ SameExcept [.tasks] s s' ∧
        OnlyRegCp s s' t rd
          (if (if sel = 0 then c.enable else if sel = 1 then c.inten else
            if sel = 2 then c.active else c.done) = true then 1 else 0) 1

/-! ### DMA engine, shim, races -/

/-- R190 to R192: a granted engine step moves one element, records two events, counts XREM down and completes on the
last element; without a grant a peripheral channel does not step; an access that is neither RAM nor PERIPH raises
F_BUS. That a choice without its grant changes nothing is the model's (log 3), and so is the form of the environment's
answer, Config.periphRead of HIST and the access (log 6). -/
def Obligations.EngineMovesElement : Prop :=
  ∀ (s : State) (ch sa da : Nat) (granted : Bool) (x : Transfer),
    s.fault = none → s.MemOk → ch < s.nch → (s.chan ch).active = true →
    x = (s.chan ch).xfer → 0 < x.rem → 0 < x.width →
    sa = (if x.srcInc = true then x.srcEnd.toNat - (x.rem - 1) * x.width else x.srcEnd.toNat) →
    da = (if x.dstInc = true then x.dstEnd.toNat - (x.rem - 1) * x.width else x.dstEnd.toNat) →
    if granted = false ∧ (x.dir = 1 ∨ x.dir = 2) then
      s.agentStep (.engine ch granted) = .next s
    else
      (¬ AllKind s sa x.width .ram → ¬ AllKind s sa x.width .periph →
        s.agentStep (.engine ch granted) =
          .next { s with
            fault := some ⟨.bus (.engine ch) sa x.width, .engine ch, none, none⟩ }) ∧
      ∀ v, (AllKind s sa x.width .ram ∧ v = memRead s.mem sa x.width ∨
          AllKind s sa x.width .periph ∧
            v = Config.periphRead s.hist (.engine ch) sa x.width % 2 ^ (8 * x.width)) →
        (¬ AllKind s da x.width .ram → ¬ AllKind s da x.width .periph →
          s.agentStep (.engine ch granted) =
            .next { s with
              fault := some ⟨.bus (.engine ch) da x.width, .engine ch, none, none⟩ }) ∧
        (AllKind s da x.width .ram ∨ AllKind s da x.width .periph →
          ∃ s', s.agentStep (.engine ch granted) = .next s' ∧
            SameExcept [.mem, .chans, .hist] s s' ∧
            s'.hist = s.hist ++ [⟨.engine ch, .read, sa, x.width, v⟩,
              ⟨.engine ch, .write, da, x.width, v⟩] ∧
            OtherChansSame s s' ch ∧
            ChannelSameExcept [.xfer, .active, .done] (s.chan ch) (s'.chan ch) ∧
            (s'.chan ch).xfer = { x with rem := x.rem - 1 } ∧
            ((s'.chan ch).active = true ↔ x.rem ≠ 1) ∧
            ((s'.chan ch).done = true ↔ (s.chan ch).done = true ∨ x.rem = 1) ∧
            (AllKind s da x.width .ram →
              memRead s'.mem da x.width = v ∧ BytesSameOutside s s' da x.width) ∧
            (AllKind s da x.width .periph → s'.mem = s.mem))

/-- R190, R192: the engine steps of a whole memory-to-memory transfer between disjoint RAM buffers copy the source to
the destination, change no other byte, and complete the channel. -/
def Obligations.WholeTransferCopies : Prop :=
  ∀ (s s' : State) (ch n w slo dlo : Nat) (x : Transfer),
    s.fault = none → s.MemOk → ch < s.nch → (s.chan ch).active = true → x = (s.chan ch).xfer →
    n = x.rem → 0 < n → w = x.width → 0 < w → x.srcInc = true → x.dstInc = true →
    x.srcEnd.toNat = slo + (n - 1) * w → x.dstEnd.toNat = dlo + (n - 1) * w →
    AllKind s slo (n * w) .ram → AllKind s dlo (n * w) .ram →
    (slo + n * w ≤ dlo ∨ dlo + n * w ≤ slo) →
    s' = Nat.iterate (fun s => State.engineStep s ch) n s →
    SameExcept [.mem, .chans, .hist] s s' ∧ OtherChansSame s s' ch ∧
      (∀ j, j < n * w → s'.mem.read (dlo + j) = s.mem.read (slo + j)) ∧
      BytesSameOutside s s' dlo (n * w) ∧
      ChannelSameExcept [.xfer, .active, .done] (s.chan ch) (s'.chan ch) ∧
      (s'.chan ch).active = false ∧ (s'.chan ch).done = true ∧ (s'.chan ch).xfer.rem = 0

/-- R193: one shim step clears INTEN of every completed channel, takes and readies its waker, and leaves DMA_IRQ = 0. -/
def Obligations.ShimServesAllChannels : Prop :=
  ∀ s : State, s.fault = none → s.nch ≤ 64 → s.dmaIrq = true →
    ∃ s', s.agentStep .dmaShim = .next s' ∧ SameExcept [.tasks, .chans] s s' ∧
      s'.counts = s.counts ∧ s'.dmaIrq = false ∧
      (∀ ch, ch < s.nch →
        ChannelSameExcept [.inten, .waker] (s.chan ch) (s'.chan ch) ∧
        (if (s.chan ch).done = true ∧ (s.chan ch).inten = true then
          (s'.chan ch).inten = false ∧ (s'.chan ch).waker = none
        else s'.chan ch = s.chan ch)) ∧
      ∀ u, u < s.ntasks → TaskSameExcept [.ready] (s.task u) (s'.task u) ∧
        ((s'.task u).ready = true ↔ (s.task u).ready = true ∨
          ∃ ch, ch < s.nch ∧ (s.chan ch).done = true ∧ (s.chan ch).inten = true ∧
            (s.chan ch).waker = some u)

/-- R46, R178, R180, R192, R193: DMA_IRQ is a level; it stays asserted until the shim has run. R305 says so of every
step; that a DCFG of the completed channel, which clears its DONE (R170), is excepted is the model's reading
(log 12). -/
def Obligations.IrqStaysUntilServed : Prop :=
  (∀ s : State, s.dmaIrq = true ↔
    ∃ ch, ch < s.nch ∧ (s.chan ch).done = true ∧ (s.chan ch).inten = true) ∧
  ∀ s s' : State, step s = .next s' → s.dmaIrq = true → s.nextChoice ≠ .dmaShim →
    (s.nextChoice = .host → ∀ t rd ch dir wc src dst count opts, s.current = some t →
      s.fetch t ≠ .ok (.dcfg rd ch dir wc src dst count opts)) →
    s'.dmaIrq = true ∧ (s'.fault = none → s'.enabled .dmaShim = true)

/-- R195: RACECHK byte by byte: a destination byte in the descriptor table first, then the lowest other active channel
with a conflicting byte. R179: the first and last byte of a range, as DTRG computes it and as the latched fields give
SRc and DRc. -/
def Obligations.TransferRaces : Prop :=
  (∀ (e n w : Nat) (inc : Bool),
    (byteRange e n w inc).lo = (if inc = true then (e : Int) - ((n : Int) - 1) * w else e) ∧
    (byteRange e n w inc).hi = (e : Int) + w - 1) ∧
  (∀ x : Transfer,
    x.srcRange.lo = (if x.srcInc = true then
      (x.srcEnd.toNat : Int) - ((x.count.toNat : Int) - 1) * x.width else x.srcEnd.toNat) ∧
    x.srcRange.hi = (x.srcEnd.toNat : Int) + x.width - 1 ∧
    x.dstRange.lo = (if x.dstInc = true then
      (x.dstEnd.toNat : Int) - ((x.count.toNat : Int) - 1) * x.width else x.dstEnd.toNat) ∧
    x.dstRange.hi = (x.dstEnd.toNat : Int) + x.width - 1) ∧
  ∀ (s : State) (ch : Nat) (sr dr : ByteRange) (conflict : Nat → Prop),
    (∀ c, conflict c ↔ c < s.nch ∧ c ≠ ch ∧ (s.chan c).active = true ∧
      ∃ b : Int,
        (dr.lo ≤ b ∧ b ≤ dr.hi ∧
          ((s.chan c).xfer.srcRange.lo ≤ b ∧ b ≤ (s.chan c).xfer.srcRange.hi ∨
            (s.chan c).xfer.dstRange.lo ≤ b ∧ b ≤ (s.chan c).xfer.dstRange.hi)) ∨
        (sr.lo ≤ b ∧ b ≤ sr.hi ∧
          ((s.chan c).xfer.dstRange.lo ≤ b ∧ b ≤ (s.chan c).xfer.dstRange.hi ∨
            (s.chan c).xfer.srcRange.lo ≤ b ∧ b ≤ (s.chan c).xfer.srcRange.hi ∧
              regionKind s.params.regions b.toNat = .periph))) →
    ((∃ b : Int, dr.lo ≤ b ∧ b ≤ dr.hi ∧ (s.params.descBase : Int) ≤ b ∧
        b < (s.params.descBase : Int) + 16 * s.nch) →
      s.raceFault ch sr dr = some (.raceWithTable ch)) ∧
    ((¬ ∃ b : Int, dr.lo ≤ b ∧ b ≤ dr.hi ∧ (s.params.descBase : Int) ≤ b ∧
        b < (s.params.descBase : Int) + 16 * s.nch) →
      (∀ c, conflict c → (∀ c', c' < c → ¬ conflict c') →
        s.raceFault ch sr dr = some (.raceWithChannel ch c)) ∧
      ((∀ c, ¬ conflict c) → s.raceFault ch sr dr = none))

/-- R360, R361: HOSTRACE byte by byte, and the F_DMA_RACE it makes of an aligned LD or ST, with the model's record of it
(log 8). -/
def Obligations.HostRaces : Prop :=
  ∀ (s : State) (a n : Nat) (kind : AccessKind) (conflict : Nat → Prop),
    (∀ c, conflict c ↔ c < s.nch ∧ (s.chan c).active = true ∧
      ∃ b : Int, (a : Int) ≤ b ∧ b < (a : Int) + n ∧
        ((s.params.descBase : Int) + 16 * c ≤ b ∧ b < (s.params.descBase : Int) + 16 * c + 16 ∨
          (s.chan c).xfer.dstRange.lo ≤ b ∧ b ≤ (s.chan c).xfer.dstRange.hi ∨
          (s.chan c).xfer.srcRange.lo ≤ b ∧ b ≤ (s.chan c).xfer.srcRange.hi ∧
            (kind = .write ∨ regionKind s.params.regions b.toNat = .periph))) →
    ((∀ c, ¬ conflict c) → s.hostRace a n kind = none) ∧
    ((∃ c, conflict c) →
      ∃ c, conflict c ∧ s.hostRace a n kind = some c ∧
        ∀ t wc (addr : Word32), HostReady s t → addr.toNat = a → n = 2 ^ wc.toNat → a % n = 0 →
          (kind = .read → ∀ rd, exec (.ld rd wc addr) s = hostFaults s t (.raceWithHost c a n)) ∧
          (kind = .write → ∀ rs v, RegHolds s t rs v →
            exec (.st rs wc addr) s = hostFaults s t (.raceWithHost c a n)))

/-! ### Time driver -/

/-- R220: NOW(P, C), a sum and not an OR, by the side of the wrap C belongs to, and its bound; R221: NOWI, and its
agreement with NOW(PERIOD, COUNT) where COUNT[31] = PERIOD[0]. -/
def Obligations.LogicalTimeExact : Prop :=
  (∀ p c : Word32,
    logicalTime p c = p.toNat * 2 ^ 31 + (c.toNat ^^^ (p.toNat % 2) * 2 ^ 31) ∧
    logicalTime p c =
      (if c.toNat / 2 ^ 31 = p.toNat % 2 then p.toNat else p.toNat + 1) * 2 ^ 31 +
        c.toNat % 2 ^ 31 ∧
    logicalTime p c < 2 ^ 63 + 2 ^ 32) ∧
  ∀ s : State, s.nowi = s.period.toNat * 2 ^ 31 + s.count.toNat % 2 ^ 31 ∧
    (s.ParityOk → logicalTime s.period s.count = s.nowi)

/-- R243: a TNOW that read period p, w wraps ago, returns NOWI minus (w − w mod 2) * 2^31. -/
def Obligations.TornReadCorrected : Prop :=
  ∀ (s : State) (p : Word32) (w : Nat), s.ParityOk → s.period.toNat = p.toNat + w →
    logicalTime p s.count + (w - w % 2) * 2 ^ 31 = s.nowi ∧
      (logicalTime p s.count = s.nowi ↔ w ≤ 1)

/-- R240: the tick source's step sets TICK_PEND, whatever it was, and changes nothing else. R241, R242 (1): a tick
handler step adds TICK_INC to NOWI, while PERIOD is below 2^32 − 1, and clears TICK_PEND; R245: from the last period it
wraps to the first. That the handler's step changes no waker cell is the model's reading of R222 and R145 against R95
(log 14). -/
def Obligations.TickAdvancesClock : Prop :=
  (∀ s : State, s.fault = none →
    ∃ s', s.agentStep .tickSource = .next s' ∧ SameExcept [.tickPend] s s' ∧ s'.tickPend = true) ∧
  ∀ s : State, s.fault = none → s.tickPend = true → s.params.tickInc < 2 ^ 31 →
    ∃ s', s.agentStep .tickHandler = .next s' ∧
      SameExcept [.tasks, .clock, .alarm, .tickPend, .queue] s s' ∧ s'.tickPend = false ∧
      s'.ParityOk ∧ s'.nowi % 2 ^ 63 = (s.nowi + s.params.tickInc) % 2 ^ 63 ∧
      (s.period.toNat < 2 ^ 32 - 1 → s'.nowi = s.nowi + s.params.tickInc) ∧
      s'.ntasks = s.ntasks ∧ ∀ u, TaskSameExcept [.ready] (s.task u) (s'.task u)

/-- R222 to R224: REARM pops exactly the expired entries, readies exactly their tasks, and leaves the alarm disarmed on an
empty queue, else set for the earliest deadline, which is in the future. That it changes no waker cell is the model's
reading of R222 and R145 against R95 (log 14); the order of the queue it leaves is not stated (log 7). -/
def Obligations.RearmFindsNextDeadline : Prop :=
  ∀ s : State,
    SameExcept [.tasks, .alarm, .queue] s s.rearm ∧
    PoppedExpired s s.rearm s.nowi ∧
    (s.rearm.queue = [] → s.rearm.alarmEn = false ∧ s.rearm.alarmTs = none) ∧
    s.rearm.ntasks = s.ntasks ∧
    ∀ m, queueMin s.rearm.queue = some m →
      s.nowi < m.toNat ∧ s.rearm.alarmTs = some m ∧ s.rearm.compare.toNat = m.toNat % 2 ^ 31 ∧
        (s.rearm.alarmEn = true ↔ m.toNat < (s.period.toNat + 1) * 2 ^ 31)

/-- R244: every step but a TALARM keeps the alarm set for the earliest deadline. -/
def Obligations.StepKeepsAlarm : Prop :=
  ∀ s s' : State, s.AlarmOk → step s = .next s' →
    (s.nextChoice = .host → ∀ t rd rs, s.current = some t → s.fetch t ≠ .ok (.talarm rd rs)) →
    s'.AlarmOk

/-- R241, R225, R226: in every state, a TALARM's alarm included, the tick handler arms a deferred alarm on a wrap that
brings it into the current period, and fires the armed alarm exactly if the new time has reached it: then it pops the
expired entries, readies exactly their tasks and rearms; else it leaves the queue and the tasks alone. R244: with the
alarm invariant no expired entry is left either way. -/
def Obligations.TickPopsExpired : Prop :=
  ∀ (s s' : State) (armed due : Prop) (left : List QueueEntry),
    s.fault = none → s.tickPend = true → s.agentStep .tickHandler = .next s' →
    (armed ↔ s.alarmEn = true ∨
      2 ^ 31 ≤ s.count.toNat % 2 ^ 31 + s.params.tickInc ∧
        ∃ ts, s.alarmTs = some ts ∧ ts.toNat < (s'.period.toNat + 1) * 2 ^ 31) →
    (due ↔ armed ∧ ∃ ts, s.alarmTs = some ts ∧ ts.toNat ≤ s'.nowi) →
    left = s.queue.filter (fun e => decide (s'.nowi < e.ts.toNat)) →
    (¬ due → SameExcept [.clock, .alarm, .tickPend] s s' ∧ s'.compare = s.compare ∧
      s'.alarmTs = s.alarmTs ∧ (s'.alarmEn = true ↔ armed)) ∧
    (due → PoppedExpired s s' s'.nowi ∧
      (left = [] → s'.alarmEn = false ∧ s'.alarmTs = none ∧ s'.compare = s.compare) ∧
      ∀ m, queueMin left = some m →
        s'.alarmTs = some m ∧ s'.compare.toNat = m.toNat % 2 ^ 31 ∧
          (s'.alarmEn = true ↔ m.toNat < (s'.period.toNat + 1) * 2 ^ 31)) ∧
    (s.AlarmOk → PoppedExpired s s' s'.nowi)

/-- R230: the two micro-steps of TNOW. -/
def Obligations.TnowMicroSteps : Prop :=
  ∀ (s : State) (t : Nat) (rd : RegNum),
    (HostAtPhase s t 0 →
      ∃ s', exec (.tnow rd) s = .next s' ∧ SameExcept [.tasks] s s' ∧ OtherTasksSame s s' t ∧
        TaskSameExcept [.phase, .latch] (s.task t) (s'.task t) ∧ (s'.task t).phase = 1 ∧
        (s'.task t).latch = s.period) ∧
    (HostAtPhase s t 1 →
      ∃ s', exec (.tnow rd) s = .next s' ∧ SameExcept [.tasks] s s' ∧ OtherTasksSame s s' t ∧
        TaskSameExcept [.regs, .cp, .phase] (s.task t) (s'.task t) ∧
        RegHolds s' t rd (BitVec.ofNat 64 (logicalTime (s.task t).latch s.count)) ∧
        (∀ q, q ≠ rd → (s'.task t).reg q = (s.task t).reg q) ∧
        (s'.task t).phase = 0 ∧ (s'.task t).cp = (s.task t).cp + 1)

/-- R232: TSCHED adds an entry for the task; it rearms exactly when the deadline is the earliest, arming it in the
future and popping it at once in the past; a full queue raises F_QUEUE_FULL. That the pops change no waker cell is the
model's reading of R222 and R145 against R95 (log 14). -/
def Obligations.TschedSchedules : Prop :=
  ∀ (s : State) (t : Nat) (rs : RegNum) (ts : Word), HostReady s t → RegHolds s t rs ts →
    if s.params.queueCap ≤ s.queue.length then
      exec (.tsched rs) s = hostFaults s t (.queueFull ts t)
    else
      ∃ s', exec (.tsched rs) s = .next s' ∧ SameExcept [.tasks, .alarm, .queue] s s' ∧
        ((∃ m, queueMin s.queue = some m ∧ m.toNat ≤ ts.toNat) →
          OnlyCp s s' t ((s.task t).cp + 1) ∧ s'.queue.Perm (⟨ts, t⟩ :: s.queue) ∧
            s'.compare = s.compare ∧ s'.alarmEn = s.alarmEn ∧ s'.alarmTs = s.alarmTs) ∧
        ((∀ m, queueMin s.queue = some m → ts.toNat < m.toNat) → s.nowi < ts.toNat →
          OnlyCp s s' t ((s.task t).cp + 1) ∧ s'.queue.Perm (⟨ts, t⟩ :: s.queue) ∧
            s'.compare.toNat = ts.toNat % 2 ^ 31 ∧ s'.alarmTs = some ts ∧
            (s'.alarmEn = true ↔ ts.toNat < (s.period.toNat + 1) * 2 ^ 31)) ∧
        ((∀ m, queueMin s.queue = some m → ts.toNat < m.toNat) → ts.toNat ≤ s.nowi →
          s'.queue.Perm (s.queue.filter fun e => decide (s.nowi < e.ts.toNat)) ∧ s'.AlarmOk ∧
            s'.ntasks = s.ntasks ∧
            ∀ u, u < s.ntasks → TaskSameExcept [.cp, .ready] (s.task u) (s'.task u) ∧
              (s'.task u).cp = (if u = t then (s.task u).cp + 1 else (s.task u).cp) ∧
              ((s'.task u).ready = true ↔ (s.task u).ready = true ∨ u = t ∨
                ∃ e ∈ s.queue, e.handle = u ∧ e.ts.toNat ≤ s.nowi))

/-- R223, R233: TALARM sets the alarm directly: refused for an overdue time, armed before the next wrap, deferred after
it. -/
def Obligations.TalarmSetsAlarm : Prop :=
  ∀ (s : State) (t : Nat) (rd rs : RegNum) (ts : Word), HostReady s t → RegHolds s t rs ts →
    ∃ s', exec (.talarm rd rs) s = .next s' ∧ SameExcept [.tasks, .alarm] s s' ∧
      (ts.toNat ≤ s.nowi → OnlyRegCp s s' t rd 0 1 ∧ s'.alarmEn = false ∧ s'.alarmTs = none ∧
        s'.compare = s.compare) ∧
      (s.nowi < ts.toNat → OnlyRegCp s s' t rd 1 1 ∧ s'.compare.toNat = ts.toNat % 2 ^ 31 ∧
        s'.alarmTs = some ts ∧
        (s'.alarmEn = true ↔ ts.toNat < (s.period.toNat + 1) * 2 ^ 31))

/-- R231: TRD reads the register its selector names; the others raise F_BAD_OPERAND. It completes whatever the queue's
length is; a length of 2^64 or more reads as a free value (log 15). -/
def Obligations.TrdReadsRegister : Prop :=
  ∀ (s : State) (t : Nat) (rd : RegNum) (sel : BitVec 4), HostReady s t →
    if 6 < sel.toNat then exec (.trd rd sel) s = hostFaults s t (.badOperand sel)
    else
      ∃ s' v, exec (.trd rd sel) s = .next s' ∧ SameExcept [.tasks] s s' ∧
        OnlyRegCp s s' t rd v 1 ∧
        (sel = 0 → v.toNat = s.period.toNat) ∧ (sel = 1 → v.toNat = s.count.toNat) ∧
        (sel = 2 → v.toNat = s.compare.toNat) ∧
        (sel = 3 → v.toNat = if s.alarmEn = true then 1 else 0) ∧
        (sel = 4 → (s.alarmTs = none → v.toNat = 2 ^ 64 - 1) ∧ ∀ ts, s.alarmTs = some ts → v = ts) ∧
        (sel = 5 → s.queue.length < 2 ^ 64 → v.toNat = s.queue.length) ∧
        (sel = 6 → v.toNat = if s.tickPend = true then 1 else 0)

/-! ### Host layer -/

/-- R83: MemRead is the little-endian sum of its bytes; MemWrite writes byte i of its value at a + i and no other byte,
so MemRead reads back what MemWrite wrote. -/
def Obligations.MemReadLittleEndian : Prop :=
  ∀ (m : Memory) (a n : Nat),
    memRead m a n = ∑ i ∈ Finset.range n, (m.read (a + i)).toNat * 2 ^ (8 * i) ∧
      (m.wf = true → ∀ v,
        (∀ i, i < n → ((memWrite m a n v).read (a + i)).toNat = v / 2 ^ (8 * i) % 2 ^ 8) ∧
        (∀ b, (b < a ∨ a + n ≤ b) → (memWrite m a n v).read b = m.read b) ∧
        memRead (memWrite m a n v) a n = v % 2 ^ (8 * n))

/-- R31: every command that reads a register never written raises F_UNINIT_REG. BLTU of two such registers names one of
them; which one the spec does not say (log 9). -/
def Obligations.UnwrittenRegisterFaults : Prop :=
  ∀ (s : State) (t : Nat) (r : RegNum), HostReady s t → RegUnwritten s t r →
    (∀ rd imm, exec (.addi rd r imm) s = hostFaults s t (.uninitReg t r)) ∧
    (∀ wc a, exec (.st r wc a) s = hostFaults s t (.uninitReg t r)) ∧
    (∀ imm a, exec (.beq r imm a) s = hostFaults s t (.uninitReg t r) ∧
      exec (.bne r imm a) s = hostFaults s t (.uninitReg t r)) ∧
    (∀ q v a, RegHolds s t q v → exec (.bltu r q a) s = hostFaults s t (.uninitReg t r) ∧
      exec (.bltu q r a) s = hostFaults s t (.uninitReg t r)) ∧
    (∀ q a, RegUnwritten s t q →
      exec (.bltu r q a) s = hostFaults s t (.uninitReg t r) ∨
        exec (.bltu r q a) s = hostFaults s t (.uninitReg t q)) ∧
    exec (.tsched r) s = hostFaults s t (.uninitReg t r) ∧
    ∀ rd, exec (.talarm rd r) s = hostFaults s t (.uninitReg t r)

/-- R271, R272, R295: LI writes its immediate; ADDI the sum with the sign-extended immediate, modulo 2^64. -/
def Obligations.LiAndAddiWriteRegister : Prop :=
  ∀ (s : State) (t : Nat) (rd : RegNum), HostReady s t →
    (∀ imm, ∃ s', exec (.li rd imm) s = .next s' ∧ SameExcept [.tasks] s s' ∧
      OnlyRegCp s s' t rd imm 3) ∧
    ∀ rs v imm, RegHolds s t rs v →
      ∃ s', exec (.addi rd rs imm) s = .next s' ∧ SameExcept [.tasks] s s' ∧
        OnlyRegCp s s' t rd (BitVec.ofInt 64 ((v.toNat : Int) + imm.toInt)) 1

/-- R273, R84, R89: an aligned LD that races with no transfer loads from RAM, zero-extended, or takes the environment's
answer from PERIPH and records it. -/
def Obligations.LoadReads : Prop :=
  ∀ (s : State) (t : Nat) (rd : RegNum) (wc : BitVec 2) (addr : Word32) (a n : Nat),
    HostReady s t → a = addr.toNat → n = 2 ^ wc.toNat → a % n = 0 →
    s.hostRace a n .read = none →
    (AllKind s a n .ram →
      ∃ s', exec (.ld rd wc addr) s = .next s' ∧ SameExcept [.tasks] s s' ∧
        OnlyRegCp s s' t rd (BitVec.ofNat 64 (memRead s.mem a n)) 2) ∧
    (AllKind s a n .periph →
      ∃ s' v, v = Config.periphRead s.hist .host a n % 2 ^ (8 * n) ∧
        exec (.ld rd wc addr) s = .next s' ∧ SameExcept [.tasks, .hist] s s' ∧
        s'.hist = s.hist ++ [⟨.host, .read, a, n, v⟩] ∧
        OnlyRegCp s s' t rd (BitVec.ofNat 64 v) 2)

/-- R274, R83, R84, R89: an aligned ST that races with no transfer stores the low bytes of the register in RAM and
changes no other byte, or records the write to PERIPH. -/
def Obligations.StoreWrites : Prop :=
  ∀ (s : State) (t : Nat) (rs : RegNum) (wc : BitVec 2) (addr : Word32) (x : Word) (a n : Nat),
    HostReady s t → s.MemOk → RegHolds s t rs x → a = addr.toNat → n = 2 ^ wc.toNat →
    a % n = 0 → s.hostRace a n .write = none →
    (AllKind s a n .ram →
      ∃ s', exec (.st rs wc addr) s = .next s' ∧ SameExcept [.tasks, .mem] s s' ∧
        OnlyCp s s' t ((s.task t).cp + 2) ∧ memRead s'.mem a n = x.toNat % 2 ^ (8 * n) ∧
        BytesSameOutside s s' a n) ∧
    (AllKind s a n .periph →
      ∃ s', exec (.st rs wc addr) s = .next s' ∧ SameExcept [.tasks, .hist] s s' ∧
        OnlyCp s s' t ((s.task t).cp + 2) ∧
        s'.hist = s.hist ++ [⟨.host, .write, a, n, x.toNat % 2 ^ (8 * n)⟩])

/-- R85, R87, R273, R274: a misaligned LD or ST raises F_MISALIGNED; an aligned one that races with no transfer and is
neither all RAM nor all PERIPH raises F_BUS. -/
def Obligations.LoadStoreRefusals : Prop :=
  ∀ (s : State) (t : Nat) (wc : BitVec 2) (addr : Word32) (a n : Nat),
    HostReady s t → a = addr.toNat → n = 2 ^ wc.toNat →
    (a % n ≠ 0 → (∀ rd, exec (.ld rd wc addr) s = hostFaults s t (.misalignedAccess a n)) ∧
      ∀ rs x, RegHolds s t rs x → exec (.st rs wc addr) s = hostFaults s t (.misalignedAccess a n)) ∧
    (a % n = 0 → ¬ AllKind s a n .ram → ¬ AllKind s a n .periph →
      (s.hostRace a n .read = none → ∀ rd,
        exec (.ld rd wc addr) s = hostFaults s t (.bus .host a n)) ∧
      (s.hostRace a n .write = none → ∀ rs x, RegHolds s t rs x →
        exec (.st rs wc addr) s = hostFaults s t (.bus .host a n)))

/-- R275, R276, R277, R280: the branches change CP only, to the target or past the command. -/
def Obligations.BranchesSetCp : Prop :=
  ∀ (s : State) (t : Nat) (target : Word32), HostReady s t →
    (∃ s', exec (.jmp target) s = .next s' ∧ SameExcept [.tasks] s s' ∧
      OnlyCp s s' t target.toNat) ∧
    (∀ rs imm v, RegHolds s t rs v →
      (∃ s', exec (.beq rs imm target) s = .next s' ∧ SameExcept [.tasks] s s' ∧
        OnlyCp s s' t (if v.toNat = imm.toNat then target.toNat else (s.task t).cp + 2)) ∧
      ∃ s', exec (.bne rs imm target) s = .next s' ∧ SameExcept [.tasks] s s' ∧
        OnlyCp s s' t (if v.toNat = imm.toNat then (s.task t).cp + 2 else target.toNat)) ∧
    ∀ rs rt v w, RegHolds s t rs v → RegHolds s t rt w →
      ∃ s', exec (.bltu rs rt target) s = .next s' ∧ SameExcept [.tasks] s s' ∧
        OnlyCp s s' t (if v.toNat < w.toNat then target.toNat else (s.task t).cp + 2)

/-- R278, R279: YIELD suspends and HALT ends the current task; CP stays. -/
def Obligations.YieldAndHaltStopTask : Prop :=
  ∀ (s : State) (t : Nat), HostReady s t →
    (∃ s', exec .yield s = .next s' ∧ SameExcept [.tasks, .current] s s' ∧ s'.current = none ∧
      OtherTasksSame s s' t ∧ TaskSameExcept [.tstate] (s.task t) (s'.task t) ∧
      (s'.task t).tstate = .suspended) ∧
    ∃ s', exec .halt s = .next s' ∧ SameExcept [.tasks, .current] s s' ∧ s'.current = none ∧
      OtherTasksSame s s' t ∧ TaskSameExcept [.tstate] (s.task t) (s'.task t) ∧
      (s'.task t).tstate = .halted

/-- R291, R292: START runs a task that is INIT, from CP 0, which the invariant of R33 gives; RESUME runs one that is
SUSPENDED and READY, past its YIELD, consuming READY; neither does anything to another task or while a task runs. That a
choice that is not enabled changes nothing is the model's (log 3). -/
def Obligations.ExecutorStartsAndResumes : Prop :=
  ∀ (s : State) (t : Nat), s.fault = none → t < s.ntasks →
    (if s.current = none ∧ (s.task t).tstate = .init then
      ∃ s', s.agentStep (.start t) = .next s' ∧ SameExcept [.tasks, .current] s s' ∧
        s'.current = some t ∧ OtherTasksSame s s' t ∧
        TaskSameExcept [.tstate] (s.task t) (s'.task t) ∧ (s'.task t).tstate = .running ∧
        (s.CurrentOk → (s'.task t).cp = 0 ∧ (s'.task t).phase = 0)
    else s.agentStep (.start t) = .next s) ∧
    if s.current = none ∧ (s.task t).tstate = .suspended ∧ (s.task t).ready = true then
      ∃ s', s.agentStep (.resume t) = .next s' ∧ SameExcept [.tasks, .current] s s' ∧
        s'.current = some t ∧ OtherTasksSame s s' t ∧
        TaskSameExcept [.tstate, .ready, .cp] (s.task t) (s'.task t) ∧
        (s'.task t).tstate = .running ∧ (s'.task t).ready = false ∧
        (s'.task t).cp = (s.task t).cp + 1
    else s.agentStep (.resume t) = .next s

/-- R371: a stuck machine stays stuck and a done one done, whatever agent steps; a done machine with no interrupt of the
DMA pending, no deadline queued and no alarm set keeps its observation while the tick source and handler step. -/
def Obligations.StuckAndDoneStay : Prop :=
  ∀ s s' : State, step s = .next s' →
    (s.runEnd = .stuck → s'.runEnd = .stuck) ∧
    (s.runEnd = .done → s.CurrentOk → s'.runEnd = .done ∧
      (s.dmaIrq = false → s.queue = [] → s.alarmTs = none → s'.observation = s.observation))
end

