-- ==== Sys2Proof/Laws/State.lean ====
section
/-! SUPPORT. One lemma per field of State per update, so that no proof unfolds a record update. -/

namespace Sys2Proof.Machine.Laws

variable (s : State)

/-! ### State.updTask -/

@[simp] theorem updTask_params (t : Nat) (f : Task → Task) : (s.updTask t f).params = s.params := rfl
@[simp] theorem updTask_tasks (t : Nat) (f : Task → Task) : (s.updTask t f).tasks = s.tasks.modify t f := rfl
@[simp] theorem updTask_current (t : Nat) (f : Task → Task) : (s.updTask t f).current = s.current := rfl
@[simp] theorem updTask_chans (t : Nat) (f : Task → Task) : (s.updTask t f).chans = s.chans := rfl
@[simp] theorem updTask_i2cCells (t : Nat) (f : Task → Task) : (s.updTask t f).i2cCells = s.i2cCells := rfl
@[simp] theorem updTask_rngCells (t : Nat) (f : Task → Task) : (s.updTask t f).rngCells = s.rngCells := rfl
@[simp] theorem updTask_wdtCells (t : Nat) (f : Task → Task) : (s.updTask t f).wdtCells = s.wdtCells := rfl
@[simp] theorem updTask_espiCells (t : Nat) (f : Task → Task) : (s.updTask t f).espiCells = s.espiCells := rfl
@[simp] theorem updTask_mem (t : Nat) (f : Task → Task) : (s.updTask t f).mem = s.mem := rfl
@[simp] theorem updTask_hist (t : Nat) (f : Task → Task) : (s.updTask t f).hist = s.hist := rfl
@[simp] theorem updTask_period (t : Nat) (f : Task → Task) : (s.updTask t f).period = s.period := rfl
@[simp] theorem updTask_count (t : Nat) (f : Task → Task) : (s.updTask t f).count = s.count := rfl
@[simp] theorem updTask_compare (t : Nat) (f : Task → Task) : (s.updTask t f).compare = s.compare := rfl
@[simp] theorem updTask_alarmEn (t : Nat) (f : Task → Task) : (s.updTask t f).alarmEn = s.alarmEn := rfl
@[simp] theorem updTask_alarmTs (t : Nat) (f : Task → Task) : (s.updTask t f).alarmTs = s.alarmTs := rfl
@[simp] theorem updTask_tickPend (t : Nat) (f : Task → Task) : (s.updTask t f).tickPend = s.tickPend := rfl
@[simp] theorem updTask_queue (t : Nat) (f : Task → Task) : (s.updTask t f).queue = s.queue := rfl
@[simp] theorem updTask_fault (t : Nat) (f : Task → Task) : (s.updTask t f).fault = s.fault := rfl
@[simp] theorem updTask_choices (t : Nat) (f : Task → Task) : (s.updTask t f).choices = s.choices := rfl
@[simp] theorem updTask_choiceIndex (t : Nat) (f : Task → Task) : (s.updTask t f).choiceIndex = s.choiceIndex := rfl

/-! ### State.setReg -/

@[simp] theorem setReg_params (t : Nat) (r : RegNum) (v : Word) : (s.setReg t r v).params = s.params := rfl
@[simp] theorem setReg_tasks (t : Nat) (r : RegNum) (v : Word) : (s.setReg t r v).tasks = s.tasks.modify t fun k => k.setReg r v := rfl
@[simp] theorem setReg_current (t : Nat) (r : RegNum) (v : Word) : (s.setReg t r v).current = s.current := rfl
@[simp] theorem setReg_chans (t : Nat) (r : RegNum) (v : Word) : (s.setReg t r v).chans = s.chans := rfl
@[simp] theorem setReg_i2cCells (t : Nat) (r : RegNum) (v : Word) : (s.setReg t r v).i2cCells = s.i2cCells := rfl
@[simp] theorem setReg_rngCells (t : Nat) (r : RegNum) (v : Word) : (s.setReg t r v).rngCells = s.rngCells := rfl
@[simp] theorem setReg_wdtCells (t : Nat) (r : RegNum) (v : Word) : (s.setReg t r v).wdtCells = s.wdtCells := rfl
@[simp] theorem setReg_espiCells (t : Nat) (r : RegNum) (v : Word) : (s.setReg t r v).espiCells = s.espiCells := rfl
@[simp] theorem setReg_mem (t : Nat) (r : RegNum) (v : Word) : (s.setReg t r v).mem = s.mem := rfl
@[simp] theorem setReg_hist (t : Nat) (r : RegNum) (v : Word) : (s.setReg t r v).hist = s.hist := rfl
@[simp] theorem setReg_period (t : Nat) (r : RegNum) (v : Word) : (s.setReg t r v).period = s.period := rfl
@[simp] theorem setReg_count (t : Nat) (r : RegNum) (v : Word) : (s.setReg t r v).count = s.count := rfl
@[simp] theorem setReg_compare (t : Nat) (r : RegNum) (v : Word) : (s.setReg t r v).compare = s.compare := rfl
@[simp] theorem setReg_alarmEn (t : Nat) (r : RegNum) (v : Word) : (s.setReg t r v).alarmEn = s.alarmEn := rfl
@[simp] theorem setReg_alarmTs (t : Nat) (r : RegNum) (v : Word) : (s.setReg t r v).alarmTs = s.alarmTs := rfl
@[simp] theorem setReg_tickPend (t : Nat) (r : RegNum) (v : Word) : (s.setReg t r v).tickPend = s.tickPend := rfl
@[simp] theorem setReg_queue (t : Nat) (r : RegNum) (v : Word) : (s.setReg t r v).queue = s.queue := rfl
@[simp] theorem setReg_fault (t : Nat) (r : RegNum) (v : Word) : (s.setReg t r v).fault = s.fault := rfl
@[simp] theorem setReg_choices (t : Nat) (r : RegNum) (v : Word) : (s.setReg t r v).choices = s.choices := rfl
@[simp] theorem setReg_choiceIndex (t : Nat) (r : RegNum) (v : Word) : (s.setReg t r v).choiceIndex = s.choiceIndex := rfl

/-! ### State.setCp -/

@[simp] theorem setCp_params (t n : Nat) : (s.setCp t n).params = s.params := rfl
@[simp] theorem setCp_current (t n : Nat) : (s.setCp t n).current = s.current := rfl
@[simp] theorem setCp_chans (t n : Nat) : (s.setCp t n).chans = s.chans := rfl
@[simp] theorem setCp_i2cCells (t n : Nat) : (s.setCp t n).i2cCells = s.i2cCells := rfl
@[simp] theorem setCp_rngCells (t n : Nat) : (s.setCp t n).rngCells = s.rngCells := rfl
@[simp] theorem setCp_wdtCells (t n : Nat) : (s.setCp t n).wdtCells = s.wdtCells := rfl
@[simp] theorem setCp_espiCells (t n : Nat) : (s.setCp t n).espiCells = s.espiCells := rfl
@[simp] theorem setCp_mem (t n : Nat) : (s.setCp t n).mem = s.mem := rfl
@[simp] theorem setCp_hist (t n : Nat) : (s.setCp t n).hist = s.hist := rfl
@[simp] theorem setCp_period (t n : Nat) : (s.setCp t n).period = s.period := rfl
@[simp] theorem setCp_count (t n : Nat) : (s.setCp t n).count = s.count := rfl
@[simp] theorem setCp_compare (t n : Nat) : (s.setCp t n).compare = s.compare := rfl
@[simp] theorem setCp_alarmEn (t n : Nat) : (s.setCp t n).alarmEn = s.alarmEn := rfl
@[simp] theorem setCp_alarmTs (t n : Nat) : (s.setCp t n).alarmTs = s.alarmTs := rfl
@[simp] theorem setCp_tickPend (t n : Nat) : (s.setCp t n).tickPend = s.tickPend := rfl
@[simp] theorem setCp_queue (t n : Nat) : (s.setCp t n).queue = s.queue := rfl
@[simp] theorem setCp_fault (t n : Nat) : (s.setCp t n).fault = s.fault := rfl
@[simp] theorem setCp_choices (t n : Nat) : (s.setCp t n).choices = s.choices := rfl
@[simp] theorem setCp_choiceIndex (t n : Nat) : (s.setCp t n).choiceIndex = s.choiceIndex := rfl

/-! ### State.advance -/

@[simp] theorem advance_params (t n : Nat) : (s.advance t n).params = s.params := rfl
@[simp] theorem advance_current (t n : Nat) : (s.advance t n).current = s.current := rfl
@[simp] theorem advance_chans (t n : Nat) : (s.advance t n).chans = s.chans := rfl
@[simp] theorem advance_i2cCells (t n : Nat) : (s.advance t n).i2cCells = s.i2cCells := rfl
@[simp] theorem advance_rngCells (t n : Nat) : (s.advance t n).rngCells = s.rngCells := rfl
@[simp] theorem advance_wdtCells (t n : Nat) : (s.advance t n).wdtCells = s.wdtCells := rfl
@[simp] theorem advance_espiCells (t n : Nat) : (s.advance t n).espiCells = s.espiCells := rfl
@[simp] theorem advance_mem (t n : Nat) : (s.advance t n).mem = s.mem := rfl
@[simp] theorem advance_hist (t n : Nat) : (s.advance t n).hist = s.hist := rfl
@[simp] theorem advance_period (t n : Nat) : (s.advance t n).period = s.period := rfl
@[simp] theorem advance_count (t n : Nat) : (s.advance t n).count = s.count := rfl
@[simp] theorem advance_compare (t n : Nat) : (s.advance t n).compare = s.compare := rfl
@[simp] theorem advance_alarmEn (t n : Nat) : (s.advance t n).alarmEn = s.alarmEn := rfl
@[simp] theorem advance_alarmTs (t n : Nat) : (s.advance t n).alarmTs = s.alarmTs := rfl
@[simp] theorem advance_tickPend (t n : Nat) : (s.advance t n).tickPend = s.tickPend := rfl
@[simp] theorem advance_queue (t n : Nat) : (s.advance t n).queue = s.queue := rfl
@[simp] theorem advance_fault (t n : Nat) : (s.advance t n).fault = s.fault := rfl
@[simp] theorem advance_choices (t n : Nat) : (s.advance t n).choices = s.choices := rfl
@[simp] theorem advance_choiceIndex (t n : Nat) : (s.advance t n).choiceIndex = s.choiceIndex := rfl

/-! ### State.setPhase -/

@[simp] theorem setPhase_params (t : Nat) (p : Fin 4) : (s.setPhase t p).params = s.params := rfl
@[simp] theorem setPhase_current (t : Nat) (p : Fin 4) : (s.setPhase t p).current = s.current := rfl
@[simp] theorem setPhase_chans (t : Nat) (p : Fin 4) : (s.setPhase t p).chans = s.chans := rfl
@[simp] theorem setPhase_i2cCells (t : Nat) (p : Fin 4) : (s.setPhase t p).i2cCells = s.i2cCells := rfl
@[simp] theorem setPhase_rngCells (t : Nat) (p : Fin 4) : (s.setPhase t p).rngCells = s.rngCells := rfl
@[simp] theorem setPhase_wdtCells (t : Nat) (p : Fin 4) : (s.setPhase t p).wdtCells = s.wdtCells := rfl
@[simp] theorem setPhase_espiCells (t : Nat) (p : Fin 4) : (s.setPhase t p).espiCells = s.espiCells := rfl
@[simp] theorem setPhase_mem (t : Nat) (p : Fin 4) : (s.setPhase t p).mem = s.mem := rfl
@[simp] theorem setPhase_hist (t : Nat) (p : Fin 4) : (s.setPhase t p).hist = s.hist := rfl
@[simp] theorem setPhase_period (t : Nat) (p : Fin 4) : (s.setPhase t p).period = s.period := rfl
@[simp] theorem setPhase_count (t : Nat) (p : Fin 4) : (s.setPhase t p).count = s.count := rfl
@[simp] theorem setPhase_compare (t : Nat) (p : Fin 4) : (s.setPhase t p).compare = s.compare := rfl
@[simp] theorem setPhase_alarmEn (t : Nat) (p : Fin 4) : (s.setPhase t p).alarmEn = s.alarmEn := rfl
@[simp] theorem setPhase_alarmTs (t : Nat) (p : Fin 4) : (s.setPhase t p).alarmTs = s.alarmTs := rfl
@[simp] theorem setPhase_tickPend (t : Nat) (p : Fin 4) : (s.setPhase t p).tickPend = s.tickPend := rfl
@[simp] theorem setPhase_queue (t : Nat) (p : Fin 4) : (s.setPhase t p).queue = s.queue := rfl
@[simp] theorem setPhase_fault (t : Nat) (p : Fin 4) : (s.setPhase t p).fault = s.fault := rfl
@[simp] theorem setPhase_choices (t : Nat) (p : Fin 4) : (s.setPhase t p).choices = s.choices := rfl
@[simp] theorem setPhase_choiceIndex (t : Nat) (p : Fin 4) : (s.setPhase t p).choiceIndex = s.choiceIndex := rfl

/-! ### State.setLatch -/

@[simp] theorem setLatch_params (t : Nat) (v : Word32) : (s.setLatch t v).params = s.params := rfl
@[simp] theorem setLatch_current (t : Nat) (v : Word32) : (s.setLatch t v).current = s.current := rfl
@[simp] theorem setLatch_chans (t : Nat) (v : Word32) : (s.setLatch t v).chans = s.chans := rfl
@[simp] theorem setLatch_i2cCells (t : Nat) (v : Word32) : (s.setLatch t v).i2cCells = s.i2cCells := rfl
@[simp] theorem setLatch_rngCells (t : Nat) (v : Word32) : (s.setLatch t v).rngCells = s.rngCells := rfl
@[simp] theorem setLatch_wdtCells (t : Nat) (v : Word32) : (s.setLatch t v).wdtCells = s.wdtCells := rfl
@[simp] theorem setLatch_espiCells (t : Nat) (v : Word32) : (s.setLatch t v).espiCells = s.espiCells := rfl
@[simp] theorem setLatch_mem (t : Nat) (v : Word32) : (s.setLatch t v).mem = s.mem := rfl
@[simp] theorem setLatch_hist (t : Nat) (v : Word32) : (s.setLatch t v).hist = s.hist := rfl
@[simp] theorem setLatch_period (t : Nat) (v : Word32) : (s.setLatch t v).period = s.period := rfl
@[simp] theorem setLatch_count (t : Nat) (v : Word32) : (s.setLatch t v).count = s.count := rfl
@[simp] theorem setLatch_compare (t : Nat) (v : Word32) : (s.setLatch t v).compare = s.compare := rfl
@[simp] theorem setLatch_alarmEn (t : Nat) (v : Word32) : (s.setLatch t v).alarmEn = s.alarmEn := rfl
@[simp] theorem setLatch_alarmTs (t : Nat) (v : Word32) : (s.setLatch t v).alarmTs = s.alarmTs := rfl
@[simp] theorem setLatch_tickPend (t : Nat) (v : Word32) : (s.setLatch t v).tickPend = s.tickPend := rfl
@[simp] theorem setLatch_queue (t : Nat) (v : Word32) : (s.setLatch t v).queue = s.queue := rfl
@[simp] theorem setLatch_fault (t : Nat) (v : Word32) : (s.setLatch t v).fault = s.fault := rfl
@[simp] theorem setLatch_choices (t : Nat) (v : Word32) : (s.setLatch t v).choices = s.choices := rfl
@[simp] theorem setLatch_choiceIndex (t : Nat) (v : Word32) : (s.setLatch t v).choiceIndex = s.choiceIndex := rfl

/-! ### State.setTstate -/

@[simp] theorem setTstate_params (t : Nat) (v : TaskState) : (s.setTstate t v).params = s.params := rfl
@[simp] theorem setTstate_current (t : Nat) (v : TaskState) : (s.setTstate t v).current = s.current := rfl
@[simp] theorem setTstate_chans (t : Nat) (v : TaskState) : (s.setTstate t v).chans = s.chans := rfl
@[simp] theorem setTstate_i2cCells (t : Nat) (v : TaskState) : (s.setTstate t v).i2cCells = s.i2cCells := rfl
@[simp] theorem setTstate_rngCells (t : Nat) (v : TaskState) : (s.setTstate t v).rngCells = s.rngCells := rfl
@[simp] theorem setTstate_wdtCells (t : Nat) (v : TaskState) : (s.setTstate t v).wdtCells = s.wdtCells := rfl
@[simp] theorem setTstate_espiCells (t : Nat) (v : TaskState) : (s.setTstate t v).espiCells = s.espiCells := rfl
@[simp] theorem setTstate_mem (t : Nat) (v : TaskState) : (s.setTstate t v).mem = s.mem := rfl
@[simp] theorem setTstate_hist (t : Nat) (v : TaskState) : (s.setTstate t v).hist = s.hist := rfl
@[simp] theorem setTstate_period (t : Nat) (v : TaskState) : (s.setTstate t v).period = s.period := rfl
@[simp] theorem setTstate_count (t : Nat) (v : TaskState) : (s.setTstate t v).count = s.count := rfl
@[simp] theorem setTstate_compare (t : Nat) (v : TaskState) : (s.setTstate t v).compare = s.compare := rfl
@[simp] theorem setTstate_alarmEn (t : Nat) (v : TaskState) : (s.setTstate t v).alarmEn = s.alarmEn := rfl
@[simp] theorem setTstate_alarmTs (t : Nat) (v : TaskState) : (s.setTstate t v).alarmTs = s.alarmTs := rfl
@[simp] theorem setTstate_tickPend (t : Nat) (v : TaskState) : (s.setTstate t v).tickPend = s.tickPend := rfl
@[simp] theorem setTstate_queue (t : Nat) (v : TaskState) : (s.setTstate t v).queue = s.queue := rfl
@[simp] theorem setTstate_fault (t : Nat) (v : TaskState) : (s.setTstate t v).fault = s.fault := rfl
@[simp] theorem setTstate_choices (t : Nat) (v : TaskState) : (s.setTstate t v).choices = s.choices := rfl
@[simp] theorem setTstate_choiceIndex (t : Nat) (v : TaskState) : (s.setTstate t v).choiceIndex = s.choiceIndex := rfl

/-! ### State.setReady -/

@[simp] theorem setReady_params (t : Nat) (v : Bool) : (s.setReady t v).params = s.params := rfl
@[simp] theorem setReady_current (t : Nat) (v : Bool) : (s.setReady t v).current = s.current := rfl
@[simp] theorem setReady_chans (t : Nat) (v : Bool) : (s.setReady t v).chans = s.chans := rfl
@[simp] theorem setReady_i2cCells (t : Nat) (v : Bool) : (s.setReady t v).i2cCells = s.i2cCells := rfl
@[simp] theorem setReady_rngCells (t : Nat) (v : Bool) : (s.setReady t v).rngCells = s.rngCells := rfl
@[simp] theorem setReady_wdtCells (t : Nat) (v : Bool) : (s.setReady t v).wdtCells = s.wdtCells := rfl
@[simp] theorem setReady_espiCells (t : Nat) (v : Bool) : (s.setReady t v).espiCells = s.espiCells := rfl
@[simp] theorem setReady_mem (t : Nat) (v : Bool) : (s.setReady t v).mem = s.mem := rfl
@[simp] theorem setReady_hist (t : Nat) (v : Bool) : (s.setReady t v).hist = s.hist := rfl
@[simp] theorem setReady_period (t : Nat) (v : Bool) : (s.setReady t v).period = s.period := rfl
@[simp] theorem setReady_count (t : Nat) (v : Bool) : (s.setReady t v).count = s.count := rfl
@[simp] theorem setReady_compare (t : Nat) (v : Bool) : (s.setReady t v).compare = s.compare := rfl
@[simp] theorem setReady_alarmEn (t : Nat) (v : Bool) : (s.setReady t v).alarmEn = s.alarmEn := rfl
@[simp] theorem setReady_alarmTs (t : Nat) (v : Bool) : (s.setReady t v).alarmTs = s.alarmTs := rfl
@[simp] theorem setReady_tickPend (t : Nat) (v : Bool) : (s.setReady t v).tickPend = s.tickPend := rfl
@[simp] theorem setReady_queue (t : Nat) (v : Bool) : (s.setReady t v).queue = s.queue := rfl
@[simp] theorem setReady_fault (t : Nat) (v : Bool) : (s.setReady t v).fault = s.fault := rfl
@[simp] theorem setReady_choices (t : Nat) (v : Bool) : (s.setReady t v).choices = s.choices := rfl
@[simp] theorem setReady_choiceIndex (t : Nat) (v : Bool) : (s.setReady t v).choiceIndex = s.choiceIndex := rfl

/-! ### State.ready -/

@[simp] theorem ready_params (h : Handle) : (s.ready h).params = s.params := rfl
@[simp] theorem ready_current (h : Handle) : (s.ready h).current = s.current := rfl
@[simp] theorem ready_chans (h : Handle) : (s.ready h).chans = s.chans := rfl
@[simp] theorem ready_i2cCells (h : Handle) : (s.ready h).i2cCells = s.i2cCells := rfl
@[simp] theorem ready_rngCells (h : Handle) : (s.ready h).rngCells = s.rngCells := rfl
@[simp] theorem ready_wdtCells (h : Handle) : (s.ready h).wdtCells = s.wdtCells := rfl
@[simp] theorem ready_espiCells (h : Handle) : (s.ready h).espiCells = s.espiCells := rfl
@[simp] theorem ready_mem (h : Handle) : (s.ready h).mem = s.mem := rfl
@[simp] theorem ready_hist (h : Handle) : (s.ready h).hist = s.hist := rfl
@[simp] theorem ready_period (h : Handle) : (s.ready h).period = s.period := rfl
@[simp] theorem ready_count (h : Handle) : (s.ready h).count = s.count := rfl
@[simp] theorem ready_compare (h : Handle) : (s.ready h).compare = s.compare := rfl
@[simp] theorem ready_alarmEn (h : Handle) : (s.ready h).alarmEn = s.alarmEn := rfl
@[simp] theorem ready_alarmTs (h : Handle) : (s.ready h).alarmTs = s.alarmTs := rfl
@[simp] theorem ready_tickPend (h : Handle) : (s.ready h).tickPend = s.tickPend := rfl
@[simp] theorem ready_queue (h : Handle) : (s.ready h).queue = s.queue := rfl
@[simp] theorem ready_fault (h : Handle) : (s.ready h).fault = s.fault := rfl
@[simp] theorem ready_choices (h : Handle) : (s.ready h).choices = s.choices := rfl
@[simp] theorem ready_choiceIndex (h : Handle) : (s.ready h).choiceIndex = s.choiceIndex := rfl

/-! ### State.setCurrent -/

@[simp] theorem setCurrent_params (c : Option Nat) : (s.setCurrent c).params = s.params := rfl
@[simp] theorem setCurrent_tasks (c : Option Nat) : (s.setCurrent c).tasks = s.tasks := rfl
@[simp] theorem setCurrent_current (c : Option Nat) : (s.setCurrent c).current = c := rfl
@[simp] theorem setCurrent_chans (c : Option Nat) : (s.setCurrent c).chans = s.chans := rfl
@[simp] theorem setCurrent_i2cCells (c : Option Nat) : (s.setCurrent c).i2cCells = s.i2cCells := rfl
@[simp] theorem setCurrent_rngCells (c : Option Nat) : (s.setCurrent c).rngCells = s.rngCells := rfl
@[simp] theorem setCurrent_wdtCells (c : Option Nat) : (s.setCurrent c).wdtCells = s.wdtCells := rfl
@[simp] theorem setCurrent_espiCells (c : Option Nat) : (s.setCurrent c).espiCells = s.espiCells := rfl
@[simp] theorem setCurrent_mem (c : Option Nat) : (s.setCurrent c).mem = s.mem := rfl
@[simp] theorem setCurrent_hist (c : Option Nat) : (s.setCurrent c).hist = s.hist := rfl
@[simp] theorem setCurrent_period (c : Option Nat) : (s.setCurrent c).period = s.period := rfl
@[simp] theorem setCurrent_count (c : Option Nat) : (s.setCurrent c).count = s.count := rfl
@[simp] theorem setCurrent_compare (c : Option Nat) : (s.setCurrent c).compare = s.compare := rfl
@[simp] theorem setCurrent_alarmEn (c : Option Nat) : (s.setCurrent c).alarmEn = s.alarmEn := rfl
@[simp] theorem setCurrent_alarmTs (c : Option Nat) : (s.setCurrent c).alarmTs = s.alarmTs := rfl
@[simp] theorem setCurrent_tickPend (c : Option Nat) : (s.setCurrent c).tickPend = s.tickPend := rfl
@[simp] theorem setCurrent_queue (c : Option Nat) : (s.setCurrent c).queue = s.queue := rfl
@[simp] theorem setCurrent_fault (c : Option Nat) : (s.setCurrent c).fault = s.fault := rfl
@[simp] theorem setCurrent_choices (c : Option Nat) : (s.setCurrent c).choices = s.choices := rfl
@[simp] theorem setCurrent_choiceIndex (c : Option Nat) : (s.setCurrent c).choiceIndex = s.choiceIndex := rfl

/-! ### State.updChan -/

@[simp] theorem updChan_params (ch : Nat) (f : Channel → Channel) : (s.updChan ch f).params = s.params := rfl
@[simp] theorem updChan_tasks (ch : Nat) (f : Channel → Channel) : (s.updChan ch f).tasks = s.tasks := rfl
@[simp] theorem updChan_current (ch : Nat) (f : Channel → Channel) : (s.updChan ch f).current = s.current := rfl
@[simp] theorem updChan_chans (ch : Nat) (f : Channel → Channel) : (s.updChan ch f).chans = s.chans.modify ch f := rfl
@[simp] theorem updChan_i2cCells (ch : Nat) (f : Channel → Channel) : (s.updChan ch f).i2cCells = s.i2cCells := rfl
@[simp] theorem updChan_rngCells (ch : Nat) (f : Channel → Channel) : (s.updChan ch f).rngCells = s.rngCells := rfl
@[simp] theorem updChan_wdtCells (ch : Nat) (f : Channel → Channel) : (s.updChan ch f).wdtCells = s.wdtCells := rfl
@[simp] theorem updChan_espiCells (ch : Nat) (f : Channel → Channel) : (s.updChan ch f).espiCells = s.espiCells := rfl
@[simp] theorem updChan_mem (ch : Nat) (f : Channel → Channel) : (s.updChan ch f).mem = s.mem := rfl
@[simp] theorem updChan_hist (ch : Nat) (f : Channel → Channel) : (s.updChan ch f).hist = s.hist := rfl
@[simp] theorem updChan_period (ch : Nat) (f : Channel → Channel) : (s.updChan ch f).period = s.period := rfl
@[simp] theorem updChan_count (ch : Nat) (f : Channel → Channel) : (s.updChan ch f).count = s.count := rfl
@[simp] theorem updChan_compare (ch : Nat) (f : Channel → Channel) : (s.updChan ch f).compare = s.compare := rfl
@[simp] theorem updChan_alarmEn (ch : Nat) (f : Channel → Channel) : (s.updChan ch f).alarmEn = s.alarmEn := rfl
@[simp] theorem updChan_alarmTs (ch : Nat) (f : Channel → Channel) : (s.updChan ch f).alarmTs = s.alarmTs := rfl
@[simp] theorem updChan_tickPend (ch : Nat) (f : Channel → Channel) : (s.updChan ch f).tickPend = s.tickPend := rfl
@[simp] theorem updChan_queue (ch : Nat) (f : Channel → Channel) : (s.updChan ch f).queue = s.queue := rfl
@[simp] theorem updChan_fault (ch : Nat) (f : Channel → Channel) : (s.updChan ch f).fault = s.fault := rfl
@[simp] theorem updChan_choices (ch : Nat) (f : Channel → Channel) : (s.updChan ch f).choices = s.choices := rfl
@[simp] theorem updChan_choiceIndex (ch : Nat) (f : Channel → Channel) : (s.updChan ch f).choiceIndex = s.choiceIndex := rfl

/-! ### State.record -/

@[simp] theorem record_params (e : Event) : (s.record e).params = s.params := rfl
@[simp] theorem record_tasks (e : Event) : (s.record e).tasks = s.tasks := rfl
@[simp] theorem record_current (e : Event) : (s.record e).current = s.current := rfl
@[simp] theorem record_chans (e : Event) : (s.record e).chans = s.chans := rfl
@[simp] theorem record_i2cCells (e : Event) : (s.record e).i2cCells = s.i2cCells := rfl
@[simp] theorem record_rngCells (e : Event) : (s.record e).rngCells = s.rngCells := rfl
@[simp] theorem record_wdtCells (e : Event) : (s.record e).wdtCells = s.wdtCells := rfl
@[simp] theorem record_espiCells (e : Event) : (s.record e).espiCells = s.espiCells := rfl
@[simp] theorem record_mem (e : Event) : (s.record e).mem = s.mem := rfl
@[simp] theorem record_hist (e : Event) : (s.record e).hist = s.hist ++ [e] := rfl
@[simp] theorem record_period (e : Event) : (s.record e).period = s.period := rfl
@[simp] theorem record_count (e : Event) : (s.record e).count = s.count := rfl
@[simp] theorem record_compare (e : Event) : (s.record e).compare = s.compare := rfl
@[simp] theorem record_alarmEn (e : Event) : (s.record e).alarmEn = s.alarmEn := rfl
@[simp] theorem record_alarmTs (e : Event) : (s.record e).alarmTs = s.alarmTs := rfl
@[simp] theorem record_tickPend (e : Event) : (s.record e).tickPend = s.tickPend := rfl
@[simp] theorem record_queue (e : Event) : (s.record e).queue = s.queue := rfl
@[simp] theorem record_fault (e : Event) : (s.record e).fault = s.fault := rfl
@[simp] theorem record_choices (e : Event) : (s.record e).choices = s.choices := rfl
@[simp] theorem record_choiceIndex (e : Event) : (s.record e).choiceIndex = s.choiceIndex := rfl

/-! ### State.setMem -/

@[simp] theorem setMem_params (m : Memory) : (s.setMem m).params = s.params := rfl
@[simp] theorem setMem_tasks (m : Memory) : (s.setMem m).tasks = s.tasks := rfl
@[simp] theorem setMem_current (m : Memory) : (s.setMem m).current = s.current := rfl
@[simp] theorem setMem_chans (m : Memory) : (s.setMem m).chans = s.chans := rfl
@[simp] theorem setMem_i2cCells (m : Memory) : (s.setMem m).i2cCells = s.i2cCells := rfl
@[simp] theorem setMem_rngCells (m : Memory) : (s.setMem m).rngCells = s.rngCells := rfl
@[simp] theorem setMem_wdtCells (m : Memory) : (s.setMem m).wdtCells = s.wdtCells := rfl
@[simp] theorem setMem_espiCells (m : Memory) : (s.setMem m).espiCells = s.espiCells := rfl
@[simp] theorem setMem_mem (m : Memory) : (s.setMem m).mem = m := rfl
@[simp] theorem setMem_hist (m : Memory) : (s.setMem m).hist = s.hist := rfl
@[simp] theorem setMem_period (m : Memory) : (s.setMem m).period = s.period := rfl
@[simp] theorem setMem_count (m : Memory) : (s.setMem m).count = s.count := rfl
@[simp] theorem setMem_compare (m : Memory) : (s.setMem m).compare = s.compare := rfl
@[simp] theorem setMem_alarmEn (m : Memory) : (s.setMem m).alarmEn = s.alarmEn := rfl
@[simp] theorem setMem_alarmTs (m : Memory) : (s.setMem m).alarmTs = s.alarmTs := rfl
@[simp] theorem setMem_tickPend (m : Memory) : (s.setMem m).tickPend = s.tickPend := rfl
@[simp] theorem setMem_queue (m : Memory) : (s.setMem m).queue = s.queue := rfl
@[simp] theorem setMem_fault (m : Memory) : (s.setMem m).fault = s.fault := rfl
@[simp] theorem setMem_choices (m : Memory) : (s.setMem m).choices = s.choices := rfl
@[simp] theorem setMem_choiceIndex (m : Memory) : (s.setMem m).choiceIndex = s.choiceIndex := rfl

/-! ### State.setQueue -/

@[simp] theorem setQueue_params (q : List QueueEntry) : (s.setQueue q).params = s.params := rfl
@[simp] theorem setQueue_tasks (q : List QueueEntry) : (s.setQueue q).tasks = s.tasks := rfl
@[simp] theorem setQueue_current (q : List QueueEntry) : (s.setQueue q).current = s.current := rfl
@[simp] theorem setQueue_chans (q : List QueueEntry) : (s.setQueue q).chans = s.chans := rfl
@[simp] theorem setQueue_i2cCells (q : List QueueEntry) : (s.setQueue q).i2cCells = s.i2cCells := rfl
@[simp] theorem setQueue_rngCells (q : List QueueEntry) : (s.setQueue q).rngCells = s.rngCells := rfl
@[simp] theorem setQueue_wdtCells (q : List QueueEntry) : (s.setQueue q).wdtCells = s.wdtCells := rfl
@[simp] theorem setQueue_espiCells (q : List QueueEntry) : (s.setQueue q).espiCells = s.espiCells := rfl
@[simp] theorem setQueue_mem (q : List QueueEntry) : (s.setQueue q).mem = s.mem := rfl
@[simp] theorem setQueue_hist (q : List QueueEntry) : (s.setQueue q).hist = s.hist := rfl
@[simp] theorem setQueue_period (q : List QueueEntry) : (s.setQueue q).period = s.period := rfl
@[simp] theorem setQueue_count (q : List QueueEntry) : (s.setQueue q).count = s.count := rfl
@[simp] theorem setQueue_compare (q : List QueueEntry) : (s.setQueue q).compare = s.compare := rfl
@[simp] theorem setQueue_alarmEn (q : List QueueEntry) : (s.setQueue q).alarmEn = s.alarmEn := rfl
@[simp] theorem setQueue_alarmTs (q : List QueueEntry) : (s.setQueue q).alarmTs = s.alarmTs := rfl
@[simp] theorem setQueue_tickPend (q : List QueueEntry) : (s.setQueue q).tickPend = s.tickPend := rfl
@[simp] theorem setQueue_queue (q : List QueueEntry) : (s.setQueue q).queue = q := rfl
@[simp] theorem setQueue_fault (q : List QueueEntry) : (s.setQueue q).fault = s.fault := rfl
@[simp] theorem setQueue_choices (q : List QueueEntry) : (s.setQueue q).choices = s.choices := rfl
@[simp] theorem setQueue_choiceIndex (q : List QueueEntry) : (s.setQueue q).choiceIndex = s.choiceIndex := rfl

/-! ### State.setAlarmRegs -/

@[simp] theorem setAlarmRegs_params (en : Bool) (ts : Option Word) : (s.setAlarmRegs en ts).params = s.params := rfl
@[simp] theorem setAlarmRegs_tasks (en : Bool) (ts : Option Word) : (s.setAlarmRegs en ts).tasks = s.tasks := rfl
@[simp] theorem setAlarmRegs_current (en : Bool) (ts : Option Word) : (s.setAlarmRegs en ts).current = s.current := rfl
@[simp] theorem setAlarmRegs_chans (en : Bool) (ts : Option Word) : (s.setAlarmRegs en ts).chans = s.chans := rfl
@[simp] theorem setAlarmRegs_i2cCells (en : Bool) (ts : Option Word) : (s.setAlarmRegs en ts).i2cCells = s.i2cCells := rfl
@[simp] theorem setAlarmRegs_rngCells (en : Bool) (ts : Option Word) : (s.setAlarmRegs en ts).rngCells = s.rngCells := rfl
@[simp] theorem setAlarmRegs_wdtCells (en : Bool) (ts : Option Word) : (s.setAlarmRegs en ts).wdtCells = s.wdtCells := rfl
@[simp] theorem setAlarmRegs_espiCells (en : Bool) (ts : Option Word) : (s.setAlarmRegs en ts).espiCells = s.espiCells := rfl
@[simp] theorem setAlarmRegs_mem (en : Bool) (ts : Option Word) : (s.setAlarmRegs en ts).mem = s.mem := rfl
@[simp] theorem setAlarmRegs_hist (en : Bool) (ts : Option Word) : (s.setAlarmRegs en ts).hist = s.hist := rfl
@[simp] theorem setAlarmRegs_period (en : Bool) (ts : Option Word) : (s.setAlarmRegs en ts).period = s.period := rfl
@[simp] theorem setAlarmRegs_count (en : Bool) (ts : Option Word) : (s.setAlarmRegs en ts).count = s.count := rfl
@[simp] theorem setAlarmRegs_compare (en : Bool) (ts : Option Word) : (s.setAlarmRegs en ts).compare = s.compare := rfl
@[simp] theorem setAlarmRegs_alarmEn (en : Bool) (ts : Option Word) : (s.setAlarmRegs en ts).alarmEn = en := rfl
@[simp] theorem setAlarmRegs_alarmTs (en : Bool) (ts : Option Word) : (s.setAlarmRegs en ts).alarmTs = ts := rfl
@[simp] theorem setAlarmRegs_tickPend (en : Bool) (ts : Option Word) : (s.setAlarmRegs en ts).tickPend = s.tickPend := rfl
@[simp] theorem setAlarmRegs_queue (en : Bool) (ts : Option Word) : (s.setAlarmRegs en ts).queue = s.queue := rfl
@[simp] theorem setAlarmRegs_fault (en : Bool) (ts : Option Word) : (s.setAlarmRegs en ts).fault = s.fault := rfl
@[simp] theorem setAlarmRegs_choices (en : Bool) (ts : Option Word) : (s.setAlarmRegs en ts).choices = s.choices := rfl
@[simp] theorem setAlarmRegs_choiceIndex (en : Bool) (ts : Option Word) : (s.setAlarmRegs en ts).choiceIndex = s.choiceIndex := rfl

/-! ### State.setCompare -/

@[simp] theorem setCompare_params (v : BitVec 31) : (s.setCompare v).params = s.params := rfl
@[simp] theorem setCompare_tasks (v : BitVec 31) : (s.setCompare v).tasks = s.tasks := rfl
@[simp] theorem setCompare_current (v : BitVec 31) : (s.setCompare v).current = s.current := rfl
@[simp] theorem setCompare_chans (v : BitVec 31) : (s.setCompare v).chans = s.chans := rfl
@[simp] theorem setCompare_i2cCells (v : BitVec 31) : (s.setCompare v).i2cCells = s.i2cCells := rfl
@[simp] theorem setCompare_rngCells (v : BitVec 31) : (s.setCompare v).rngCells = s.rngCells := rfl
@[simp] theorem setCompare_wdtCells (v : BitVec 31) : (s.setCompare v).wdtCells = s.wdtCells := rfl
@[simp] theorem setCompare_espiCells (v : BitVec 31) : (s.setCompare v).espiCells = s.espiCells := rfl
@[simp] theorem setCompare_mem (v : BitVec 31) : (s.setCompare v).mem = s.mem := rfl
@[simp] theorem setCompare_hist (v : BitVec 31) : (s.setCompare v).hist = s.hist := rfl
@[simp] theorem setCompare_period (v : BitVec 31) : (s.setCompare v).period = s.period := rfl
@[simp] theorem setCompare_count (v : BitVec 31) : (s.setCompare v).count = s.count := rfl
@[simp] theorem setCompare_compare (v : BitVec 31) : (s.setCompare v).compare = v := rfl
@[simp] theorem setCompare_alarmEn (v : BitVec 31) : (s.setCompare v).alarmEn = s.alarmEn := rfl
@[simp] theorem setCompare_alarmTs (v : BitVec 31) : (s.setCompare v).alarmTs = s.alarmTs := rfl
@[simp] theorem setCompare_tickPend (v : BitVec 31) : (s.setCompare v).tickPend = s.tickPend := rfl
@[simp] theorem setCompare_queue (v : BitVec 31) : (s.setCompare v).queue = s.queue := rfl
@[simp] theorem setCompare_fault (v : BitVec 31) : (s.setCompare v).fault = s.fault := rfl
@[simp] theorem setCompare_choices (v : BitVec 31) : (s.setCompare v).choices = s.choices := rfl
@[simp] theorem setCompare_choiceIndex (v : BitVec 31) : (s.setCompare v).choiceIndex = s.choiceIndex := rfl

/-! ### State.setClock -/

@[simp] theorem setClock_params (p : BitVec 32) (c : Nat) : (s.setClock p c).params = s.params := rfl
@[simp] theorem setClock_tasks (p : BitVec 32) (c : Nat) : (s.setClock p c).tasks = s.tasks := rfl
@[simp] theorem setClock_current (p : BitVec 32) (c : Nat) : (s.setClock p c).current = s.current := rfl
@[simp] theorem setClock_chans (p : BitVec 32) (c : Nat) : (s.setClock p c).chans = s.chans := rfl
@[simp] theorem setClock_i2cCells (p : BitVec 32) (c : Nat) : (s.setClock p c).i2cCells = s.i2cCells := rfl
@[simp] theorem setClock_rngCells (p : BitVec 32) (c : Nat) : (s.setClock p c).rngCells = s.rngCells := rfl
@[simp] theorem setClock_wdtCells (p : BitVec 32) (c : Nat) : (s.setClock p c).wdtCells = s.wdtCells := rfl
@[simp] theorem setClock_espiCells (p : BitVec 32) (c : Nat) : (s.setClock p c).espiCells = s.espiCells := rfl
@[simp] theorem setClock_mem (p : BitVec 32) (c : Nat) : (s.setClock p c).mem = s.mem := rfl
@[simp] theorem setClock_hist (p : BitVec 32) (c : Nat) : (s.setClock p c).hist = s.hist := rfl
@[simp] theorem setClock_period (p : BitVec 32) (c : Nat) : (s.setClock p c).period = p := rfl
@[simp] theorem setClock_count (p : BitVec 32) (c : Nat) : (s.setClock p c).count = (p.extractLsb' 0 1) ++ BitVec.ofNat 31 c := rfl
@[simp] theorem setClock_compare (p : BitVec 32) (c : Nat) : (s.setClock p c).compare = s.compare := rfl
@[simp] theorem setClock_alarmEn (p : BitVec 32) (c : Nat) : (s.setClock p c).alarmEn = s.alarmEn := rfl
@[simp] theorem setClock_alarmTs (p : BitVec 32) (c : Nat) : (s.setClock p c).alarmTs = s.alarmTs := rfl
@[simp] theorem setClock_tickPend (p : BitVec 32) (c : Nat) : (s.setClock p c).tickPend = s.tickPend := rfl
@[simp] theorem setClock_queue (p : BitVec 32) (c : Nat) : (s.setClock p c).queue = s.queue := rfl
@[simp] theorem setClock_fault (p : BitVec 32) (c : Nat) : (s.setClock p c).fault = s.fault := rfl
@[simp] theorem setClock_choices (p : BitVec 32) (c : Nat) : (s.setClock p c).choices = s.choices := rfl
@[simp] theorem setClock_choiceIndex (p : BitVec 32) (c : Nat) : (s.setClock p c).choiceIndex = s.choiceIndex := rfl

/-! ### State.setTickPend -/

@[simp] theorem setTickPend_params (v : Bool) : (s.setTickPend v).params = s.params := rfl
@[simp] theorem setTickPend_tasks (v : Bool) : (s.setTickPend v).tasks = s.tasks := rfl
@[simp] theorem setTickPend_current (v : Bool) : (s.setTickPend v).current = s.current := rfl
@[simp] theorem setTickPend_chans (v : Bool) : (s.setTickPend v).chans = s.chans := rfl
@[simp] theorem setTickPend_i2cCells (v : Bool) : (s.setTickPend v).i2cCells = s.i2cCells := rfl
@[simp] theorem setTickPend_rngCells (v : Bool) : (s.setTickPend v).rngCells = s.rngCells := rfl
@[simp] theorem setTickPend_wdtCells (v : Bool) : (s.setTickPend v).wdtCells = s.wdtCells := rfl
@[simp] theorem setTickPend_espiCells (v : Bool) : (s.setTickPend v).espiCells = s.espiCells := rfl
@[simp] theorem setTickPend_mem (v : Bool) : (s.setTickPend v).mem = s.mem := rfl
@[simp] theorem setTickPend_hist (v : Bool) : (s.setTickPend v).hist = s.hist := rfl
@[simp] theorem setTickPend_period (v : Bool) : (s.setTickPend v).period = s.period := rfl
@[simp] theorem setTickPend_count (v : Bool) : (s.setTickPend v).count = s.count := rfl
@[simp] theorem setTickPend_compare (v : Bool) : (s.setTickPend v).compare = s.compare := rfl
@[simp] theorem setTickPend_alarmEn (v : Bool) : (s.setTickPend v).alarmEn = s.alarmEn := rfl
@[simp] theorem setTickPend_alarmTs (v : Bool) : (s.setTickPend v).alarmTs = s.alarmTs := rfl
@[simp] theorem setTickPend_tickPend (v : Bool) : (s.setTickPend v).tickPend = v := rfl
@[simp] theorem setTickPend_queue (v : Bool) : (s.setTickPend v).queue = s.queue := rfl
@[simp] theorem setTickPend_fault (v : Bool) : (s.setTickPend v).fault = s.fault := rfl
@[simp] theorem setTickPend_choices (v : Bool) : (s.setTickPend v).choices = s.choices := rfl
@[simp] theorem setTickPend_choiceIndex (v : Bool) : (s.setTickPend v).choiceIndex = s.choiceIndex := rfl

/-! ### State.takeFault -/

@[simp] theorem takeFault_params (a : Agent) (f : BlockFault) : (s.takeFault a f).params = s.params := rfl
@[simp] theorem takeFault_tasks (a : Agent) (f : BlockFault) : (s.takeFault a f).tasks = s.tasks := rfl
@[simp] theorem takeFault_current (a : Agent) (f : BlockFault) : (s.takeFault a f).current = s.current := rfl
@[simp] theorem takeFault_chans (a : Agent) (f : BlockFault) : (s.takeFault a f).chans = s.chans := rfl
@[simp] theorem takeFault_i2cCells (a : Agent) (f : BlockFault) : (s.takeFault a f).i2cCells = s.i2cCells := rfl
@[simp] theorem takeFault_rngCells (a : Agent) (f : BlockFault) : (s.takeFault a f).rngCells = s.rngCells := rfl
@[simp] theorem takeFault_wdtCells (a : Agent) (f : BlockFault) : (s.takeFault a f).wdtCells = s.wdtCells := rfl
@[simp] theorem takeFault_espiCells (a : Agent) (f : BlockFault) : (s.takeFault a f).espiCells = s.espiCells := rfl
@[simp] theorem takeFault_mem (a : Agent) (f : BlockFault) : (s.takeFault a f).mem = s.mem := rfl
@[simp] theorem takeFault_hist (a : Agent) (f : BlockFault) : (s.takeFault a f).hist = s.hist := rfl
@[simp] theorem takeFault_period (a : Agent) (f : BlockFault) : (s.takeFault a f).period = s.period := rfl
@[simp] theorem takeFault_count (a : Agent) (f : BlockFault) : (s.takeFault a f).count = s.count := rfl
@[simp] theorem takeFault_compare (a : Agent) (f : BlockFault) : (s.takeFault a f).compare = s.compare := rfl
@[simp] theorem takeFault_alarmEn (a : Agent) (f : BlockFault) : (s.takeFault a f).alarmEn = s.alarmEn := rfl
@[simp] theorem takeFault_alarmTs (a : Agent) (f : BlockFault) : (s.takeFault a f).alarmTs = s.alarmTs := rfl
@[simp] theorem takeFault_tickPend (a : Agent) (f : BlockFault) : (s.takeFault a f).tickPend = s.tickPend := rfl
@[simp] theorem takeFault_queue (a : Agent) (f : BlockFault) : (s.takeFault a f).queue = s.queue := rfl
@[simp] theorem takeFault_choices (a : Agent) (f : BlockFault) : (s.takeFault a f).choices = s.choices := rfl
@[simp] theorem takeFault_choiceIndex (a : Agent) (f : BlockFault) : (s.takeFault a f).choiceIndex = s.choiceIndex := rfl

/-! ### State.dropChoice: only the choices change -/

@[simp] theorem dropChoice_params : s.dropChoice.params = s.params := by
  unfold State.dropChoice; split <;> rfl
@[simp] theorem dropChoice_tasks : s.dropChoice.tasks = s.tasks := by
  unfold State.dropChoice; split <;> rfl
@[simp] theorem dropChoice_current : s.dropChoice.current = s.current := by
  unfold State.dropChoice; split <;> rfl
@[simp] theorem dropChoice_chans : s.dropChoice.chans = s.chans := by
  unfold State.dropChoice; split <;> rfl
@[simp] theorem dropChoice_i2cCells : s.dropChoice.i2cCells = s.i2cCells := by
  unfold State.dropChoice; split <;> rfl
@[simp] theorem dropChoice_rngCells : s.dropChoice.rngCells = s.rngCells := by
  unfold State.dropChoice; split <;> rfl
@[simp] theorem dropChoice_wdtCells : s.dropChoice.wdtCells = s.wdtCells := by
  unfold State.dropChoice; split <;> rfl
@[simp] theorem dropChoice_espiCells : s.dropChoice.espiCells = s.espiCells := by
  unfold State.dropChoice; split <;> rfl
@[simp] theorem dropChoice_mem : s.dropChoice.mem = s.mem := by
  unfold State.dropChoice; split <;> rfl
@[simp] theorem dropChoice_hist : s.dropChoice.hist = s.hist := by
  unfold State.dropChoice; split <;> rfl
@[simp] theorem dropChoice_period : s.dropChoice.period = s.period := by
  unfold State.dropChoice; split <;> rfl
@[simp] theorem dropChoice_count : s.dropChoice.count = s.count := by
  unfold State.dropChoice; split <;> rfl
@[simp] theorem dropChoice_compare : s.dropChoice.compare = s.compare := by
  unfold State.dropChoice; split <;> rfl
@[simp] theorem dropChoice_alarmEn : s.dropChoice.alarmEn = s.alarmEn := by
  unfold State.dropChoice; split <;> rfl
@[simp] theorem dropChoice_alarmTs : s.dropChoice.alarmTs = s.alarmTs := by
  unfold State.dropChoice; split <;> rfl
@[simp] theorem dropChoice_tickPend : s.dropChoice.tickPend = s.tickPend := by
  unfold State.dropChoice; split <;> rfl
@[simp] theorem dropChoice_queue : s.dropChoice.queue = s.queue := by
  unfold State.dropChoice; split <;> rfl
@[simp] theorem dropChoice_fault : s.dropChoice.fault = s.fault := by
  unfold State.dropChoice; split <;> rfl

end Sys2Proof.Machine.Laws
end

