-- ==== Sys2Proof/Laws/Tasks.lean ====
section
/-! SUPPORT. What a task's record reads after each update. -/

namespace Sys2Proof.Machine.Laws

variable (s : State) (t u : Nat)

@[simp] theorem updTask_ntasks (f : Task → Task) : (s.updTask t f).ntasks = s.ntasks := by
  simp [State.ntasks]

@[simp] theorem setReg_ntasks (r : RegNum) (v : Word) : (s.setReg t r v).ntasks = s.ntasks :=
  updTask_ntasks ..

@[simp] theorem setCp_ntasks (n : Nat) : (s.setCp t n).ntasks = s.ntasks := updTask_ntasks ..

@[simp] theorem advance_ntasks (n : Nat) : (s.advance t n).ntasks = s.ntasks := updTask_ntasks ..

@[simp] theorem setPhase_ntasks (p : Fin 4) : (s.setPhase t p).ntasks = s.ntasks :=
  updTask_ntasks ..

@[simp] theorem setLatch_ntasks (v : Word32) : (s.setLatch t v).ntasks = s.ntasks :=
  updTask_ntasks ..

@[simp] theorem setTstate_ntasks (v : TaskState) : (s.setTstate t v).ntasks = s.ntasks :=
  updTask_ntasks ..

@[simp] theorem setReady_ntasks (v : Bool) : (s.setReady t v).ntasks = s.ntasks :=
  updTask_ntasks ..

@[simp] theorem ready_ntasks (h : Handle) : (s.ready h).ntasks = s.ntasks := updTask_ntasks ..

theorem task_congr {s s' : State} (h : s'.tasks = s.tasks) : s'.task t = s.task t := by
  simp [State.task, h]

theorem ntasks_congr {s s' : State} (h : s'.tasks = s.tasks) : s'.ntasks = s.ntasks := by
  simp [State.ntasks, h]

/-- A task's record after an update of one task's record. -/
theorem task_updTask (f : Task → Task) :
    (s.updTask t f).task u = if u = t ∧ t < s.ntasks then f (s.task t) else s.task u := by
  unfold State.task State.updTask State.ntasks
  simp only [List.getElem?_modify]
  by_cases h : t = u
  · subst h
    by_cases hl : t < s.tasks.length
    · simp [hl]
    · simp [hl]
  · have h' : ¬ (u = t ∧ t < s.tasks.length) := fun hc => h hc.1.symm
    simp [h, h']

theorem task_updTask_self (f : Task → Task) (ht : t < s.ntasks) :
    (s.updTask t f).task t = f (s.task t) := by
  rw [task_updTask, if_pos ⟨rfl, ht⟩]

theorem task_updTask_ne (f : Task → Task) (hu : u ≠ t) : (s.updTask t f).task u = s.task u := by
  rw [task_updTask, if_neg (fun h => hu h.1)]

/-! ### Registers -/

@[simp] theorem reg_setReg_self (k : Task) (r : RegNum) (v : Word) :
    (k.setReg r v).reg r = ⟨v, true⟩ := by
  simp [Task.reg, Task.setReg]

theorem reg_setReg_ne (k : Task) (r q : RegNum) (v : Word) (h : q ≠ r) :
    (k.setReg r v).reg q = k.reg q := by
  have hn : r.toNat ≠ q.toNat := fun hc => h (BitVec.eq_of_toNat_eq hc).symm
  simp [Task.reg, Task.setReg, hn]

@[simp] theorem setReg_taskCp (k : Task) (r : RegNum) (v : Word) : (k.setReg r v).cp = k.cp := rfl
@[simp] theorem setReg_taskPhase (k : Task) (r : RegNum) (v : Word) :
    (k.setReg r v).phase = k.phase := rfl
@[simp] theorem setReg_taskLatch (k : Task) (r : RegNum) (v : Word) :
    (k.setReg r v).latch = k.latch := rfl
@[simp] theorem setReg_taskTstate (k : Task) (r : RegNum) (v : Word) :
    (k.setReg r v).tstate = k.tstate := rfl
@[simp] theorem setReg_taskReady (k : Task) (r : RegNum) (v : Word) :
    (k.setReg r v).ready = k.ready := rfl
@[simp] theorem setReg_taskProg (k : Task) (r : RegNum) (v : Word) :
    (k.setReg r v).prog = k.prog := rfl

/-- What a register read can answer. -/
theorem readReg_eq (r : RegNum) :
    s.readReg t r =
      if ((s.task t).reg r).written then .ok ((s.task t).reg r).value
      else .error (.uninitReg t r) := rfl

theorem readReg_ok (r : RegNum) (v : Word) (h : (s.task t).reg r = ⟨v, true⟩) :
    s.readReg t r = .ok v := by
  rw [readReg_eq, h]
  rfl

theorem readReg_error (r : RegNum) (h : ((s.task t).reg r).written = false) :
    s.readReg t r = .error (.uninitReg t r) := by
  rw [readReg_eq, h]
  rfl

end Sys2Proof.Machine.Laws
end

