-- ==== Sys2Proof/Laws/Channels.lean ====
section
/-! SUPPORT. What a channel's record and a waker cell read after each update. -/

namespace Sys2Proof.Machine.Laws

variable (s : State) (ch c : Nat)

@[simp] theorem updChan_nch (f : Channel → Channel) : (s.updChan ch f).nch = s.nch := by
  simp [State.nch]

theorem nch_congr {s s' : State} (h : s'.chans = s.chans) : s'.nch = s.nch := by
  simp [State.nch, h]

theorem chan_congr {s s' : State} (h : s'.chans = s.chans) : s'.chan c = s.chan c := by
  simp [State.chan, h]

/-- A channel's record after an update of one channel's record. -/
theorem chan_updChan (f : Channel → Channel) :
    (s.updChan ch f).chan c = if c = ch ∧ ch < s.nch then f (s.chan ch) else s.chan c := by
  unfold State.chan State.updChan State.nch
  simp only [List.getElem?_modify]
  by_cases h : ch = c
  · subst h
    by_cases hl : ch < s.chans.length
    · simp [hl]
    · simp [hl]
  · have h' : ¬ (c = ch ∧ ch < s.chans.length) := fun hc => h hc.1.symm
    simp [h, h']

theorem chan_updChan_self (f : Channel → Channel) (h : ch < s.nch) :
    (s.updChan ch f).chan ch = f (s.chan ch) := by
  rw [chan_updChan, if_pos ⟨rfl, h⟩]

theorem chan_updChan_ne (f : Channel → Channel) (h : c ≠ ch) :
    (s.updChan ch f).chan c = s.chan c := by
  rw [chan_updChan, if_neg (fun hc => h hc.1)]

/-- The fault CHK raises, in the order of 42_dma.md R161. -/
theorem chkFault_none_iff (t : Nat) :
    s.chkFault t ch = none ↔ ch < s.nch ∧ (s.chan ch).res = some t := by
  unfold State.chkFault
  split
  · rename_i h
    simp
    omega
  · split
    · rename_i h1 h2
      simp [h2]
    · rename_i h1 h2
      simp only [ne_eq, not_not] at h2
      simp [h2]
      omega

/-! ### Waker cells -/

theorem dmaCellId_class (h : ch < 64) : cellClass (dmaCellId ch) = 0 := by
  unfold cellClass dmaCellId
  simp only [BitVec.extractLsb'_toNat, BitVec.toNat_ofNat, Nat.shiftRight_eq_div_pow]
  omega

theorem dmaCellId_instance (h : ch < 64) : cellInstance (dmaCellId ch) = ch := by
  unfold cellInstance dmaCellId
  simp only [BitVec.extractLsb'_toNat, BitVec.toNat_ofNat, Nat.shiftRight_eq_div_pow]
  omega

/-- Two cell ids with the same class and instance are the same id. -/
theorem cellId_ext (i j : BitVec 16) (hc : cellClass i = cellClass j)
    (hi : cellInstance i = cellInstance j) : i = j := by
  apply BitVec.eq_of_toNat_eq
  unfold cellClass at hc
  unfold cellInstance at hi
  simp only [BitVec.extractLsb'_toNat, Nat.shiftRight_eq_div_pow] at hc hi
  have := i.isLt
  have := j.isLt
  omega

/-- A cell write changes no field but the channels (their cells) and the other classes' cells. -/
theorem setCell_other (id : BitVec 16) (v : Option Handle) :
    (s.setCell id v).params = s.params ∧ (s.setCell id v).tasks = s.tasks ∧
      (s.setCell id v).current = s.current ∧ (s.setCell id v).mem = s.mem ∧
      (s.setCell id v).hist = s.hist ∧ (s.setCell id v).period = s.period ∧
      (s.setCell id v).count = s.count ∧ (s.setCell id v).compare = s.compare ∧
      (s.setCell id v).alarmEn = s.alarmEn ∧ (s.setCell id v).alarmTs = s.alarmTs ∧
      (s.setCell id v).tickPend = s.tickPend ∧ (s.setCell id v).queue = s.queue ∧
      (s.setCell id v).fault = s.fault ∧ (s.setCell id v).choices = s.choices ∧
      (s.setCell id v).choiceIndex = s.choiceIndex ∧ (s.setCell id v).nch = s.nch := by
  unfold State.setCell
  split <;> simp [State.nch]

/-- Of a channel's record a cell write changes the waker only. -/
theorem setCell_chan (id : BitVec 16) (v : Option Handle) :
    (s.setCell id v).chan c =
      if cellClass id = 0 ∧ cellInstance id = c ∧ c < s.nch then { s.chan c with waker := v }
      else s.chan c := by
  unfold State.setCell
  split
  · rename_i h
    rw [chan_updChan]
    by_cases hc : c = cellInstance id
    · subst hc
      by_cases hl : cellInstance id < s.nch <;> simp [h, hl]
    · have hc' : cellInstance id ≠ c := fun e => hc e.symm
      simp [hc, hc']
  all_goals
    have hn : ¬ (cellClass id = 0 ∧ cellInstance id = c ∧ c < s.nch) :=
      fun h => by simp_all
    rw [if_neg hn]
    try rfl

/-- A cell read after a cell written. -/
theorem setCell_cell (i j : BitVec 16) (v : Option Handle) :
    (s.setCell i v).cell j = if j = i then (s.cell i).map (fun _ => v) else s.cell j := by
  by_cases hij : j = i
  · subst hij
    rw [if_pos rfl]
    unfold State.cell State.setCell
    split
    · simp only [*, updChan_chans, List.getElem?_modify, if_true, Option.map_eq_map, Option.map_map]
      rfl
    all_goals simp [*, List.getElem?_set]
    all_goals
      split
      · simp [*]
      · rename_i h
        simp [List.getElem?_eq_none (Nat.le_of_not_lt h)]
  · rw [if_neg hij]
    have hne : ¬ (cellClass j = cellClass i ∧ cellInstance j = cellInstance i) :=
      fun h => hij (cellId_ext j i h.1 h.2)
    unfold State.cell
    split
    · rename_i hj
      rw [hj] at hne
      unfold State.setCell
      split
      · rename_i hi
        have : cellInstance i ≠ cellInstance j := fun e => hne ⟨hi.symm, e.symm⟩
        simp [this]
      all_goals rfl
    all_goals (try
      rename_i hj
      rw [hj] at hne
      unfold State.setCell
      split
      all_goals first
        | rfl
        | (rename_i hi
           have : cellInstance i ≠ cellInstance j := fun e => hne ⟨hi.symm, e.symm⟩
           simp [this]))
    rfl

end Sys2Proof.Machine.Laws
end

