-- ==== Sys2Proof/Laws/Memory.lean ====
section
/-! SUPPORT. RAM: a read after a write, and every memory operation keeps the canonical form. -/

namespace Sys2Proof.Machine.Laws

theorem read_below (m : Memory) (a b : Nat) (h : m.all (fun c => decide (a < c.1)) = true)
    (hb : b ≤ a) : m.read b = Memory.unlisted := by
  induction m with
  | nil => rfl
  | cons c m ih =>
    obtain ⟨k, v⟩ := c
    simp only [List.all_cons, Bool.and_eq_true, decide_eq_true_eq] at h
    have hne : b ≠ k := by omega
    simp [Memory.read, hne, ih h.2]

theorem wf_cons_iff (a : Nat) (v : Byte) (m : Memory) :
    Memory.wf ((a, v) :: m) = true ↔
      v ≠ Memory.unlisted ∧ m.all (fun c => decide (a < c.1)) = true ∧ Memory.wf m = true := by
  simp [Memory.wf, and_assoc]

theorem all_lt_mono (m : Memory) (a b : Nat) (hab : a ≤ b)
    (h : m.all (fun c => decide (b < c.1)) = true) : m.all (fun c => decide (a < c.1)) = true := by
  simp only [List.all_eq_true, decide_eq_true_eq] at h ⊢
  intro c hc
  have := h c hc
  omega

theorem read_cons_op (m : Memory) (a b : Nat) (v : Byte)
    (h : m.all (fun c => decide (a < c.1)) = true) :
    (Memory.cons a v m).read b = if b = a then v else m.read b := by
  unfold Memory.cons
  split
  · rename_i hv
    split
    · rename_i hb
      rw [hb, read_below m a a h (Nat.le_refl a), hv]
    · rfl
  · rfl

theorem wf_cons_op (m : Memory) (a : Nat) (v : Byte)
    (h : m.all (fun c => decide (a < c.1)) = true) (hw : Memory.wf m = true) :
    Memory.wf (Memory.cons a v m) = true := by
  unfold Memory.cons
  split
  · exact hw
  · rename_i hv
    exact (wf_cons_iff a v m).mpr ⟨hv, h, hw⟩

theorem all_cons_op (m : Memory) (a k : Nat) (v : Byte) (hk : k < a)
    (h : m.all (fun c => decide (k < c.1)) = true) :
    (Memory.cons a v m).all (fun c => decide (k < c.1)) = true := by
  unfold Memory.cons
  split
  · exact h
  · simp only [List.all_cons, Bool.and_eq_true, decide_eq_true_eq]
    exact ⟨hk, h⟩

theorem all_write (m : Memory) (a k : Nat) (v : Byte) (hk : k < a)
    (h : m.all (fun c => decide (k < c.1)) = true) :
    (m.write a v).all (fun c => decide (k < c.1)) = true := by
  induction m with
  | nil => exact all_cons_op [] a k v hk rfl
  | cons c m ih =>
    obtain ⟨j, b⟩ := c
    have h' := h
    simp only [List.all_cons, Bool.and_eq_true, decide_eq_true_eq] at h'
    unfold Memory.write
    split
    · exact all_cons_op _ a k v hk h
    · split
      · exact all_cons_op m a k v hk h'.2
      · simp only [List.all_cons, Bool.and_eq_true, decide_eq_true_eq]
        exact ⟨h'.1, ih h'.2⟩

/-- A write keeps the canonical form. -/
theorem wf_write (m : Memory) (a : Nat) (v : Byte) (hw : m.wf = true) :
    (m.write a v).wf = true := by
  induction m with
  | nil => exact wf_cons_op [] a v rfl rfl
  | cons c m ih =>
    obtain ⟨k, b⟩ := c
    obtain ⟨hb, hall, hm⟩ := (wf_cons_iff k b m).mp hw
    unfold Memory.write
    split
    · rename_i hlt
      refine wf_cons_op _ a v ?_ hw
      simp only [List.all_cons, Bool.and_eq_true, decide_eq_true_eq]
      exact ⟨hlt, all_lt_mono m a k (by omega) hall⟩
    · split
      · rename_i heq
        exact wf_cons_op m a v (heq ▸ hall) hm
      · exact (wf_cons_iff _ _ _).mpr ⟨hb, all_write m a k v (by omega) hall, ih hm⟩

/-- A byte read after a byte written. -/
theorem read_write (m : Memory) (a b : Nat) (v : Byte) (hw : m.wf = true) :
    (m.write a v).read b = if b = a then v else m.read b := by
  induction m with
  | nil => exact read_cons_op [] a b v rfl
  | cons c m ih =>
    obtain ⟨k, w⟩ := c
    obtain ⟨-, hall, hm⟩ := (wf_cons_iff k w m).mp hw
    unfold Memory.write
    split
    · rename_i hlt
      refine read_cons_op _ a b v ?_
      simp only [List.all_cons, Bool.and_eq_true, decide_eq_true_eq]
      exact ⟨hlt, all_lt_mono m a k (by omega) hall⟩
    · split
      · rename_i heq
        rw [read_cons_op m a b v (heq ▸ hall)]
        simp only [Memory.read]
        split
        · rfl
        · rename_i hne
          rw [if_neg (by omega)]
      · rename_i hnlt hne
        simp only [Memory.read]
        split
        · rename_i hbk
          rw [if_neg (by omega)]
        · exact ih hm

/-- MemWrite keeps the canonical form. -/
theorem wf_memWrite (n : Nat) : ∀ (m : Memory) (a v : Nat), m.wf = true →
    (memWrite m a n v).wf = true := by
  induction n with
  | zero => intro m a v h; exact h
  | succ n ih => intro m a v h; exact ih _ _ _ (wf_write m a _ h)

/-- What each byte reads after MemWrite. -/
theorem read_memWrite (n : Nat) : ∀ (m : Memory) (a v b : Nat), m.wf = true →
    (memWrite m a n v).read b =
      if a ≤ b ∧ b < a + n then BitVec.ofNat 8 (v / 2 ^ (8 * (b - a))) else m.read b := by
  induction n with
  | zero =>
    intro m a v b _
    rw [if_neg (by omega)]
    rfl
  | succ n ih =>
    intro m a v b h
    simp only [memWrite]
    rw [ih _ _ _ _ (wf_write m a _ h), read_write m a b _ h]
    by_cases hb : b = a
    · subst hb
      rw [if_neg (by omega), if_pos rfl, if_pos (by omega)]
      simp
    · by_cases hr : a + 1 ≤ b ∧ b < a + 1 + n
      · have hpow : v / 2 ^ 8 / 2 ^ (8 * (b - (a + 1))) = v / 2 ^ (8 * (b - a)) := by
          rw [Nat.div_div_eq_div_mul, ← pow_add]
          congr 2
          omega
        rw [if_pos hr, if_pos (by omega), hpow]
      · rw [if_neg hr, if_neg hb, if_neg (by omega)]

/-- MemRead depends on the bytes it covers only. -/
theorem memRead_congr (n : Nat) : ∀ (m m' : Memory) (a : Nat),
    (∀ i, i < n → m'.read (a + i) = m.read (a + i)) → memRead m' a n = memRead m a n := by
  induction n with
  | zero => intros; rfl
  | succ n ih =>
    intro m m' a h
    have h0 := h 0 (by omega)
    simp only [Nat.add_zero] at h0
    have hs : ∀ i, i < n → m'.read (a + 1 + i) = m.read (a + 1 + i) := by
      intro i hi
      have := h (i + 1) (by omega)
      rw [show a + (i + 1) = a + 1 + i by omega] at this
      exact this
    simp only [memRead, h0, ih m m' (a + 1) hs]

/-- The state after reset has its memory in canonical form. -/
theorem reset_mem_wf : State.reset.mem.wf = true := rfl

end Sys2Proof.Machine.Laws
end

