-- ==== Sys2Proof/Laws/Step.lean ====
section
/-! SUPPORT. What a command, an agent's step and a step of the machine can answer: one lemma per shared operation. -/

namespace Sys2Proof.Machine.Laws

/-! ### The frame of a command -/

/-- A host command of a running task is its body. -/
theorem hostCommand_eq (s : State) (t : Nat) (body : Nat → Host.Outcome State Fault Refusal)
    (hf : s.fault = none) (hc : s.current = some t) (ht : t < s.ntasks) :
    hostCommand s body = body t := by
  simp [hostCommand, hf, hc, ht]

/-- If a host command answers a next state, a task runs and its body answered it. -/
theorem hostCommand_next (s s' : State) (body : Nat → Host.Outcome State Fault Refusal)
    (h : hostCommand s body = .next s') :
    ∃ t, s.fault = none ∧ s.current = some t ∧ t < s.ntasks ∧ body t = .next s' := by
  unfold hostCommand at h
  split at h
  · rename_i hf
    split at h
    · rename_i t hc
      split at h
      · rename_i ht
        exact ⟨t, hf, hc, ht, h⟩
      · cases h
    · cases h
  · cases h

/-- A meaning's result is its next state, or the entry of the fault it raises. -/
theorem hostResult_next (s s' : State) (r : Except BlockFault State)
    (h : hostResult s r = .next s') :
    r = .ok s' ∨ ∃ f, r = .error f ∧ s' = s.takeFault .host f := by
  cases r with
  | ok v => exact .inl (by simpa [hostResult] using h)
  | error f => exact .inr ⟨f, rfl, by simpa [hostResult] using h.symm⟩

/-- An atomic command of a task that stands at a command's first step is its body. -/
theorem atomicCommand_eq (s : State) (t : Nat) (body : Nat → Except BlockFault State)
    (h : HostReady s t) : atomicCommand s body = hostResult s (body t) := by
  obtain ⟨hf, hc, ht, hp⟩ := h
  unfold atomicCommand
  rw [hostCommand_eq s t _ hf hc ht, if_pos hp]

/-- If an atomic command answers a next state, it began at a command's first step, and the state is its body's or the
entry of the fault its body raised. -/
theorem atomicCommand_next (s s' : State) (body : Nat → Except BlockFault State)
    (h : atomicCommand s body = .next s') :
    ∃ t, HostReady s t ∧
      (body t = .ok s' ∨ ∃ f, body t = .error f ∧ s' = s.takeFault .host f) := by
  obtain ⟨t, hf, hc, ht, hb⟩ := hostCommand_next _ _ _ h
  split at hb
  · rename_i hp
    exact ⟨t, ⟨hf, hc, ht, hp⟩, hostResult_next _ _ _ hb⟩
  · cases hb

/-- The entry of a host fault, written out (60_exceptions.md R300). -/
theorem takeFault_host (s : State) (t : Nat) (f : BlockFault) (hc : s.current = some t) :
    .next (s.takeFault .host f) = hostFaults s t f := by
  simp [State.takeFault, hostFaults, hc]

/-! ### The data space -/

/-- Every byte of an access is of a kind exactly when the access is of that kind. -/
theorem accessKind_some_iff (rs : List Region) (a n : Nat) (k : RegionKind) (hn : 0 < n) :
    accessKind rs a n = some k ↔ ∀ i, i < n → regionKind rs (a + i) = k := by
  unfold accessKind
  split
  · rename_i h
    simp only [List.all_eq_true, List.mem_range, beq_iff_eq] at h
    simp only [Option.some.injEq]
    constructor
    · intro hk i hi
      rw [h i hi, hk]
    · intro hk
      have := hk 0 hn
      simpa using this
  · rename_i h
    simp only [reduceCtorEq, false_iff]
    intro hk
    apply h
    simp only [List.all_eq_true, List.mem_range, beq_iff_eq]
    intro i hi
    have h0 := hk 0 hn
    simp only [Nat.add_zero] at h0
    rw [hk i hi, h0]

/-- What a write to the data space leaves: MemWrite in RAM, nothing changed on PERIPH. -/
theorem writeValue_ok (s s' : State) (agent : Agent) (a n v : Nat)
    (h : s.writeValue agent a n v = .ok s') :
    (accessKind s.params.regions a n = some .ram ∧ s' = s.setMem (memWrite s.mem a n v)) ∨
      (accessKind s.params.regions a n = some .periph ∧ s' = s) := by
  unfold State.writeValue at h
  split at h
  · rename_i hk
    exact .inl ⟨hk, by simpa using h.symm⟩
  · rename_i hk
    exact .inr ⟨hk, by simpa using h.symm⟩
  · cases h

/-- A descriptor word's write is a write to RAM. -/
theorem writeRam_ok (s s' : State) (a n v : Nat) (h : s.writeRam a n v = .ok s') :
    accessKind s.params.regions a n = some .ram ∧ s' = s.setMem (memWrite s.mem a n v) := by
  unfold State.writeRam at h
  split at h
  · rename_i hk
    exact ⟨hk, by simpa using h.symm⟩
  · cases h

/-- A descriptor write changes RAM only, by four word writes. -/
theorem writeDescriptor_ok (s s' : State) (ch se de : Nat)
    (h : s.writeDescriptor ch se de = .ok s') :
    s' = s.setMem (memWrite (memWrite (memWrite (memWrite s.mem (s.desc ch) 4 0)
      (s.desc ch + 4) 4 se) (s.desc ch + 8) 4 de) (s.desc ch + 12) 4 0) := by
  unfold State.writeDescriptor at h
  split at h
  · cases h
  · rename_i s1 h1
    obtain ⟨-, rfl⟩ := writeRam_ok _ _ _ _ _ h1
    split at h
    · cases h
    · rename_i s2 h2
      obtain ⟨-, rfl⟩ := writeRam_ok _ _ _ _ _ h2
      split at h
      · cases h
      · rename_i s3 h3
        obtain ⟨-, rfl⟩ := writeRam_ok _ _ _ _ _ h3
        obtain ⟨-, rfl⟩ := writeRam_ok _ _ _ _ _ h
        rfl

/-- Every memory operation keeps the canonical form: a write to the data space. -/
theorem writeValue_keeps_wf (s s' : State) (agent : Agent) (a n v : Nat)
    (h : s.writeValue agent a n v = .ok s') (hw : s.mem.wf = true) : s'.mem.wf = true := by
  obtain ⟨-, rfl⟩ | ⟨-, rfl⟩ := writeValue_ok _ _ _ _ _ _ h
  · exact wf_memWrite n _ _ _ hw
  · exact hw

/-- Every memory operation keeps the canonical form: a descriptor write. -/
theorem writeDescriptor_keeps_wf (s s' : State) (ch se de : Nat)
    (h : s.writeDescriptor ch se de = .ok s') (hw : s.mem.wf = true) : s'.mem.wf = true := by
  rw [writeDescriptor_ok _ _ _ _ _ h]
  exact wf_memWrite _ _ _ _ (wf_memWrite _ _ _ _ (wf_memWrite _ _ _ _ (wf_memWrite _ _ _ _ hw)))

/-- Recording a host access changes HIST only, and only by an event at its end. -/
theorem recordPeriph_cases (s : State) (e : Event) :
    s.recordPeriph e = s ∨ s.recordPeriph e = s.record e := by
  unfold State.recordPeriph
  split
  · exact .inr rfl
  · exact .inl rfl

/-! ### The step -/

/-- If a step answers a next state, FAULT was NONE, the launch is admitted, and the choice led there. -/
theorem step_next (s s' : State) (h : step s = .next s') :
    s.fault = none ∧ s.admitted = true ∧ s.dropChoice.agentStep s.nextChoice = .next s' := by
  unfold step at h
  split at h
  · cases h
  · rename_i hf
    split at h
    · rename_i ha
      exact ⟨hf, ha, h⟩
    · cases h

/-- If a choice leads to a next state, it is the agent's step where that is enabled, else nothing has changed. -/
theorem agentStep_next (s s' : State) (c : Choice) (h : s.agentStep c = .next s') :
    (s.enabled c = true ∧ s.perform c = .next s') ∨ (s.enabled c = false ∧ s' = s) := by
  unfold State.agentStep at h
  split at h
  · rename_i he
    exact .inl ⟨he, h⟩
  · rename_i he
    exact .inr ⟨by simpa using he, by simpa using h.symm⟩

/-- If a host step answers a next state, it is the decoded command's, or the entry of the fetch's fault. -/
theorem hostStep_next (s s' : State) (t : Nat) (h : s.hostStep t = .next s') :
    (∃ i, s.fetch t = .ok i ∧ exec i s = .next s') ∨
      ∃ f, s.fetch t = .error f ∧ s' = s.takeFault .host f := by
  unfold State.hostStep at h
  split at h
  · rename_i f hf
    exact .inr ⟨f, hf, by simpa using h.symm⟩
  · rename_i i hi
    exact .inl ⟨i, hi, h⟩

/-- Every next state of the machine is one of these: the choice named no enabled step, or it was the step of one
agent. -/
theorem step_cases (s s' : State) (h : step s = .next s') :
    s.fault = none ∧ s.admitted = true ∧
    (s' = s.dropChoice ∨
     (∃ t, s.nextChoice = .host ∧ s.current = some t ∧
        ((∃ i, s.dropChoice.fetch t = .ok i ∧ exec i s.dropChoice = .next s') ∨
          ∃ f, s.dropChoice.fetch t = .error f ∧ s' = s.dropChoice.takeFault .host f)) ∨
     (∃ t, s.nextChoice = .start t ∧ s.dropChoice.enabled (.start t) = true ∧
        s' = s.dropChoice.startTask t) ∨
     (∃ t, s.nextChoice = .resume t ∧ s.dropChoice.enabled (.resume t) = true ∧
        s' = s.dropChoice.resumeTask t) ∨
     (∃ ch g, s.nextChoice = .engine ch g ∧ s.dropChoice.enabled (.engine ch g) = true ∧
        s' = s.dropChoice.engineStep ch) ∨
     (s.nextChoice = .dmaShim ∧ s.dropChoice.enabled .dmaShim = true ∧ s' = s.dropChoice.dmaShim) ∨
     (s.nextChoice = .tickSource ∧ s' = s.dropChoice.tickSource) ∨
     (s.nextChoice = .tickHandler ∧ s.dropChoice.enabled .tickHandler = true ∧
        s' = s.dropChoice.tickHandler)) := by
  obtain ⟨hf, ha, h⟩ := step_next s s' h
  refine ⟨hf, ha, ?_⟩
  obtain ⟨he, hp⟩ | ⟨-, rfl⟩ := agentStep_next _ _ _ h
  · unfold State.perform at hp
    split at hp
    · rename_i hc
      split at hp
      · rename_i t ht
        exact .inr (.inl ⟨t, hc, by simpa using ht, hostStep_next _ _ _ hp⟩)
      · cases hp
    · rename_i t hc
      exact .inr (.inr (.inl ⟨t, hc, hc ▸ he, by simpa using hp.symm⟩))
    · rename_i t hc
      exact .inr (.inr (.inr (.inl ⟨t, hc, hc ▸ he, by simpa using hp.symm⟩)))
    · rename_i ch g hc
      exact .inr (.inr (.inr (.inr (.inl ⟨ch, g, hc, hc ▸ he, by simpa using hp.symm⟩))))
    · rename_i hc
      exact .inr (.inr (.inr (.inr (.inr (.inl ⟨hc, hc ▸ he, by simpa using hp.symm⟩)))))
    · rename_i hc
      exact .inr (.inr (.inr (.inr (.inr (.inr (.inl ⟨hc, by simpa using hp.symm⟩))))))
    · rename_i hc
      exact .inr (.inr (.inr (.inr (.inr (.inr (.inr ⟨hc, hc ▸ he, by simpa using hp.symm⟩))))))
  · exact .inl rfl

end Sys2Proof.Machine.Laws
end

