-- ==== Sys2Proof/Laws/Agents.lean ====
section
/-! SUPPORT. What the waker, queue, alarm, engine and handler operations can change. -/

namespace Sys2Proof.Machine.Laws

/-- A waker cell's wake changes cells and READY bits only: either the cell held a handle, which is taken and readied,
or nothing changes. -/
theorem wakeCell_cases (s : State) (id : BitVec 16) :
    (∃ h, s.cell id = some (some h) ∧ s.wakeCell id = (s.setCell id none).ready h) ∨
      ((∀ h, s.cell id ≠ some (some h)) ∧ s.wakeCell id = s) := by
  unfold State.wakeCell
  split
  · rename_i h hc
    exact .inl ⟨h, hc, rfl⟩
  · rename_i hc
    exact .inr ⟨hc, rfl⟩

/-! ### The queue -/

theorem queueInsert_length (e : QueueEntry) (q : List QueueEntry) :
    (queueInsert e q).length = q.length + 1 := by
  induction q with
  | nil => rfl
  | cons f q ih =>
    unfold queueInsert
    split <;> simp [ih]

theorem mem_queueInsert (e x : QueueEntry) (q : List QueueEntry) :
    x ∈ queueInsert e q ↔ x = e ∨ x ∈ q := by
  induction q with
  | nil => simp [queueInsert]
  | cons f q ih =>
    unfold queueInsert
    split
    · simp
    · simp only [List.mem_cons, ih]
      tauto

/-- QMIN is none exactly for the empty queue. -/
theorem queueMin_none_iff (q : List QueueEntry) : queueMin q = none ↔ q = [] := by
  cases q with
  | nil => simp [queueMin]
  | cons e q =>
    unfold queueMin
    split <;> simp

/-- QMIN is the timestamp of an entry, and no entry has a smaller one. -/
theorem queueMin_some (q : List QueueEntry) (m : Word) (h : queueMin q = some m) :
    (∃ e ∈ q, e.ts = m) ∧ ∀ e ∈ q, m.toNat ≤ e.ts.toNat := by
  induction q generalizing m with
  | nil => cases h
  | cons e q ih =>
    unfold queueMin at h
    split at h
    · rename_i hn
      have hq := (queueMin_none_iff q).mp hn
      subst hq
      simp only [Option.some.injEq] at h
      subst h
      simp
    · rename_i m' hm'
      obtain ⟨⟨f, hf, hfm⟩, hle⟩ := ih m' hm'
      simp only [Option.some.injEq] at h
      split at h
      · rename_i hlt
        subst h
        refine ⟨⟨e, by simp, rfl⟩, ?_⟩
        intro x hx
        rcases List.mem_cons.mp hx with rfl | hx
        · exact Nat.le_refl _
        · exact Nat.le_trans hlt (hle x hx)
      · rename_i hlt
        subst h
        refine ⟨⟨f, List.mem_cons_of_mem _ hf, hfm⟩, ?_⟩
        intro x hx
        rcases List.mem_cons.mp hx with rfl | hx
        · omega
        · exact hle x hx

/-- A queue length that fits in 64 bits reads as itself. -/
theorem queueLengthWord_of_lt (n : Nat) (h : n < 2 ^ 64) :
    queueLengthWord n = BitVec.ofNat 64 n := if_pos h

/-! ### Popping entries: only QUEUE and READY bits change -/

/-- What readying a list of entries leaves alone: everything but READY bits. -/
theorem readyAll_other (es : List QueueEntry) : ∀ s : State,
    ∃ ts, s.readyAll es = { s with tasks := ts } ∧ ts.length = s.tasks.length := by
  induction es with
  | nil => intro s; exact ⟨s.tasks, rfl, rfl⟩
  | cons e es ih =>
    intro s
    obtain ⟨ts, h, hl⟩ := ih (s.ready e.handle)
    refine ⟨ts, ?_, ?_⟩
    · simp only [State.readyAll, List.foldl_cons] at h ⊢
      rw [h]
      rfl
    · rw [hl]
      exact List.length_modify ..

/-- A task's record after readying a list of entries: READY set for the handles in the list. -/
theorem readyAll_task (es : List QueueEntry) (u : Nat) : ∀ s : State, u < s.ntasks →
    (s.readyAll es).task u =
      { s.task u with ready := (s.task u).ready || es.any fun e => decide (e.handle = u) } := by
  induction es with
  | nil => intro s _; simp [State.readyAll]
  | cons e es ih =>
    intro s hu
    have hu' : u < (s.ready e.handle).ntasks := by simpa using hu
    have := ih (s.ready e.handle) hu'
    simp only [State.readyAll, List.foldl_cons] at this ⊢
    rw [this]
    unfold State.ready State.setReady
    rw [task_updTask]
    by_cases h : u = e.handle
    · subst h
      simp [hu]
    · have h' : e.handle ≠ u := fun hc => h hc.symm
      simp [h, h']

/-- POP_EXPIRED changes QUEUE and READY bits only. -/
theorem popExpired_other (s : State) (n : Nat) :
    ∃ ts, s.popExpired n =
        { s with tasks := ts, queue := s.queue.filter fun e => !e.expired n } ∧
      ts.length = s.tasks.length := by
  unfold State.popExpired
  obtain ⟨ts, h, hl⟩ := readyAll_other (s.queue.filter fun e => e.expired n)
    (s.setQueue (s.queue.filter fun e => !e.expired n))
  exact ⟨ts, h, hl⟩

/-- A task's record after POP_EXPIRED: READY set for the handles of the entries popped. -/
theorem popExpired_task (s : State) (n u : Nat) (hu : u < s.ntasks) :
    (s.popExpired n).task u =
      { s.task u with
        ready := (s.task u).ready ||
          (s.queue.filter fun e => e.expired n).any fun e => decide (e.handle = u) } := by
  unfold State.popExpired
  exact readyAll_task _ u (s.setQueue _) hu

/-- SET_ALARM changes COMPARE, ALARM_EN and ALARM_TS only. -/
theorem setAlarm_other (s : State) (ts : Word) :
    ∃ c en a, s.setAlarm ts = { s with compare := c, alarmEn := en, alarmTs := a } := by
  unfold State.setAlarm
  split
  · exact ⟨s.compare, false, none, rfl⟩
  · exact ⟨_, _, _, rfl⟩

/-- REARM changes the alarm, QUEUE and READY bits only, whatever its bound. -/
theorem rearmLoop_other (fuel : Nat) : ∀ s : State,
    ∃ c en a ts q, s.rearmLoop fuel =
        { s with compare := c, alarmEn := en, alarmTs := a, tasks := ts, queue := q } ∧
      ts.length = s.tasks.length ∧ (∀ e ∈ q, e ∈ s.queue) ∧ q.length ≤ s.queue.length := by
  induction fuel with
  | zero => intro s; exact ⟨s.compare, false, none, s.tasks, s.queue, rfl, rfl, fun _ h => h, le_rfl⟩
  | succ n ih =>
    intro s
    unfold State.rearmLoop
    split
    · exact ⟨s.compare, false, none, s.tasks, s.queue, rfl, rfl, fun _ h => h, le_rfl⟩
    · rename_i m _
      obtain ⟨c, en, a, hs⟩ := setAlarm_other s m
      split
      · rw [hs]
        exact ⟨c, en, a, s.tasks, s.queue, rfl, rfl, fun _ h => h, le_rfl⟩
      · obtain ⟨ts, hp, hl⟩ := popExpired_other (s.setAlarm m) s.nowi
        obtain ⟨c', en', a', ts', q', hr, hl', hq', hlen⟩ := ih ((s.setAlarm m).popExpired s.nowi)
        refine ⟨c', en', a', ts', q', ?_, ?_, ?_, ?_⟩
        · rw [hr, hp, hs]
        · rw [hl', hp]
          simpa [hs] using hl
        · intro e he
          have := hq' e he
          rw [hp, hs] at this
          exact List.mem_of_mem_filter this
        · refine Nat.le_trans hlen ?_
          rw [hp, hs]
          exact List.length_filter_le _ _

/-- REARM changes the alarm, QUEUE and READY bits only. -/
theorem rearm_other (s : State) :
    ∃ c en a ts q, s.rearm =
        { s with compare := c, alarmEn := en, alarmTs := a, tasks := ts, queue := q } ∧
      ts.length = s.tasks.length ∧ (∀ e ∈ q, e ∈ s.queue) ∧ q.length ≤ s.queue.length :=
  rearmLoop_other _ s

/-! ### The engine -/

/-- An engine step that raises nothing: one element moved, two events recorded, the channel counted down. -/
theorem engineElement_ok (s s' : State) (ch : Nat) (h : s.engineElement ch = .ok s') :
    ∃ v s1 sa da,
      sa = elementAddr (s.chan ch).xfer.srcEnd (s.chan ch).xfer.rem (s.chan ch).xfer.width
        (s.chan ch).xfer.srcInc ∧
      da = elementAddr (s.chan ch).xfer.dstEnd (s.chan ch).xfer.rem (s.chan ch).xfer.width
        (s.chan ch).xfer.dstInc ∧
      s.readValue (.engine ch) sa (s.chan ch).xfer.width = .ok v ∧
      s.writeValue (.engine ch) da (s.chan ch).xfer.width v = .ok s1 ∧
      s' = ((s1.record ⟨.engine ch, .read, sa, (s.chan ch).xfer.width, v⟩).record
        ⟨.engine ch, .write, da, (s.chan ch).xfer.width, v⟩).updChan ch Channel.elementMoved := by
  unfold State.engineElement at h
  simp only at h
  split at h
  · cases h
  · rename_i v hv
    split at h
    · cases h
    · rename_i s1 hs1
      exact ⟨v, s1, _, _, rfl, rfl, hv, hs1, by simpa using h.symm⟩

/-- An engine step moves an element or takes a bus fault. -/
theorem engineStep_cases (s : State) (ch : Nat) :
    (∃ s1, s.engineElement ch = .ok s1 ∧ s.engineStep ch = s1) ∨
      ∃ f, s.engineElement ch = .error f ∧ s.engineStep ch = s.takeFault (.engine ch) f := by
  unfold State.engineStep
  split
  · rename_i s1 h
    exact .inl ⟨s1, h, rfl⟩
  · rename_i f h
    exact .inr ⟨f, h, rfl⟩

end Sys2Proof.Machine.Laws
end

