-- ==== Sys2Proof/Laws/Encoding.lean ====
section
/-! SUPPORT. Headers and their fields: reading a field of a header built from its fields, masking field by field, and which
row of the opcode map a header selects. -/

namespace Sys2Proof.Laws

variable (op op' : BitVec 8) (rd rs rd' rs' : RegNum) (imm imm' : BitVec 16)

@[simp] theorem headerRd_header : headerRd (header op rd rs imm) = rd := by
  apply BitVec.eq_of_getLsbD_eq
  intro i hi
  simp only [headerRd, header, BitVec.getLsbD_extractLsb', BitVec.getLsbD_append]
  have h1 : ¬ (20 + i < 16) := by omega
  have h2 : ¬ (20 + i - 16 < 4) := by omega
  have h3 : 20 + i - 16 - 4 = i := by omega
  simp [hi, h1, h2, h3]

@[simp] theorem headerRs_header : headerRs (header op rd rs imm) = rs := by
  apply BitVec.eq_of_getLsbD_eq
  intro i hi
  simp only [headerRs, header, BitVec.getLsbD_extractLsb', BitVec.getLsbD_append]
  have h1 : ¬ (16 + i < 16) := by omega
  have h3 : 16 + i - 16 = i := by omega
  simp [hi, h1, h3]

@[simp] theorem headerImm_header : headerImm (header op rd rs imm) = imm := by
  apply BitVec.eq_of_getLsbD_eq
  intro i hi
  simp only [headerImm, header, BitVec.getLsbD_extractLsb', BitVec.getLsbD_append]
  simp [hi]

/-- OP, header bits 31:24. -/
theorem headerOp_header : (header op rd rs imm).extractLsb' 24 8 = op := by
  apply BitVec.eq_of_getLsbD_eq
  intro i hi
  simp only [header, BitVec.getLsbD_extractLsb', BitVec.getLsbD_append]
  have h1 : ¬ (24 + i < 16) := by omega
  have h2 : ¬ (24 + i - 16 < 4) := by omega
  have h3 : ¬ (24 + i - 16 - 4 < 4) := by omega
  have h4 : 24 + i - 16 - 4 - 4 = i := by omega
  simp [hi, h1, h2, h3, h4]

/-- Every header is built from its fields. -/
theorem header_fields (h : Word32) :
    header (h.extractLsb' 24 8) (headerRd h) (headerRs h) (headerImm h) = h := by
  apply BitVec.eq_of_getLsbD_eq
  intro i hi
  simp only [header, headerRd, headerRs, headerImm, BitVec.getLsbD_extractLsb',
    BitVec.getLsbD_append]
  by_cases h1 : i < 16
  · simp [h1]
  · by_cases h2 : i - 16 < 4
    · have : 16 + (i - 16) = i := by omega
      simp [h1, h2, this]
    · by_cases h3 : i - 16 - 4 < 4
      · have : 20 + (i - 16 - 4) = i := by omega
        simp [h1, h2, h3, this]
      · have : 24 + (i - 16 - 4 - 4) = i := by omega
        have h4 : i - 16 - 4 - 4 < 8 := by omega
        simp [h1, h2, h3, h4, this]

/-- Two headers are equal exactly when their fields are. -/
theorem header_inj : header op rd rs imm = header op' rd' rs' imm' ↔
    op = op' ∧ rd = rd' ∧ rs = rs' ∧ imm = imm' := by
  constructor
  · intro h
    refine ⟨?_, ?_, ?_, ?_⟩
    · rw [← headerOp_header op rd rs imm, h, headerOp_header]
    · rw [← headerRd_header op rd rs imm, h, headerRd_header]
    · rw [← headerRs_header op rd rs imm, h, headerRs_header]
    · rw [← headerImm_header op rd rs imm, h, headerImm_header]
  · rintro ⟨rfl, rfl, rfl, rfl⟩
    rfl

/-- Masking a header masks each field. -/
theorem header_and : header op rd rs imm &&& header op' rd' rs' imm' =
    header (op &&& op') (rd &&& rd') (rs &&& rs') (imm &&& imm') := by
  apply BitVec.eq_of_getLsbD_eq
  intro i hi
  simp only [header, BitVec.getLsbD_and, BitVec.getLsbD_append]
  by_cases h1 : i < 16
  · simp [h1]
  · by_cases h2 : i - 16 < 4
    · simp [h1, h2]
    · by_cases h3 : i - 16 - 4 < 4
      · simp [h1, h2, h3]
      · simp [h1, h2, h3]

/-- A row selects a header exactly when each field, masked, is the row's. -/
theorem selects_header (r : OpcodeRow) :
    r.selects (header op rd rs imm) =
      (decide (op &&& r.mask.extractLsb' 24 8 = r.pattern.extractLsb' 24 8) &&
        decide (rd &&& headerRd r.mask = headerRd r.pattern) &&
        decide (rs &&& headerRs r.mask = headerRs r.pattern) &&
        decide (imm &&& headerImm r.mask = headerImm r.pattern)) := by
  have h : header op rd rs imm &&& r.mask = header (op &&& r.mask.extractLsb' 24 8)
      (rd &&& headerRd r.mask) (rs &&& headerRs r.mask) (imm &&& headerImm r.mask) := by
    conv_lhs => rw [← header_fields r.mask]
    exact header_and ..
  have hp : header (op &&& r.mask.extractLsb' 24 8) (rd &&& headerRd r.mask)
        (rs &&& headerRs r.mask) (imm &&& headerImm r.mask) = r.pattern ↔
      op &&& r.mask.extractLsb' 24 8 = r.pattern.extractLsb' 24 8 ∧
        rd &&& headerRd r.mask = headerRd r.pattern ∧
        rs &&& headerRs r.mask = headerRs r.pattern ∧
        imm &&& headerImm r.mask = headerImm r.pattern := by
    conv_lhs => rw [← header_fields r.pattern]
    exact header_inj ..
  unfold OpcodeRow.selects
  rw [h, Bool.eq_iff_iff, beq_iff_eq, hp]
  simp [and_assoc]

end Sys2Proof.Laws
end

