-- ==== Sys2Proof/Laws/Frames.lean ====
section
/-! SUPPORT. The frames of Safety.lean for the endings commands share: CP moved on, a register written and CP moved on, CP
set; and what a channel reads after them. -/

namespace Sys2Proof.Machine.Laws

variable (s s0 : State) (t : Nat)

/-! ### A task's record after each ending -/

theorem setCp_task_self (n : Nat) (ht : t < s.ntasks) :
    (s.setCp t n).task t = { s.task t with cp := n } :=
  task_updTask_self s t _ ht

theorem setCp_task_ne (u n : Nat) (hu : u ≠ t) : (s.setCp t n).task u = s.task u :=
  task_updTask_ne s t u _ hu

theorem setReg_task_self (r : RegNum) (v : Word) (ht : t < s.ntasks) :
    (s.setReg t r v).task t = (s.task t).setReg r v :=
  task_updTask_self s t _ ht

theorem setReg_task_ne (u : Nat) (r : RegNum) (v : Word) (hu : u ≠ t) :
    (s.setReg t r v).task u = s.task u :=
  task_updTask_ne s t u _ hu

theorem advance_task_self (n : Nat) (ht : t < s.ntasks) :
    (s.advance t n).task t = { s.task t with cp := (s.task t).cp + n } :=
  setCp_task_self s t _ ht

theorem advance_task_ne (u n : Nat) (hu : u ≠ t) : (s.advance t n).task u = s.task u :=
  setCp_task_ne s t u _ hu

/-! ### Channels are untouched by what changes tasks only -/

theorem advance_chan (n c : Nat) : (s.advance t n).chan c = s.chan c := chan_congr c rfl
theorem advance_nch (n : Nat) : (s.advance t n).nch = s.nch := nch_congr rfl
theorem setReg_chan (r : RegNum) (v : Word) (c : Nat) : (s.setReg t r v).chan c = s.chan c :=
  chan_congr c rfl
theorem setReg_nch (r : RegNum) (v : Word) : (s.setReg t r v).nch = s.nch := nch_congr rfl
theorem setPhase_chan (p : Fin 4) (c : Nat) : (s.setPhase t p).chan c = s.chan c := chan_congr c rfl
theorem setPhase_nch (p : Fin 4) : (s.setPhase t p).nch = s.nch := nch_congr rfl

/-! ### The frames -/

/-- A command that sets CP and otherwise leaves the tasks alone. -/
theorem onlyCp_setCp (n : Nat) (ht : t < s0.ntasks) (h : s.tasks = s0.tasks) :
    OnlyCp s0 (s.setCp t n) t n := by
  have hn : s.ntasks = s0.ntasks := ntasks_congr h
  have hs : ∀ u, s.task u = s0.task u := fun u => task_congr u h
  refine ⟨⟨by simp [hn], fun u hu => ?_⟩, fun p hp => ?_, ?_⟩
  · rw [setCp_task_ne _ _ _ _ hu, hs]
  · rw [setCp_task_self _ _ _ (hn ▸ ht), hs]
    cases p <;> first | rfl | exact absurd (List.mem_singleton.2 rfl) hp
  · rw [setCp_task_self _ _ _ (hn ▸ ht)]

/-- A command that moves CP on and otherwise leaves the tasks alone. -/
theorem onlyCp_advance (n : Nat) (ht : t < s0.ntasks) (h : s.tasks = s0.tasks) :
    OnlyCp s0 (s.advance t n) t ((s0.task t).cp + n) := by
  have hs : s.task t = s0.task t := task_congr t h
  unfold State.advance
  rw [hs]
  exact onlyCp_setCp s s0 t _ ht h

/-- A command that writes a register, moves CP on and otherwise leaves the tasks alone. -/
theorem onlyRegCp_setReg_advance (r : RegNum) (v : Word) (n : Nat) (ht : t < s0.ntasks)
    (h : s.tasks = s0.tasks) : OnlyRegCp s0 ((s.setReg t r v).advance t n) t r v n := by
  have hn : s.ntasks = s0.ntasks := ntasks_congr h
  have hs : ∀ u, s.task u = s0.task u := fun u => task_congr u h
  have hk : ((s.setReg t r v).advance t n).task t =
      { (s0.task t).setReg r v with cp := (s0.task t).cp + n } := by
    rw [advance_task_self _ _ _ (by simpa [hn] using ht),
      setReg_task_self _ _ _ _ (hn ▸ ht), hs]
    rfl
  refine ⟨⟨by simp [hn], fun u hu => ?_⟩, fun p hp => ?_, ?_, fun q hq => ?_, ?_⟩
  · rw [advance_task_ne _ _ _ _ hu, setReg_task_ne _ _ _ _ _ hu, hs]
  · rw [hk]
    cases p <;> first | rfl | exact absurd (by simp) hp
  · rw [hk]
    exact reg_setReg_self (s0.task t) r v
  · rw [hk]
    exact reg_setReg_ne (s0.task t) r q v hq
  · rw [hk]

end Sys2Proof.Machine.Laws
end

