-- ==== Sys2Proof/Laws/PerInstr.lean ====
section
/-! SUPPORT. Statements about every command as syntax, one lemma per constructor. -/

namespace Sys2Proof.Laws

/-- K, the number of operand words, by command (30_encoding.md R119). -/
def operandWordsOf : Instr → Nat
  | .wreg _ => 0
  | .wake _ => 0
  | .signal _ => 0
  | .dres _ => 0
  | .dcfg _ _ _ _ _ _ _ _ => 4
  | .den _ => 0
  | .dtrg _ => 0
  | .dpoll _ _ => 0
  | .drd _ _ _ => 0
  | .tnow _ => 0
  | .tsched _ => 0
  | .talarm _ _ => 0
  | .trd _ _ => 0
  | .li _ _ => 2
  | .addi _ _ _ => 0
  | .ld _ _ _ => 1
  | .st _ _ _ => 1
  | .beq _ _ _ => 1
  | .bne _ _ _ => 1
  | .jmp _ => 1
  | .yield => 0
  | .halt => 0
  | .bltu _ _ _ => 1

/-- A command is encoded in 1 + K words, K as 30_encoding.md R119 gives it. -/
def EncodeLength.Statement (i : Instr) : Prop := commandLength i = 1 + operandWordsOf i

theorem EncodeLength.wreg (cell : BitVec 16) :
    EncodeLength.Statement (.wreg cell) := rfl
theorem EncodeLength.wake (cell : BitVec 16) :
    EncodeLength.Statement (.wake cell) := rfl
theorem EncodeLength.signal (handle : BitVec 16) :
    EncodeLength.Statement (.signal handle) := rfl
theorem EncodeLength.dres (ch : BitVec 6) :
    EncodeLength.Statement (.dres ch) := rfl
theorem EncodeLength.dcfg (rd : RegNum) (ch : BitVec 6) (dir wc : BitVec 2) (src dst count opts : Word32) :
    EncodeLength.Statement (.dcfg rd ch dir wc src dst count opts) := rfl
theorem EncodeLength.den (ch : BitVec 6) :
    EncodeLength.Statement (.den ch) := rfl
theorem EncodeLength.dtrg (ch : BitVec 6) :
    EncodeLength.Statement (.dtrg ch) := rfl
theorem EncodeLength.dpoll (rd : RegNum) (ch : BitVec 6) :
    EncodeLength.Statement (.dpoll rd ch) := rfl
theorem EncodeLength.drd (rd : RegNum) (ch : BitVec 6) (sel : BitVec 4) :
    EncodeLength.Statement (.drd rd ch sel) := rfl
theorem EncodeLength.tnow (rd : RegNum) :
    EncodeLength.Statement (.tnow rd) := rfl
theorem EncodeLength.tsched (rs : RegNum) :
    EncodeLength.Statement (.tsched rs) := rfl
theorem EncodeLength.talarm (rd rs : RegNum) :
    EncodeLength.Statement (.talarm rd rs) := rfl
theorem EncodeLength.trd (rd : RegNum) (sel : BitVec 4) :
    EncodeLength.Statement (.trd rd sel) := rfl
theorem EncodeLength.li (rd : RegNum) (imm : Word) :
    EncodeLength.Statement (.li rd imm) := rfl
theorem EncodeLength.addi (rd rs : RegNum) (imm : BitVec 16) :
    EncodeLength.Statement (.addi rd rs imm) := rfl
theorem EncodeLength.ld (rd : RegNum) (wc : BitVec 2) (addr : Word32) :
    EncodeLength.Statement (.ld rd wc addr) := rfl
theorem EncodeLength.st (rs : RegNum) (wc : BitVec 2) (addr : Word32) :
    EncodeLength.Statement (.st rs wc addr) := rfl
theorem EncodeLength.beq (rs : RegNum) (imm : BitVec 16) (target : Word32) :
    EncodeLength.Statement (.beq rs imm target) := rfl
theorem EncodeLength.bne (rs : RegNum) (imm : BitVec 16) (target : Word32) :
    EncodeLength.Statement (.bne rs imm target) := rfl
theorem EncodeLength.jmp (target : Word32) :
    EncodeLength.Statement (.jmp target) := rfl
theorem EncodeLength.yield :
    EncodeLength.Statement (.yield) := rfl
theorem EncodeLength.halt :
    EncodeLength.Statement (.halt) := rfl
theorem EncodeLength.bltu (rs rt : RegNum) (target : Word32) :
    EncodeLength.Statement (.bltu rs rt target) := rfl

end Sys2Proof.Laws
end

