-- ==== Sys2Proof/Tests/Slice0.lean ====
section
/-! SUPPORT. Tests. Expected values come from spec/95_test_vectors.md (its row is named) or from the rule named; each test is
one step on a small state. A `witness_` theorem shows that the hypotheses of the obligation it names are met together. -/

namespace Sys2Proof.Tests

open Sys2Proof.Machine

/-! ### Well-formed launches: each check of 70_reset_and_hazards.md R352 refuses a launch that breaks it -/

/-- One channel, one task, one cell of each class. -/
def oneEach : Counts := ⟨1, 1, 1, 1, 1, 1⟩

theorem test_launch_admitted : launchAdmitted oneEach Config.commonParams = true := by decide
theorem test_launch_sixty_four_channels :
    launchAdmitted { oneEach with nch := 64 } Config.commonParams = true := by decide +kernel
theorem test_launch_table_at_top :
    launchAdmitted { oneEach with nch := 64 } { Config.commonParams with descBase := 0xFFFFFC00 } = true := by
  decide +kernel
theorem test_launch_no_channel :
    launchAdmitted { oneEach with nch := 0 } Config.commonParams = false := by decide
theorem test_launch_65_channels :
    launchAdmitted { oneEach with nch := 65 } Config.commonParams = false := by decide
theorem test_launch_no_task :
    launchAdmitted { oneEach with ntasks := 0 } Config.commonParams = false := by decide
theorem test_launch_65537_tasks :
    launchAdmitted { oneEach with ntasks := 65537 } Config.commonParams = false := by decide
theorem test_launch_4097_i2c :
    launchAdmitted { oneEach with nI2c := 4097 } Config.commonParams = false := by decide
theorem test_launch_4097_rng :
    launchAdmitted { oneEach with nRng := 4097 } Config.commonParams = false := by decide
theorem test_launch_4097_wdt :
    launchAdmitted { oneEach with nWdt := 4097 } Config.commonParams = false := by decide
theorem test_launch_4097_espi :
    launchAdmitted { oneEach with nEspi := 4097 } Config.commonParams = false := by decide
theorem test_launch_unaligned_table :
    launchAdmitted oneEach { Config.commonParams with descBase := 0x20000010 } = false := by
  decide
theorem test_launch_table_past_top :
    launchAdmitted oneEach { Config.commonParams with descBase := 2 ^ 32 } = false := by
  decide
theorem test_launch_table_not_ram :
    launchAdmitted oneEach { Config.commonParams with descBase := 0x40000000 } = false := by
  decide
theorem test_launch_no_transfer :
    launchAdmitted oneEach { Config.commonParams with dmaMaxXfer := 0 } = false := by decide
theorem test_launch_no_queue :
    launchAdmitted oneEach { Config.commonParams with queueCap := 0 } = false := by decide
theorem test_launch_no_increment :
    launchAdmitted oneEach { Config.commonParams with tickInc := 0 } = false := by decide
theorem test_launch_whole_period_increment :
    launchAdmitted oneEach { Config.commonParams with tickInc := 2 ^ 31 } = false := by
  decide
theorem test_reset_admitted : State.reset.admitted = true := by decide +kernel

/-! ### Decoding: words written out from 30_encoding.md R116 and the examples of the command rules -/

theorem test_decode_wreg : decode [0x01001000] = .ok (.wreg 0x1000, []) := by decide
theorem test_decode_wake : decode [0x02003001] = .ok (.wake 0x3001, []) := by decide
theorem test_decode_signal : decode [0x03000001] = .ok (.signal 1, []) := by decide
theorem test_decode_dres : decode [0x10000005] = .ok (.dres 5, []) := by decide
/-- V-D3: P2M, 16-bit, channel 2. -/
theorem test_decode_dcfg :
    decode [0x11300182, 0x40000010, 0x20003000, 3, 0] =
      .ok (.dcfg 3 2 2 1 0x40000010 0x20003000 3 0, []) := by decide
theorem test_decode_den : decode [0x12000002] = .ok (.den 2, []) := by decide
theorem test_decode_dtrg : decode [0x13000020] = .ok (.dtrg 32, []) := by decide
theorem test_decode_dpoll : decode [0x14400003] = .ok (.dpoll 4 3, []) := by decide
/-- V-D35: DRD r7, 40, DONE. -/
theorem test_decode_drd : decode [0x157000E8] = .ok (.drd 7 40 3, []) := by decide
theorem test_decode_tnow : decode [0x20300000] = .ok (.tnow 3, []) := by decide
theorem test_decode_tsched : decode [0x21020000] = .ok (.tsched 2, []) := by decide
theorem test_decode_talarm : decode [0x22520000] = .ok (.talarm 5 2, []) := by decide
theorem test_decode_trd : decode [0x23600005] = .ok (.trd 6 5, []) := by decide
/-- R113: w1 is the low word, w2 the high word. -/
theorem test_decode_li :
    decode [0x30100000, 0x11223344, 0x55667788] = .ok (.li 1 0x5566778811223344, []) := by decide
theorem test_decode_addi : decode [0x3121FFFF] = .ok (.addi 2 1 0xFFFF, []) := by decide
theorem test_decode_ld : decode [0x32500001, 0x20001002] = .ok (.ld 5 1 0x20001002, []) := by decide
theorem test_decode_st : decode [0x33010002, 0x20001000] = .ok (.st 1 2 0x20001000, []) := by decide
theorem test_decode_beq : decode [0x34030000, 7] = .ok (.beq 3 0 7, []) := by decide
theorem test_decode_bne : decode [0x35040000, 26, 0x38000000] = .ok (.bne 4 0 26, [0x38000000]) := by
  decide
theorem test_decode_jmp : decode [0x36000000, 20] = .ok (.jmp 20, []) := by decide
theorem test_decode_yield : decode [0x37000000] = .ok (.yield, []) := by decide
theorem test_decode_halt : decode [0x38000000] = .ok (.halt, []) := by decide
/-- V-H14: rs is the RS field, rt the RD field. -/
theorem test_decode_bltu : decode [0x39320000, 0] = .ok (.bltu 2 3 0, []) := by decide

/-- V-C1 to V-C5: an OP byte outside the map, and non-zero must-be-zero fields. -/
theorem test_decode_illegal :
    decode [0x00000000] = .error (.illegalHeader 0x00000000) ∧
    decode [0x37000001] = .error (.illegalHeader 0x37000001) ∧
    decode [0x10000040] = .error (.illegalHeader 0x10000040) ∧
    decode [0x11300400, 0, 0, 0, 0] = .error (.illegalHeader 0x11300400) ∧
    decode [0x3FFFFFFF] = .error (.illegalHeader 0x3FFFFFFF) := by
  refine ⟨?_, ?_, ?_, ?_, ?_⟩ <;> decide
/-- V-C6: ADDI r15, r15, −1. -/
theorem test_decode_all_ones : decode [0x31FFFFFF] = .ok (.addi 15 15 0xFFFF, []) := by decide
/-- V-C7: a DCFG cut short. -/
theorem test_decode_cut : decode [0x11300200, 0x20001000, 0x20002000] = .error .endOfStream := by
  decide
theorem test_encode_dcfg :
    encode (.dcfg 3 3 1 2 0x20004000 0xFFFFFFFC 5 0) =
      [0x11300243, 0x20004000, 0xFFFFFFFC, 5, 0] := by decide
theorem test_table_word : decodeTableWord 96 0x556677881122334430100000 =
    some (.li 1 0x5566778811223344) := by decide +kernel

/-! ### Small states -/

/-- The common launch of 95_test_vectors.md with two channels. -/
def small : State :=
  State.launch { commonLaunch with chans := [Channel.blank, Channel.blank] }

/-- Task 0 runs the words `ws`; the next choice is the host's. -/
def running (ws : List Word32) : State :=
  { small with
    tasks := [{ Task.blank with prog := ws, tstate := .running }, Task.blank]
    current := some 0
    choices := [.host] }

/-- Channel 0 has the record c. -/
def withChan (s : State) (c : Channel) : State := s.updChan 0 fun _ => c

/-- RAM holds v in the n bytes from a. -/
def withRam (s : State) (a n v : Nat) : State := s.setMem (memWrite s.mem a n v)

/-- The next choice is c. -/
def withChoice (s : State) (c : Choice) : State := { s with choices := [c] }

/-- The clock reads P, C. -/
def atTime (s : State) (p c : Word32) : State := { s with period := p, count := c }

/-- A channel that task 0 has reserved. -/
def reserved : Channel := { Channel.blank with res := some 0 }

/-- V-D1 with count 2 has been executed, and DEN. -/
def configured : Channel :=
  { reserved with cfg := ⟨true, 0, 2, true, true, 2, 0⟩, enable := true, inten := true }

/-- V-D22: the transfer of V-D1 with count 2 is in flight. -/
def inFlight : Channel :=
  { configured with
    cfg := ⟨false, 0, 2, true, true, 2, 0⟩
    active := true
    started := true
    xfer := ⟨2, 0x20001004, 0x20002004, 4, true, true, 0, 2⟩ }

/-- The transfer of `inFlight` is complete and the shim has run. -/
def complete : Channel :=
  { inFlight with active := false, done := true, inten := false, xfer := { inFlight.xfer with rem := 0 } }

/-- The descriptor of channel 0 as V-D1 with count 2 leaves it. -/
def withDescriptor (s : State) : State :=
  withRam (withRam s 0x20000004 4 0x20001004) 0x20000008 4 0x20002004

/-- The next state of an outcome, the reset state where there is none. -/
def after (o : Host.Outcome State Fault Refusal) : State :=
  match o with
  | .next s => s
  | _ => State.reset

/-- Is there a next state? -/
def isNext (o : Host.Outcome State Fault Refusal) : Bool :=
  match o with
  | .next _ => true
  | _ => false

/-- The state after one step. -/
def next (s : State) : State := after (step s)

/-- The fault a step takes. -/
def faultAfter (s : State) : Option BlockFault := (next s).fault.map FaultRecord.fault

theorem next_of_isNext (s : State) (h : isNext (step s) = true) : step s = .next (next s) := by
  unfold next
  generalize step s = o at *
  cases o <;> first | rfl | cases h

/-! ### Commands, one step each through `step` -/

/-- V-W1. -/
theorem test_wreg :
    let s := next ({ running [0x01001000] with i2cCells := [some 1] })
    s.i2cCells = [some 0] ∧ (s.task 1).ready = false ∧ (s.task 0).cp = 1 := by decide
/-- V-W6. -/
theorem test_wreg_reserved_class : faultAfter (running [0x01005000]) = some (.badCell 0x5000) := by
  decide
/-- V-W3. -/
theorem test_wake :
    let s := next ({ running [0x02002000] with rngCells := [some 1] })
    s.rngCells = [none] ∧ (s.task 1).ready = true ∧ (s.task 0).ready = false := by decide
/-- V-W8. -/
theorem test_wake_past_count : faultAfter (running [0x02003001]) = some (.badCell 0x3001) := by
  decide
/-- V-W4. -/
theorem test_signal : ((next (running [0x03000001])).task 1).ready = true := by decide
/-- V-W5. -/
theorem test_signal_no_task : faultAfter (running [0x03000002]) = some (.badHandle 2) := by
  decide
/-- R160: RES[1] = Some 0. -/
theorem test_dres : ((next (running [0x10000001])).chan 1).res = some 0 := by decide
/-- V-D31. -/
theorem test_dres_twice :
    faultAfter (withChan (running [0x10000000]) reserved) = some (.doubleReserve 0 (some 0)) := by
  decide
/-- V-D1: status, descriptor words and CHCFG. -/
theorem test_dcfg :
    let s := next (withChan (running [0x11300200, 0x20001000, 0x20002000, 4, 0]) reserved)
    (s.task 0).reg 3 = ⟨0, true⟩ ∧ (s.task 0).cp = 5 ∧
      memRead s.mem 0x20000004 4 = 0x2000100C ∧ memRead s.mem 0x20000008 4 = 0x2000200C ∧
      (s.chan 0).cfg = ⟨true, 0, 2, true, true, 4, 0⟩ := by decide
/-- V-D9: count 0 and opts 5. -/
theorem test_dcfg_typed_error_first :
    let s := next (withChan (running [0x11300200, 0x20001000, 0x20002000, 0, 5]) reserved)
    (s.task 0).reg 3 = ⟨3, true⟩ ∧ s.fault = none ∧ s.mem = [] := by decide
/-- V-D21. -/
theorem test_den :
    let s := next (withChan (running [0x12000000]) reserved)
    (s.chan 0).enable = true ∧ (s.chan 0).inten = true ∧ s.dmaIrq = false := by decide
/-- V-D14: channel 1 is unreserved. -/
theorem test_den_not_owner : faultAfter (running [0x12000001]) = some (.notOwner 1 0) := by
  decide
/-- V-D22. -/
theorem test_dtrg :
    (next (withDescriptor (withChan (running [0x13000000]) configured))).chan 0 = inFlight := by
  decide
/-- V-D32: the destination lies in the table. -/
theorem test_dtrg_into_table :
    faultAfter (withRam (withDescriptor (withChan (running [0x13000000]) configured))
      0x20000008 4 0x20000004) = some (.raceWithTable 0) := by decide
/-- V-E7. -/
theorem test_dpoll_ready :
    let s := next (withChan (running [0x14400000]) complete)
    (s.task 0).reg 4 = ⟨1, true⟩ ∧ (s.task 0).cp = 1 ∧ s.cell 0 = some none := by decide
/-- V-E6, its second micro-step. -/
theorem test_dpoll_registers :
    let s := next ((withChan (running [0x14400000]) inFlight).setPhase 0 1)
    s.cell 0 = some (some 0) ∧ (s.task 0).phase = 2 ∧ (s.task 0).cp = 0 := by decide
/-- V-D36: DRD r7, 0, ACTIVE. -/
theorem test_drd :
    ((next (withChan (running [0x15700080]) { inFlight with res := none })).task 0).reg 7 =
      ⟨1, true⟩ := by decide
/-- V-D34. -/
theorem test_drd_bad_selector : faultAfter (running [0x15700100]) = some (.badOperand 4) := by
  decide
/-- V-T20, its second micro-step: LATCH 0, one wrap since. -/
theorem test_tnow_after_wrap :
    ((next (atTime ((running [0x20300000]).setPhase 0 1) 1 0x80000003)).task 0).reg 3 =
      ⟨0x80000003, true⟩ := by decide
/-- R230, its first micro-step. -/
theorem test_tnow_latches :
    let s := next (atTime (running [0x20300000]) 7 0x80000003)
    (s.task 0).latch = 7 ∧ (s.task 0).phase = 1 ∧ (s.task 0).cp = 0 := by decide
/-- V-T16. -/
theorem test_tsched :
    let s := next (atTime ((running [0x21020000]).setReg 0 2 103) 0 100)
    s.queue = [⟨103, 0⟩] ∧ s.compare = 103 ∧ s.alarmTs = some 103 ∧ s.alarmEn = true := by
  decide
/-- V-T19. -/
theorem test_tsched_overdue :
    let s := next (atTime ((running [0x21020000]).setReg 0 2 50) 0 100)
    s.queue = [] ∧ (s.task 0).ready = true ∧ s.alarmTs = none ∧ s.alarmEn = false := by
  decide
/-- V-T8. -/
theorem test_talarm_overdue :
    let s := next (atTime ((running [0x22520000]).setReg 0 2 100) 0 100)
    (s.task 0).reg 5 = ⟨0, true⟩ ∧ s.alarmEn = false ∧ s.alarmTs = none := by decide
/-- V-T12. -/
theorem test_talarm_deferred :
    let s := next (atTime ((running [0x22520000]).setReg 0 2 0x80000005) 0 100)
    (s.task 0).reg 5 = ⟨1, true⟩ ∧ s.compare = 5 ∧ s.alarmEn = false ∧
      s.alarmTs = some 0x80000005 := by decide
/-- V-T22, ALARM_TS. -/
theorem test_trd_no_alarm :
    ((next (running [0x23600004])).task 0).reg 6 = ⟨0xFFFFFFFFFFFFFFFF, true⟩ := by decide
/-- V-T24. -/
theorem test_trd_bad_selector : faultAfter (running [0x23600007]) = some (.badOperand 7) := by
  decide
/-- V-H1. -/
theorem test_li :
    let s := next (running [0x30100000, 0xFFFFFFFF, 0xFFFFFFFF])
    (s.task 0).reg 1 = ⟨0xFFFFFFFFFFFFFFFF, true⟩ ∧ (s.task 0).cp = 3 := by decide
/-- V-H2. -/
theorem test_addi_wraps :
    ((next ((running [0x31210001]).setReg 0 1 0xFFFFFFFFFFFFFFFF)).task 0).reg 2 = ⟨0, true⟩ := by
  decide
/-- V-H4: the source is also the destination, and the sum is negative: 5 − 32768 = −32763. -/
theorem test_addi_negative :
    ((next ((running [0x31118000]).setReg 0 1 5)).task 0).reg 1 =
      ⟨0xFFFFFFFFFFFF8005, true⟩ := by decide
/-- V-H5. -/
theorem test_ld :
    ((next (withRam (running [0x32500003, 0x20001000]) 0x20001000 8 0x5566778811223344)).task 0).reg
      5 = ⟨0x5566778811223344, true⟩ := by decide
/-- V-H18: a load from the destination of a transfer in flight. -/
theorem test_ld_races :
    faultAfter (withChan (running [0x32500002, 0x20002000]) inFlight) =
      some (.raceWithHost 0 0x20002000 4) := by decide
/-- V-H9. -/
theorem test_st :
    let s := next ((running [0x33010001, 0x20001010]).setReg 0 1 0x11223344)
    s.mem = [(0x20001010, 0x44), (0x20001011, 0x33)] := by decide
/-- V-H10. -/
theorem test_st_unwritten :
    faultAfter (running [0x33090002, 0x20001000]) = some (.uninitReg 0 9) := by decide
/-- V-H12. -/
theorem test_beq_all_bits :
    ((next ((running [0x34030000, 7]).setReg 0 3 0x10000)).task 0).cp = 2 := by decide
/-- R275: x[r3] = 0 branches. -/
theorem test_beq_taken : ((next ((running [0x34030000, 7]).setReg 0 3 0)).task 0).cp = 7 := by
  decide
/-- R276: x[r4] = 1 branches to 26. -/
theorem test_bne_taken : ((next ((running [0x35040000, 26]).setReg 0 4 1)).task 0).cp = 26 := by
  decide
/-- V-H15. -/
theorem test_jmp : ((next (running [0x36000000, 1000])).task 0).cp = 1000 := by decide
/-- V-H16: CP stays at the YIELD. -/
theorem test_yield :
    let s := next (running [0x37000000])
    s.current = none ∧ (s.task 0).tstate = .suspended ∧ (s.task 0).cp = 0 := by decide
/-- R279. -/
theorem test_halt :
    let s := next (running [0x38000000])
    s.current = none ∧ (s.task 0).tstate = .halted ∧ (s.task 0).cp = 0 := by decide
/-- V-H14. -/
theorem test_bltu_unsigned :
    ((next (((running [0x39320000, 0]).setReg 0 3 0x8000000000000000).setReg 0 2 1)).task 0).cp =
      0 := by decide
/-- V-H13. -/
theorem test_bltu_equal :
    ((next (((running [0x39230000, 0]).setReg 0 3 7).setReg 0 2 7)).task 0).cp = 2 := by
  decide

/-! ### Fetch, faults and the other agents -/

/-- V-C8. -/
theorem test_fetch_past_end : faultAfter (running []) = some (.cpRange 0 0) := by decide
/-- V-C2 with the record of R300. -/
theorem test_fault_record :
    (next (running [0x37000001])).fault =
      some ⟨.illegalCmd 0 0 0x37000001, .host, some 0, some 0⟩ := by decide
/-- V-E1: the first element moves. -/
theorem test_engine_element :
    let s := next (withChoice (withChan (withRam small 0x20001000 8 0x5566778811223344) inFlight)
      (.engine 0 false))
    memRead s.mem 0x20002000 8 = 0x11223344 ∧ (s.chan 0).xfer.rem = 1 ∧ s.hist.length = 2 ∧
      (s.chan 0).active = true := by decide
/-- V-E2: the last element completes the transfer. -/
theorem test_engine_completes :
    let s := next (withChoice (withChan (withRam small 0x20001000 8 0x5566778811223344)
      { inFlight with xfer := { inFlight.xfer with rem := 1 } }) (.engine 0 false))
    memRead s.mem 0x20002004 4 = 0x55667788 ∧ (s.chan 0).active = false ∧
      (s.chan 0).done = true ∧ s.dmaIrq = true := by decide
/-- V-E4, one channel of it. -/
theorem test_shim :
    let s := next (withChoice (withChan small { complete with inten := true, waker := some 0 })
      .dmaShim)
    (s.chan 0).inten = false ∧ (s.chan 0).waker = none ∧ (s.chan 0).done = true ∧
      (s.task 0).ready = true ∧ s.dmaIrq = false := by decide
/-- V-T3. -/
theorem test_tick_wraps :
    let s := next (withChoice { atTime small 0 0x7FFFFFFD with
      tickPend := true, params := { Config.commonParams with tickInc := 5 } } .tickHandler)
    s.period = 1 ∧ s.count = 0x80000002 ∧ s.nowi = 0x80000002 ∧ s.tickPend = false := by
  decide
/-- V-T15: the alarm fires across the wrap. -/
theorem test_tick_fires :
    let s := next (withChoice { atTime small 0 0x7FFFFFFD with
      tickPend := true, params := { Config.commonParams with tickInc := 10 }
      alarmTs := some 0x7FFFFFFF, alarmEn := true, queue := [⟨0x7FFFFFFF, 0⟩] } .tickHandler)
    s.count = 0x80000007 ∧ (s.task 0).ready = true ∧ s.queue = [] ∧ s.alarmTs = none ∧
      s.alarmEn = false := by decide
/-- V-H17. -/
theorem test_resume_needs_ready :
    (small.setTstate 0 .suspended).enabled (.resume 0) = false := by decide
/-- V-X2. -/
theorem test_reset_runs : State.reset.runEnd = .running := by decide
/-- V-X5. -/
theorem test_stuck :
    ((small.setTstate 0 .suspended).setTstate 1 .halted).runEnd = .stuck := by decide
/-- withFetchWord: the very next step runs the command. -/
theorem test_withFetchWord :
    ((next (State.reset.withFetchWord 32 0x37000000)).task 0).tstate = .suspended := by
  decide +kernel

/-! ### Witnesses: encoding, fetch, step -/

theorem witness_EncodeOfDecode : decode [0x36000000, 20, 5] = .ok (.jmp 20, [5]) := by decide

/-- A header that begins no command: its OP byte is none of the map's, or it is YIELD's with IMM16 not zero. -/
theorem begins_no_command (h : Word32) (hh : h = 0x3FFFFFFF ∨ h = 0x37000001) (i : Instr) :
    (encode i).head? ≠ some h := by
  intro hi
  rcases hh with rfl | rfl <;> cases i <;>
    simp only [encode, List.head?_cons, Option.some.injEq] at hi <;>
    first
      | exact absurd hi (by decide)
      | (have ho := congrArg (fun w : Word32 => w.extractLsb' 24 8) hi
         simp only [Laws.headerOp_header] at ho
         exact absurd ho (by decide))

theorem witness_IllegalHeadersRefused :
    (0x3FFFFFFF : Word32).extractLsb' 24 8 ∉ ([0x01, 0x02, 0x03, 0x10, 0x11, 0x12, 0x13, 0x14, 0x15,
      0x20, 0x21, 0x22, 0x23, 0x30, 0x31, 0x32, 0x33, 0x34, 0x35, 0x36, 0x37, 0x38, 0x39] :
        List (BitVec 8)) ∧
    ∀ i : Instr, (encode i).head? ≠ some 0x37000001 :=
  ⟨by decide, begins_no_command _ (.inr rfl)⟩

theorem witness_FetchAtCp_past_end :
    let k := ((running [0x37000000]).setCp 0 1).task 0
    k.prog.length ≤ k.cp := by decide
theorem witness_FetchAtCp_illegal :
    ((running [0x37000001]).task 0).prog[0]? = some 0x37000001 ∧
    ∀ i : Instr, (encode i).head? ≠ some 0x37000001 :=
  ⟨by decide, begins_no_command _ (.inr rfl)⟩
theorem witness_FetchAtCp_cut :
    let k := (running [0x36000000]).task 0
    k.prog[k.cp]? = some 0x36000000 ∧ (encode (.jmp 20)).head? = some 0x36000000 ∧
      k.prog.length < k.cp + commandLength (.jmp 20) := by decide
theorem witness_FetchAtCp_command :
    let k := (running [0x36000000, 20]).task 0
    encode (.jmp 20) <+: k.prog.drop k.cp := by decide

theorem witness_StepRunsDecodedCommand_command :
    let s := running [0x37000000]
    s.fault = none ∧ s.admitted = true ∧ s.nextChoice = .host ∧ s.current = some 0 ∧
      s.fetch 0 = .ok .yield := by decide
theorem witness_StepRunsDecodedCommand_fault :
    let s := running []
    s.fault = none ∧ s.admitted = true ∧ s.nextChoice = .host ∧ s.current = some 0 ∧
      s.fetch 0 = .error (.cpRange 0 0) := by decide

/-- A fault's record. -/
def someRecord : FaultRecord := ⟨.cpRange 0 0, .host, some 0, some 0⟩

theorem witness_NoStepOnceFaulted : { small with fault := some someRecord }.fault ≠ none := by decide

theorem witness_FaultingStepWritesNothing_host :
    step (running []) = .next (next (running [])) ∧ (next (running [])).fault = some someRecord ∧
      someRecord.agent = .host :=
  ⟨next_of_isNext _ (by decide), by decide, rfl⟩

/-- The transfer of `inFlight` with its source in an unmapped region. -/
def strayEngine : State :=
  withChoice (withChan small
    { inFlight with xfer := { inFlight.xfer with srcEnd := 0x30000004 } }) (.engine 0 false)

theorem witness_FaultingStepWritesNothing_engine :
    step strayEngine = .next (next strayEngine) ∧
      (next strayEngine).fault =
        some ⟨.bus (.engine 0) 0x30000000 4, .engine 0, none, none⟩ :=
  ⟨next_of_isNext _ (by decide), by decide⟩

theorem witness_OnlyBusFaultsOutsideHost_agents :
    ∀ c ∈ ([.dmaShim, .tickHandler, .tickSource, .start 0, .resume 1] : List Choice),
      (withChoice small c).nextChoice = c ∧ isNext (step (withChoice small c)) = true := by decide
theorem witness_OnlyBusFaultsOutsideHost_engine :
    step strayEngine = .next (next strayEngine) ∧ strayEngine.nextChoice = .engine 0 false ∧
      (next strayEngine).fault ≠ none :=
  ⟨next_of_isNext _ (by decide), by decide, by decide⟩

/-! ### Witnesses: reset and invariants -/

theorem witness_ResetValues : commonLaunch.Clean := by
  intro k hk r
  have hk' : k = Task.blank := List.eq_of_mem_replicate hk
  subst hk'
  revert r
  decide

theorem witness_LaunchMeetsInvariant : commonLaunch.Admitted := ⟨test_reset_admitted, by decide⟩

/-- ST of r1, low two bytes. -/
def storing : State := (running [0x33010001, 0x20001010]).setReg 0 1 0x11223344

theorem witness_StepKeepsMemoryForm :
    storing.MemOk ∧ step storing = .next (next storing) ∧ (next storing).mem ≠ storing.mem :=
  ⟨by decide, next_of_isNext _ (by decide), by decide⟩

/-- The tick handler steps next, on the last count of period 0. -/
def wrapping : State := withChoice { atTime small 0 0x7FFFFFFF with tickPend := true } .tickHandler

theorem witness_StepKeepsParity :
    wrapping.ParityOk ∧ step wrapping = .next (next wrapping) ∧ (next wrapping).period = 1 :=
  ⟨by decide, next_of_isNext _ (by decide), by decide⟩

theorem running_currentOk (ws : List Word32) : (running ws).CurrentOk := by
  constructor
  · intro t h
    cases h
    exact (by decide : 0 < 2)
  · intro t h
    have h2 : t < 2 := h
    obtain rfl | rfl : t = 0 ∨ t = 1 := by omega
    · exact ⟨⟨fun _ => rfl, fun _ => rfl⟩,
        fun h => absurd h (by decide : TaskState.running ≠ .init)⟩
    · exact ⟨⟨fun h => absurd h (by decide : TaskState.init ≠ .running),
        fun h => absurd h (by decide : (some 0 : Option Nat) ≠ some 1)⟩, fun _ => ⟨rfl, rfl⟩⟩

theorem witness_StepKeepsCurrent :
    (running [0x37000000]).CurrentOk ∧
      step (running [0x37000000]) = .next (next (running [0x37000000])) :=
  ⟨running_currentOk _, next_of_isNext _ (by decide)⟩

/-- The engine moves the last element next. -/
def lastElement : State :=
  withChoice (withChan small { inFlight with xfer := { inFlight.xfer with rem := 1 } })
    (.engine 0 false)

theorem witness_StepKeepsChannelFlags :
    lastElement.ChannelsOk ∧ step lastElement = .next (next lastElement) ∧
      (next lastElement).chan 0 ≠ lastElement.chan 0 :=
  ⟨by decide, next_of_isNext _ (by decide), by decide⟩

/-- TSCHED with an entry of each task queued. -/
def scheduling : State :=
  { (running [0x21020000]).setReg 0 2 150 with queue := [⟨150, 0⟩, ⟨150, 1⟩], i2cCells := [some 1] }

theorem witness_StepKeepsHandlesAndQueue :
    scheduling.HandlesOk ∧ scheduling.QueueOk ∧ step scheduling = .next (next scheduling) := by
  refine ⟨⟨?_, ?_, by decide⟩, by decide, next_of_isNext _ (by decide)⟩
  · intro c hc h hh
    have hb : c = Channel.blank := by
      have : c ∈ [Channel.blank, Channel.blank] := hc
      simpa using this
    subst hb
    rcases hh with hh | hh <;> cases hh
  · intro x hx h hh
    have hm : x ∈ [some 1, none, none, none] := hx
    subst hh
    have h1 : h = 1 := by simpa using hm
    subst h1
    decide

/-- DPOLL r4, 0 at micro-step p + 1, with a channel record. -/
def polling (c : Channel) (p : Fin 4) : State := (withChan (running [0x14400000]) c).setPhase 0 p

theorem polling_phaseOk (c : Channel) (p : Fin 4) (hr : c.res = some 0) (hs : c.started = true) :
    (polling c p).PhaseOk := by
  intro t h hp
  have h2 : t < 2 := h
  obtain rfl | rfl : t = 0 ∨ t = 1 := by omega
  · exact ⟨rfl, .inl ⟨4, 0, rfl, ⟨(by decide : 0 < 2), hr⟩, hs⟩⟩
  · exact absurd rfl hp

theorem witness_StepKeepsPhase_dpoll :
    (polling inFlight 1).PhaseOk ∧
      step (polling inFlight 1) = .next (next (polling inFlight 1)) :=
  ⟨polling_phaseOk _ _ rfl rfl, next_of_isNext _ (by decide)⟩

/-- TNOW r3 at its second micro-step. -/
def readingClock : State := (running [0x20300000]).setPhase 0 1

theorem witness_StepKeepsPhase_tnow :
    readingClock.PhaseOk ∧ step readingClock = .next (next readingClock) := by
  refine ⟨?_, next_of_isNext _ (by decide)⟩
  intro t h hp
  have h2 : t < 2 := h
  obtain rfl | rfl : t = 0 ∨ t = 1 := by omega
  · exact ⟨rfl, .inr ⟨3, rfl, rfl⟩⟩
  · exact absurd rfl hp

theorem witness_ReadyMeansComplete_first :
    let s := polling complete 0
    s.ChannelsOk ∧ s.PhaseOk ∧ 0 < s.ntasks ∧ s.nextChoice = .host ∧ s.current = some 0 ∧
      s.fetch 0 = .ok (.dpoll 4 0) ∧ step s = .next (next s) ∧ (next s).fault = none ∧
      ((next s).task 0).phase = 0 ∧ RegHolds (next s) 0 4 1 :=
  ⟨by decide, polling_phaseOk _ _ rfl rfl, by decide, by decide, by decide, by decide,
    next_of_isNext _ (by decide), by decide, by decide, by decide⟩
theorem witness_ReadyMeansComplete_last :
    let s := polling complete 3
    s.ChannelsOk ∧ s.PhaseOk ∧ 0 < s.ntasks ∧ s.nextChoice = .host ∧ s.current = some 0 ∧
      s.fetch 0 = .ok (.dpoll 4 0) ∧ step s = .next (next s) ∧ (next s).fault = none ∧
      ((next s).task 0).phase = 0 ∧ RegHolds (next s) 0 4 1 :=
  ⟨by decide, polling_phaseOk _ _ rfl rfl, by decide, by decide, by decide, by decide,
    next_of_isNext _ (by decide), by decide, by decide, by decide⟩

theorem witness_FixedForTheRun :
    step lastElement = .next (next lastElement) ∧ (lastElement.chan 0).res = some 0 :=
  ⟨next_of_isNext _ (by decide), by decide⟩

theorem witness_OnlyNamedWriters :
    let s := running [0x30100000, 5, 0]
    step s = .next (next s) ∧ s.current ≠ some 1 ∧ s.nextChoice ≠ .tickHandler ∧
      (∀ ch g, s.nextChoice ≠ .engine ch g) ∧ s.fetch 0 = .ok (.li 1 5) :=
  ⟨next_of_isNext _ (by decide), by decide, by decide, fun _ _ h => Choice.noConfusion h, by decide⟩
/-- The shim steps while the running task stands at an ST. -/
theorem witness_OnlyNamedWriters_agent :
    let s := withChoice (running [0x33010001, 0x20001010]) .dmaShim
    step s = .next (next s) ∧ s.nextChoice ≠ .host ∧ s.current = some 0 :=
  ⟨next_of_isNext _ (by decide), by decide, by decide⟩
/-- ST to PERIPH. -/
theorem witness_OnlyNamedWriters_history :
    let s := (running [0x33010002, 0x40000000]).setReg 0 1 5
    step s = .next (next s) ∧ (next s).hist ≠ s.hist :=
  ⟨next_of_isNext _ (by decide), by decide⟩

/-! ### Witnesses: waker registry -/

theorem witness_CellIdsAndHandlesChecked :
    HostReady (running []) 0 ∧ (running []).cell 0x0002 = none ∧ (running []).cell 0x1001 = none ∧
      (running []).cell 0x5000 = none ∧ (running []).ntasks ≤ (2 : BitVec 16).toNat := by decide
theorem witness_WregStoresTask :
    HostReady (running []) 0 ∧ (running []).cell 0x0001 ≠ none ∧ (running []).cell 0x4000 ≠ none := by
  decide
theorem witness_WakeTakesHandle_held :
    let s := { running [] with rngCells := [some 1] }
    HostReady s 0 ∧ s.cell 0x2000 = some (some 1) := by decide
theorem witness_WakeTakesHandle_empty :
    HostReady (running []) 0 ∧ (running []).cell 0x2000 = some none := by decide
theorem witness_SignalReadiesTask :
    HostReady (running []) 0 ∧ (1 : BitVec 16).toNat < (running []).ntasks := by decide

/-! ### Witnesses: DMA commands -/

theorem witness_DresReserves_no_channel :
    HostReady (running []) 0 ∧ (running []).nch ≤ (2 : BitVec 6).toNat := by decide
theorem witness_DresReserves_free :
    HostReady (running []) 0 ∧ (1 : BitVec 6).toNat < (running []).nch ∧
      ((running []).chan 1).res = none := by decide
theorem witness_DoubleReserveFaults :
    let s := withChan (running []) reserved
    HostReady s 0 ∧ (0 : BitVec 6).toNat < s.nch ∧ (s.chan 0).res = some 0 := by decide

/-- The hypotheses of DcfgConfigures for channel 0. -/
abbrev DcfgPasses (s : State) (dir wc : BitVec 2) (src dst count : Word32) : Prop :=
  HostReady s 0 ∧ s.MemOk ∧ Owns s 0 0 ∧ (s.chan 0).active = false ∧ dir ≠ 3 ∧ wc ≠ 3 ∧
    1 ≤ count.toNat ∧ count.toNat ≤ s.params.dmaMaxXfer ∧ src.toNat % 2 ^ wc.toNat = 0 ∧
    dst.toNat % 2 ^ wc.toNat = 0 ∧
    (if dir = 2 then src.toNat else src.toNat + (count.toNat - 1) * 2 ^ wc.toNat) + 2 ^ wc.toNat ≤
      2 ^ 32 ∧
    (if dir = 1 then dst.toNat else dst.toNat + (count.toNat - 1) * 2 ^ wc.toNat) + 2 ^ wc.toNat ≤
      2 ^ 32 ∧ AllKind s s.params.descBase 16 .ram

theorem witness_DcfgConfigures_m2m_longest :
    DcfgPasses (withChan (running []) reserved) 0 2 0x20001000 0x20004000 1024 := by decide
theorem witness_DcfgConfigures_m2p_at_top :
    DcfgPasses (withChan (running []) reserved) 1 2 0x20004000 0xFFFFFFFC 5 := by decide
theorem witness_DcfgConfigures_p2m_one :
    DcfgPasses (withChan (running []) reserved) 2 1 0x40000010 0x20003000 1 := by decide

theorem witness_DcfgRefusals_channel :
    HostReady (running []) 0 ∧ (running []).nch ≤ (2 : BitVec 6).toNat := by decide
theorem witness_DcfgRefusals_owner :
    HostReady (running []) 0 ∧ ¬ (running []).nch ≤ (1 : BitVec 6).toNat ∧
      ((running []).chan 1).res ≠ some 0 := by decide
theorem witness_DcfgRefusals_busy :
    let s := withChan (running []) inFlight
    HostReady s 0 ∧ Owns s 0 0 ∧ (s.chan 0).active = true := by decide
/-- Past the first three checks, for the typed errors (dir = 3; wc = 3; count 0 and 1025), an option, a misaligned
base and a wrap of either side, and success. -/
theorem witness_DcfgRefusals_rest :
    let s := withChan (running []) reserved
    HostReady s 0 ∧ Owns s 0 0 ∧ (s.chan 0).active = false ∧
      s.params.dmaMaxXfer < (1025 : Word32).toNat ∧ (0x20001002 : Word32).toNat % 2 ^ 2 ≠ 0 ∧
      2 ^ 32 < (0xFFFFFFFC : Word32).toNat + (2 - 1) * 4 + 4 ∧
      AllKind s (s.params.descBase + 16 * (0 : BitVec 6).toNat) 16 .ram := by decide

theorem witness_DenEnables :
    HostReady (withChan (running []) reserved) 0 ∧ Owns (withChan (running []) reserved) 0 0 := by
  decide
theorem witness_OwnerChecked :
    HostReady (running []) 0 ∧ (running []).nch ≤ (2 : BitVec 6).toNat ∧
      (1 : BitVec 6).toNat < (running []).nch ∧ ((running []).chan 1).res ≠ some 0 := by decide

/-- DTRG's state: channel 0 has the record c, and its descriptor gives these end addresses and link. -/
def triggering (c : Channel) (se de lk : Nat) : State :=
  withRam (withRam (withRam (withChan (running []) c) 0x20000004 4 se) 0x20000008 4 de)
    0x2000000C 4 lk

theorem witness_DtrgTriggers :
    let s := triggering configured 0x20001004 0x20002004 0
    HostReady s 0 ∧ Owns s 0 0 ∧ s.chan 0 = configured ∧ AllKind s (0x20000000 + 4) 12 .ram ∧
      memRead s.mem (0x20000000 + 4) 4 = 0x20001004 ∧
      memRead s.mem (0x20000000 + 8) 4 = 0x20002004 ∧ memRead s.mem (0x20000000 + 12) 4 = 0 ∧
      0x20001004 % 4 = 0 ∧ 0x20002004 % 4 = 0 ∧ (2 - 1) * 4 ≤ 0x20001004 ∧
      (2 - 1) * 4 ≤ 0x20002004 ∧ 0x20001004 + 4 ≤ 2 ^ 32 ∧ 0x20002004 + 4 ≤ 2 ^ 32 ∧
      s.raceFault 0 (byteRange 0x20001004 2 4 true) (byteRange 0x20002004 2 4 true) = none := by
  decide
theorem witness_DtrgRefusals_busy :
    let s := triggering inFlight 0x20001004 0x20002004 0
    HostReady s 0 ∧ Owns s 0 0 ∧ AllKind s (0x20000000 + 4) 12 .ram ∧ (s.chan 0).active = true := by
  decide
theorem witness_DtrgRefusals_not_ready :
    let s := triggering reserved 0x20001004 0x20002004 0
    HostReady s 0 ∧ Owns s 0 0 ∧ AllKind s (0x20000000 + 4) 12 .ram ∧ (s.chan 0).active = false ∧
      (s.chan 0).cfg.valid = false := by decide
theorem witness_DtrgRefusals_link :
    let s := triggering configured 0x20001004 0x20002004 1
    HostReady s 0 ∧ Owns s 0 0 ∧ AllKind s (0x20000000 + 4) 12 .ram ∧
      memRead s.mem (0x20000000 + 12) 4 = 1 := by decide
theorem witness_DtrgRefusals_misaligned :
    let s := triggering configured 0x20001006 0x20002004 0
    HostReady s 0 ∧ Owns s 0 0 ∧ AllKind s (0x20000000 + 4) 12 .ram ∧
      memRead s.mem (0x20000000 + 4) 4 % 4 ≠ 0 := by decide
theorem witness_DtrgRefusals_below_zero :
    let s := triggering configured 0 0x20002004 0
    HostReady s 0 ∧ Owns s 0 0 ∧ AllKind s (0x20000000 + 4) 12 .ram ∧
      (s.chan 0).cfg.srcInc = true ∧ memRead s.mem (0x20000000 + 4) 4 < (2 - 1) * 4 := by decide
theorem witness_DtrgRefusals_race :
    let s := triggering configured 0x20001004 0x20000010 0
    HostReady s 0 ∧ Owns s 0 0 ∧ AllKind s (0x20000000 + 4) 12 .ram ∧
      s.raceFault 0 (byteRange 0x20001004 2 4 true) (byteRange 0x20000010 2 4 true) =
        some (.raceWithTable 0) := by decide

theorem witness_DpollMicroSteps_not_started :
    let s := polling configured 0
    Owns s 0 0 ∧ HostAtPhase s 0 0 ∧ (s.chan 0).started = false := by decide
theorem witness_DpollMicroSteps_ready :
    let s := polling complete 0
    Owns s 0 0 ∧ HostAtPhase s 0 0 ∧ (s.chan 0).started = true ∧ (s.chan 0).inten = false := by
  decide
theorem witness_DpollMicroSteps_pending :
    let s := polling inFlight 0
    Owns s 0 0 ∧ HostAtPhase s 0 0 ∧ (s.chan 0).started = true ∧ (s.chan 0).inten = true := by
  decide
theorem witness_DpollMicroSteps_later :
    Owns (polling inFlight 1) 0 0 ∧ HostAtPhase (polling inFlight 1) 0 1 ∧
      HostAtPhase (polling inFlight 2) 0 2 ∧ HostAtPhase (polling inFlight 3) 0 3 := by decide
theorem witness_DrdReadsBit :
    HostReady (running []) 0 ∧ (running []).nch ≤ (2 : BitVec 6).toNat ∧
      ¬ (running []).nch ≤ (1 : BitVec 6).toNat ∧ 3 < (4 : BitVec 4).toNat ∧
      ¬ 3 < (3 : BitVec 4).toNat := by decide

/-! ### Witnesses: engine, shim, races -/

/-- A state whose channel 0 has a one-element 4-byte transfer left, from `src` to `dst`, in direction dir. -/
def moving (dir : BitVec 2) (src dst : Word32) : State :=
  withChan small
    { inFlight with
      xfer := { inFlight.xfer with rem := 1, srcEnd := src, dstEnd := dst, dir := dir } }

/-- The common hypotheses of EngineMovesElement. -/
abbrev EngineMoves (s : State) : Prop :=
  s.fault = none ∧ s.MemOk ∧ 0 < s.nch ∧ (s.chan 0).active = true ∧ 0 < (s.chan 0).xfer.rem ∧
    0 < (s.chan 0).xfer.width

theorem witness_EngineMovesElement_no_grant :
    EngineMoves (moving 2 0x40000000 0x20002000) ∧
      ((moving 2 0x40000000 0x20002000).chan 0).xfer.dir = 2 := by decide
theorem witness_EngineMovesElement_bad_source :
    let s := moving 0 0x30000000 0x20002000
    EngineMoves s ∧ ¬ AllKind s 0x30000000 4 .ram ∧ ¬ AllKind s 0x30000000 4 .periph := by decide
theorem witness_EngineMovesElement_bad_destination :
    let s := moving 0 0x20001000 0x30000000
    EngineMoves s ∧ AllKind s 0x20001000 4 .ram ∧ ¬ AllKind s 0x30000000 4 .ram ∧
      ¬ AllKind s 0x30000000 4 .periph := by decide
theorem witness_EngineMovesElement_ram :
    let s := moving 0 0x20001000 0xFFFFFFFC
    EngineMoves s ∧ AllKind s 0x20001000 4 .ram ∧ AllKind s 0xFFFFFFFC 4 .ram := by decide
theorem witness_EngineMovesElement_periph :
    let s := moving 1 0x40000000 0x40000010
    EngineMoves s ∧ AllKind s 0x40000000 4 .periph ∧ AllKind s 0x40000010 4 .periph := by decide

/-- Two elements of 4 bytes, the destination right after the source. -/
theorem witness_WholeTransferCopies :
    let s := withChan small
      { inFlight with xfer := { inFlight.xfer with dstEnd := 0x2000100C } }
    EngineMoves s ∧ (s.chan 0).xfer.srcEnd.toNat = 0x20001000 + (2 - 1) * 4 ∧
      (s.chan 0).xfer.dstEnd.toNat = 0x20001008 + (2 - 1) * 4 ∧
      AllKind s 0x20001000 (2 * 4) .ram ∧ AllKind s 0x20001008 (2 * 4) .ram ∧
      0x20001000 + 2 * 4 ≤ 0x20001008 := by decide

/-- A completed transfer the shim has not served, with task 1 registered. -/
def completed : Channel := { complete with inten := true, waker := some 1 }

theorem witness_ShimServesAllChannels :
    (withChan small completed).fault = none ∧ (withChan small completed).nch ≤ 64 ∧
      (withChan small completed).dmaIrq = true := by decide
theorem witness_IrqStaysUntilServed_agent :
    let s := withChoice (withChan small completed) .tickSource
    step s = .next (next s) ∧ s.dmaIrq = true ∧ s.nextChoice = .tickSource :=
  ⟨next_of_isNext _ (by decide), by decide, by decide⟩
theorem witness_IrqStaysUntilServed_host :
    let s := withChan (running [0x12000000]) completed
    step s = .next (next s) ∧ s.dmaIrq = true ∧ s.nextChoice = .host ∧ s.fetch 0 = .ok (.den 0) :=
  ⟨next_of_isNext _ (by decide), by decide, by decide, by decide⟩

/-- The last byte of a two-channel table. -/
theorem witness_TransferRaces_table :
    ∃ b : Int, (⟨0x2000001F, 0x20000030⟩ : ByteRange).lo ≤ b ∧
      b ≤ (⟨0x2000001F, 0x20000030⟩ : ByteRange).hi ∧ (small.params.descBase : Int) ≤ b ∧
      b < (small.params.descBase : Int) + 16 * small.nch :=
  ⟨0x2000001F, by decide⟩
/-- V-D29: the last byte of channel 0's destination, byte 0x20002007. -/
theorem witness_TransferRaces_channel :
    let s := withChan small inFlight
    let x := (s.chan 0).xfer
    0 < s.nch ∧ 0 ≠ 1 ∧ (s.chan 0).active = true ∧
      (∃ b : Int, 0x20002007 ≤ b ∧ b ≤ 0x2000200A ∧ x.dstRange.lo ≤ b ∧ b ≤ x.dstRange.hi) ∧
      (¬ ∃ b : Int, 0x20002007 ≤ b ∧ b ≤ 0x2000200A ∧ (s.params.descBase : Int) ≤ b ∧
        b < (s.params.descBase : Int) + 16 * s.nch) ∧ ∀ c, ¬ c < 0 := by
  refine ⟨by decide, by decide, by decide, ⟨0x20002007, by decide⟩, ?_, fun c => by omega⟩
  rintro ⟨b, h1, -, -, h4⟩
  have h5 : b < 0x20000020 := h4
  omega
theorem witness_TransferRaces_none : ∀ c, ¬ ((small.chan c).active = true ∧ c < small.nch) := by
  rintro c ⟨h1, h2⟩
  have h3 : c < 2 := h2
  obtain rfl | rfl : c = 0 ∨ c = 1 := by omega
  all_goals exact absurd h1 (by decide)

theorem witness_HostRaces_none :
    HostReady (running []) 0 ∧ ∀ c, ¬ (c < (running []).nch ∧ ((running []).chan c).active = true) := by
  refine ⟨by decide, ?_⟩
  rintro c ⟨h2, h1⟩
  have h3 : c < 2 := h2
  obtain rfl | rfl : c = 0 ∨ c = 1 := by omega
  all_goals exact absurd h1 (by decide)
/-- The word of the destination's last element, and of channel 0's slot. -/
theorem witness_HostRaces_conflict :
    let s := (withChan (running []) inFlight).setReg 0 1 5
    HostReady s 0 ∧ RegHolds s 0 1 5 ∧ (s.chan 0).active = true ∧
      (s.chan 0).xfer.dstRange = ⟨0x20002000, 0x20002007⟩ ∧
      (0x20002004 : Word32).toNat % 2 ^ (2 : BitVec 2).toNat = 0 ∧
      s.params.descBase + 12 < s.params.descBase + 16 := by decide

/-! ### Witnesses: time driver -/

theorem witness_LogicalTimeExact : (atTime small 1 0x80000003).ParityOk := by decide
theorem witness_TornReadCorrected_two_wraps :
    (atTime small 2 0x7FFFFFFD).ParityOk ∧
      (atTime small 2 0x7FFFFFFD).period.toNat = (0 : Word32).toNat + 2 := by decide
theorem witness_TornReadCorrected_one_wrap :
    (atTime small 1 0x80000003).ParityOk ∧
      (atTime small 1 0x80000003).period.toNat = (0 : Word32).toNat + 1 := by decide
/-- The tick source steps where TICK_PEND is 1 already, and where it is 0. -/
theorem witness_TickAdvancesClock_source :
    wrapping.fault = none ∧ wrapping.tickPend = true ∧ small.fault = none ∧
      small.tickPend = false := by decide
theorem witness_TickAdvancesClock :
    wrapping.fault = none ∧ wrapping.tickPend = true ∧ wrapping.params.tickInc < 2 ^ 31 ∧
      wrapping.period.toNat < 2 ^ 32 - 1 := by decide
/-- The last count of the last period. -/
theorem witness_TickAdvancesClock_last_period :
    let s := { wrapping with period := 0xFFFFFFFF, count := 0xFFFFFFFF }
    s.fault = none ∧ s.tickPend = true ∧ s.params.tickInc < 2 ^ 31 ∧
      s.tickHandler.period = 0 ∧ s.tickHandler.nowi = 0 := by decide
/-- REARM with an expired entry, and with none left. -/
theorem witness_RearmFindsNextDeadline :
    let s := { atTime small 0 100 with queue := [⟨100, 0⟩, ⟨101, 1⟩] }
    queueMin s.rearm.queue = some 101 ∧
      { s with queue := [⟨100, 0⟩] }.rearm.queue = [] := by decide

/-- The alarm is armed for the one entry, at the next count. -/
def alarmed : State :=
  withChoice { atTime small 0 100 with
    tickPend := true, queue := [⟨101, 1⟩], alarmTs := some 101, alarmEn := true, compare := 101 }
    .tickHandler

theorem alarmed_alarmOk : alarmed.AlarmOk := ⟨rfl, fun _ => rfl⟩

theorem witness_StepKeepsAlarm :
    alarmed.AlarmOk ∧ step alarmed = .next (next alarmed) ∧ alarmed.nextChoice ≠ .host :=
  ⟨alarmed_alarmOk, next_of_isNext _ (by decide), by decide⟩
/-- The alarm is armed and reached. -/
theorem witness_TickPopsExpired_due :
    alarmed.AlarmOk ∧ alarmed.fault = none ∧ alarmed.tickPend = true ∧
      alarmed.agentStep .tickHandler = .next alarmed.tickHandler ∧ alarmed.alarmEn = true ∧
      alarmed.alarmTs = some 101 ∧ alarmed.tickHandler.nowi = 101 :=
  ⟨alarmed_alarmOk, by decide, by decide, rfl, by decide, by decide, by decide⟩
/-- A TALARM's alarm, not reached, over an entry that has expired. -/
theorem witness_TickPopsExpired_not_due :
    let s := { alarmed with alarmTs := some 102 }
    s.fault = none ∧ s.tickPend = true ∧ s.agentStep .tickHandler = .next s.tickHandler ∧
      s.tickHandler.nowi < (102 : Word).toNat ∧ (101 : Word).toNat ≤ s.tickHandler.nowi :=
  ⟨by decide, by decide, rfl, by decide, by decide⟩
/-- A deferred alarm that the wrap brings into the current period. -/
theorem witness_TickPopsExpired_deferred :
    let s := { wrapping with alarmTs := some 0x80000005 }
    s.fault = none ∧ s.tickPend = true ∧ s.agentStep .tickHandler = .next s.tickHandler ∧
      s.alarmEn = false ∧ 2 ^ 31 ≤ s.count.toNat % 2 ^ 31 + s.params.tickInc ∧
      (0x80000005 : Word).toNat < (s.tickHandler.period.toNat + 1) * 2 ^ 31 :=
  ⟨by decide, by decide, rfl, by decide, by decide, by decide⟩
theorem witness_TnowMicroSteps :
    HostAtPhase (running [0x20300000]) 0 0 ∧ HostAtPhase readingClock 0 1 := by decide

/-- Time 100, a queue, and r2 = ts. -/
def deadline (q : List QueueEntry) (ts : Word) : State :=
  { atTime ((running []).setReg 0 2 ts) 0 100 with queue := q }

theorem witness_TschedSchedules_full :
    let s := deadline (List.replicate 8 ⟨200, 1⟩) 300
    HostReady s 0 ∧ RegHolds s 0 2 300 ∧ s.params.queueCap ≤ s.queue.length := by decide
theorem witness_TschedSchedules_later :
    let s := deadline [⟨103, 0⟩] 103
    HostReady s 0 ∧ RegHolds s 0 2 103 ∧ ¬ s.params.queueCap ≤ s.queue.length ∧
      queueMin s.queue = some 103 ∧ (103 : Word).toNat ≤ (103 : Word).toNat := by decide
theorem witness_TschedSchedules_earliest :
    let s := deadline [⟨103, 0⟩] 101
    HostReady s 0 ∧ RegHolds s 0 2 101 ∧ ¬ s.params.queueCap ≤ s.queue.length ∧
      queueMin s.queue = some 103 ∧ (101 : Word).toNat < (103 : Word).toNat ∧
      s.nowi < (101 : Word).toNat := by decide
theorem witness_TschedSchedules_overdue :
    let s := deadline [] 100
    HostReady s 0 ∧ RegHolds s 0 2 100 ∧ ¬ s.params.queueCap ≤ s.queue.length ∧
      queueMin s.queue = none ∧ (100 : Word).toNat ≤ s.nowi := by decide
theorem witness_TalarmSetsAlarm :
    HostReady (deadline [] 100) 0 ∧ RegHolds (deadline [] 100) 0 2 100 ∧
      (100 : Word).toNat ≤ (deadline [] 100).nowi ∧ RegHolds (deadline [] 101) 0 2 101 ∧
      (deadline [] 101).nowi < (101 : Word).toNat := by decide
theorem witness_TrdReadsRegister :
    HostReady (running []) 0 ∧ 6 < (7 : BitVec 4).toNat ∧ ¬ 6 < (6 : BitVec 4).toNat ∧
      (running []).queue.length < 2 ^ 64 := by decide

/-! ### Witnesses: host layer -/

theorem witness_MemReadLittleEndian : Memory.wf [(0x20001010, 0x44), (0x20001011, 0x33)] = true := by
  decide
theorem witness_UnwrittenRegisterFaults :
    let s := (running []).setReg 0 2 7
    HostReady s 0 ∧ RegUnwritten s 0 9 ∧ RegHolds s 0 2 7 ∧ RegUnwritten s 0 15 := by decide
theorem witness_LiAndAddiWriteRegister :
    HostReady ((running []).setReg 0 15 7) 0 ∧ RegHolds ((running []).setReg 0 15 7) 0 15 7 := by
  decide
theorem witness_LoadReads_ram :
    HostReady (running []) 0 ∧ 0xFFFFFFF8 % 8 = 0 ∧
      (running []).hostRace 0xFFFFFFF8 8 .read = none ∧
      AllKind (running []) 0xFFFFFFF8 8 .ram := by decide
theorem witness_LoadReads_periph :
    HostReady (running []) 0 ∧ (running []).hostRace 0x4000FFFF 1 .read = none ∧
      AllKind (running []) 0x4000FFFF 1 .periph := by decide
theorem witness_StoreWrites_ram :
    HostReady storing 0 ∧ storing.MemOk ∧ RegHolds storing 0 1 0x11223344 ∧ 0xFFFFFFF8 % 8 = 0 ∧
      storing.hostRace 0xFFFFFFF8 8 .write = none ∧ AllKind storing 0xFFFFFFF8 8 .ram := by decide
theorem witness_StoreWrites_periph :
    HostReady storing 0 ∧ storing.MemOk ∧ RegHolds storing 0 1 0x11223344 ∧
      storing.hostRace 0x40000000 4 .write = none ∧ AllKind storing 0x40000000 4 .periph := by decide
theorem witness_LoadStoreRefusals_misaligned :
    HostReady storing 0 ∧ RegHolds storing 0 1 0x11223344 ∧ 0x20001002 % 4 ≠ 0 := by decide
/-- The word just below RAM. -/
theorem witness_LoadStoreRefusals_bus :
    HostReady storing 0 ∧ RegHolds storing 0 1 0x11223344 ∧ 0x1FFFFFFC % 4 = 0 ∧
      ¬ AllKind storing 0x1FFFFFFC 4 .ram ∧ ¬ AllKind storing 0x1FFFFFFC 4 .periph ∧
      storing.hostRace 0x1FFFFFFC 4 .read = none ∧ storing.hostRace 0x1FFFFFFC 4 .write = none := by
  decide
theorem witness_BranchesSetCp :
    let s := ((running []).setReg 0 2 1).setReg 0 3 0x10000
    HostReady s 0 ∧ RegHolds s 0 2 1 ∧ RegHolds s 0 3 0x10000 := by decide
theorem witness_YieldAndHaltStopTask : HostReady (running []) 0 := by decide
theorem witness_ExecutorStartsAndResumes :
    small.fault = none ∧ 1 < small.ntasks ∧ small.current = none ∧ (small.task 1).tstate = .init ∧
      (((small.setTstate 0 .suspended).setReady 0 true).task 0).tstate = .suspended ∧
      (((small.setTstate 0 .suspended).setReady 0 true).task 0).ready = true := by decide

/-- START with the invariant on INIT tasks. -/
theorem witness_ExecutorStartsAndResumes_first : small.CurrentOk := by
  refine ⟨fun t h => (nomatch h), ?_⟩
  intro t h
  have h2 : t < 2 := h
  obtain rfl | rfl : t = 0 ∨ t = 1 := by omega
  · exact ⟨⟨fun h => (nomatch h), fun h => (nomatch h)⟩, fun _ => ⟨rfl, rfl⟩⟩
  · exact ⟨⟨fun h => (nomatch h), fun h => (nomatch h)⟩, fun _ => ⟨rfl, rfl⟩⟩

/-- Task 0 suspended for ever, task 1 halted; the tick handler steps next. -/
def stuck : State :=
  withChoice { (small.setTstate 0 .suspended).setTstate 1 .halted with tickPend := true } .tickHandler

theorem witness_StuckAndDoneStay_stuck : step stuck = .next (next stuck) ∧ stuck.runEnd = .stuck :=
  ⟨next_of_isNext _ (by decide), by decide⟩

/-- Both tasks halted; the tick handler steps next. -/
def done : State :=
  withChoice { (small.setTstate 0 .halted).setTstate 1 .halted with tickPend := true } .tickHandler

theorem witness_StuckAndDoneStay_done :
    step done = .next (next done) ∧ done.runEnd = .done ∧ done.CurrentOk ∧ done.dmaIrq = false ∧
      done.queue = [] ∧ done.alarmTs = none := by
  refine ⟨next_of_isNext _ (by decide), by decide, ⟨fun t h => (nomatch h), ?_⟩, by decide,
    by decide, by decide⟩
  intro t h
  have h2 : t < 2 := h
  obtain rfl | rfl : t = 0 ∨ t = 1 := by omega
  · exact ⟨⟨fun h => (nomatch h), fun h => (nomatch h)⟩, fun h => (nomatch h)⟩
  · exact ⟨⟨fun h => (nomatch h), fun h => (nomatch h)⟩, fun h => (nomatch h)⟩

end Sys2Proof.Tests
end

