-- ==== Sys2Proof/Proofs/Frames.lean ====
section
/-! SUPPORT. Frames for whole steps: which parts of the tasks' records may have changed, and what every step keeps
besides. Each state operation has one rule saying which frame it stays in. -/

namespace Sys2Proof.Machine.Proofs

open Sys2Proof.Machine.Laws

/-! ### Task records that agree outside a list of parts -/

theorem taskSame_refl (ps : List TaskPart) (k : Task) : TaskSameExcept ps k k := by
  intro p _
  cases p <;> rfl

theorem taskSame_trans {ps : List TaskPart} {k k1 k2 : Task} (h1 : TaskSameExcept ps k k1)
    (h2 : TaskSameExcept ps k1 k2) : TaskSameExcept ps k k2 := by
  intro p hp
  have e1 := h1 p hp
  have e2 := h2 p hp
  cases p <;> exact Eq.trans e2 e1

theorem taskSame_setReg {ps : List TaskPart} (h : .regs ∈ ps) (k : Task) (r : RegNum) (v : Word) :
    TaskSameExcept ps k (k.setReg r v) := by
  intro p hp
  cases p with
  | regs => exact absurd h hp
  | _ => rfl

theorem taskSame_cp {ps : List TaskPart} (h : .cp ∈ ps) (k : Task) (n : Nat) :
    TaskSameExcept ps k { k with cp := n } := by
  intro p hp
  cases p with
  | cp => exact absurd h hp
  | _ => rfl

theorem taskSame_phase {ps : List TaskPart} (h : .phase ∈ ps) (k : Task) (v : Fin 4) :
    TaskSameExcept ps k { k with phase := v } := by
  intro p hp
  cases p with
  | phase => exact absurd h hp
  | _ => rfl

theorem taskSame_latch {ps : List TaskPart} (h : .latch ∈ ps) (k : Task) (v : Word32) :
    TaskSameExcept ps k { k with latch := v } := by
  intro p hp
  cases p with
  | latch => exact absurd h hp
  | _ => rfl

theorem taskSame_tstate {ps : List TaskPart} (h : .tstate ∈ ps) (k : Task) (v : TaskState) :
    TaskSameExcept ps k { k with tstate := v } := by
  intro p hp
  cases p with
  | tstate => exact absurd h hp
  | _ => rfl

theorem taskSame_ready {ps : List TaskPart} (h : .ready ∈ ps) (k : Task) (v : Bool) :
    TaskSameExcept ps k { k with ready := v } := by
  intro p hp
  cases p with
  | ready => exact absurd h hp
  | _ => rfl

/-! ### The frame of a step -/

/-- What every step keeps (the launch parameters and counts), and of each task's record the parts that `allow` does not
list. -/
structure Frame (allow : Nat → List TaskPart) (s s' : State) : Prop where
  params : s'.params = s.params
  counts : s'.counts = s.counts
  tasks : ∀ u, TaskSameExcept (allow u) (s.task u) (s'.task u)

/-- READY of any task, as an interrupt handler may change it. -/
def readyOnly : Nat → List TaskPart := fun _ => [.ready]

/-- The listed parts of task t, and READY of the others, as a step of task t may change them. -/
def ownParts (t : Nat) (ps : List TaskPart) : Nat → List TaskPart :=
  fun u => if u = t then ps else [.ready]

@[simp] theorem ownParts_self (t : Nat) (ps : List TaskPart) : ownParts t ps t = ps := if_pos rfl

theorem ownParts_ne {t u : Nat} (ps : List TaskPart) (h : u ≠ t) : ownParts t ps u = [.ready] :=
  if_neg h

/-- A part that neither the list nor READY of the others covers. -/
theorem notMem_ownParts {t u : Nat} {ps : List TaskPart} {p : TaskPart} (h : p ∉ ps)
    (hr : p ≠ .ready) : p ∉ ownParts t ps u := by
  unfold ownParts
  split
  · exact h
  · simpa using hr

theorem ready_mem_ownParts {t : Nat} {ps : List TaskPart} (h : .ready ∈ ps) (u : Nat) :
    .ready ∈ ownParts t ps u := by
  unfold ownParts
  split
  · exact h
  · simp

theorem ready_mem_readyOnly (u : Nat) : .ready ∈ readyOnly u := by simp [readyOnly]

namespace Frame

variable {allow : Nat → List TaskPart} {s x y : State} {t : Nat}

theorem refl (allow : Nat → List TaskPart) (s : State) : Frame allow s s :=
  ⟨rfl, rfl, fun _ => taskSame_refl _ _⟩

theorem ntasks (h : Frame allow s x) : x.ntasks = s.ntasks := congrArg Counts.ntasks h.counts

theorem nch (h : Frame allow s x) : x.nch = s.nch := congrArg Counts.nch h.counts

/-- An update that leaves parameters, counts and tasks alone. -/
theorem of_same (h : Frame allow s x) (hp : y.params = x.params) (hc : y.counts = x.counts)
    (ht : y.tasks = x.tasks) : Frame allow s y :=
  ⟨hp.trans h.params, hc.trans h.counts, fun u => task_congr u ht ▸ h.tasks u⟩

/-- An update of one task's record within the parts allowed for it. -/
theorem updTask (h : Frame allow s x) {f : Task → Task}
    (hf : ∀ k, TaskSameExcept (allow t) k (f k)) : Frame allow s (x.updTask t f) := by
  refine ⟨h.params, ?_, fun u => ?_⟩
  · rw [← h.counts]
    simp [State.counts, State.nch]
  · rw [task_updTask]
    split
    · rename_i hu
      obtain ⟨rfl, -⟩ := hu
      exact taskSame_trans (h.tasks u) (hf _)
    · exact h.tasks u

theorem setReg (h : Frame allow s x) (ha : .regs ∈ allow t) (r : RegNum) (v : Word) :
    Frame allow s (x.setReg t r v) :=
  h.updTask fun k => taskSame_setReg ha k r v

theorem setCp (h : Frame allow s x) (ha : .cp ∈ allow t) (n : Nat) : Frame allow s (x.setCp t n) :=
  h.updTask fun k => taskSame_cp ha k n

theorem advance (h : Frame allow s x) (ha : .cp ∈ allow t) (n : Nat) :
    Frame allow s (x.advance t n) :=
  h.setCp ha _

theorem setPhase (h : Frame allow s x) (ha : .phase ∈ allow t) (p : Fin 4) :
    Frame allow s (x.setPhase t p) :=
  h.updTask fun k => taskSame_phase ha k p

theorem setLatch (h : Frame allow s x) (ha : .latch ∈ allow t) (v : Word32) :
    Frame allow s (x.setLatch t v) :=
  h.updTask fun k => taskSame_latch ha k v

theorem setTstate (h : Frame allow s x) (ha : .tstate ∈ allow t) (v : TaskState) :
    Frame allow s (x.setTstate t v) :=
  h.updTask fun k => taskSame_tstate ha k v

theorem setReady (h : Frame allow s x) (ha : .ready ∈ allow t) (v : Bool) :
    Frame allow s (x.setReady t v) :=
  h.updTask fun k => taskSame_ready ha k v

theorem ready (h : Frame allow s x) (ha : ∀ u, .ready ∈ allow u) (hd : Handle) :
    Frame allow s (x.ready hd) :=
  h.setReady (ha hd) true

theorem setCurrent (h : Frame allow s x) (c : Option Nat) : Frame allow s (x.setCurrent c) :=
  h.of_same rfl rfl rfl

theorem updChan (h : Frame allow s x) (ch : Nat) (f : Channel → Channel) :
    Frame allow s (x.updChan ch f) :=
  h.of_same rfl (by simp [State.counts, State.ntasks]) rfl

theorem setCell (h : Frame allow s x) (id : BitVec 16) (v : Option Handle) :
    Frame allow s (x.setCell id v) := by
  unfold State.setCell
  split
  · exact h.updChan _ _
  all_goals exact h.of_same rfl (by simp [State.counts, State.ntasks, State.nch]) rfl

theorem wakeCell (h : Frame allow s x) (ha : ∀ u, .ready ∈ allow u) (id : BitVec 16) :
    Frame allow s (x.wakeCell id) := by
  obtain ⟨hd, -, e⟩ | ⟨-, e⟩ := wakeCell_cases x id
  · rw [e]
    exact (h.setCell id none).ready ha hd
  · rw [e]
    exact h

theorem setMem (h : Frame allow s x) (m : Memory) : Frame allow s (x.setMem m) :=
  h.of_same rfl rfl rfl

theorem setQueue (h : Frame allow s x) (q : List QueueEntry) : Frame allow s (x.setQueue q) :=
  h.of_same rfl rfl rfl

theorem record (h : Frame allow s x) (e : Event) : Frame allow s (x.record e) :=
  h.of_same rfl rfl rfl

theorem takeFault (h : Frame allow s x) (a : Agent) (f : BlockFault) :
    Frame allow s (x.takeFault a f) :=
  h.of_same rfl rfl rfl

theorem recordPeriph (h : Frame allow s x) (e : Event) : Frame allow s (x.recordPeriph e) := by
  obtain r | r := recordPeriph_cases x e
  · rw [r]
    exact h
  · rw [r]
    exact h.record e

end Frame

end Sys2Proof.Machine.Proofs
end

