-- ==== Sys2Proof/Proofs/Timers.lean ====
section
/-! SUPPORT. The time driver's procedures as compositions of four updates: a predicate these keep is kept by REARM,
ALARM_FIRE and the tick handler. The same for the DMA shim and the shim's work on one channel. -/

namespace Sys2Proof.Machine.Proofs

open Sys2Proof.Machine.Laws

/-- The predicate is kept by every update that the alarm procedures of 43_time.md R222 to R226 are made of. -/
structure KeptByTimers (P : State → Prop) : Prop where
  alarmRegs : ∀ s en ts, P s → P (s.setAlarmRegs en ts)
  compare : ∀ s v, P s → P (s.setCompare v)
  shrinkQueue : ∀ s (keep : QueueEntry → Bool), P s → P (s.setQueue (s.queue.filter keep))
  ready : ∀ s h, P s → P (s.ready h)

namespace KeptByTimers

variable {P : State → Prop}

theorem readyAll (k : KeptByTimers P) (es : List QueueEntry) : ∀ s, P s → P (s.readyAll es) := by
  induction es with
  | nil => exact fun _ h => h
  | cons e es ih => exact fun s h => ih (s.ready e.handle) (k.ready s e.handle h)

theorem popExpired (k : KeptByTimers P) (s : State) (n : Nat) (h : P s) : P (s.popExpired n) :=
  k.readyAll _ _ (k.shrinkQueue s _ h)

theorem setAlarm (k : KeptByTimers P) (s : State) (ts : Word) (h : P s) : P (s.setAlarm ts) := by
  unfold State.setAlarm
  split
  · exact k.alarmRegs _ _ _ h
  · exact k.alarmRegs _ _ _ (k.compare _ _ h)

theorem rearmLoop (k : KeptByTimers P) (fuel : Nat) : ∀ s, P s → P (s.rearmLoop fuel) := by
  induction fuel with
  | zero => exact fun s h => k.alarmRegs s _ _ h
  | succ n ih =>
    intro s h
    unfold State.rearmLoop
    split
    · exact k.alarmRegs s _ _ h
    · split
      · exact k.setAlarm s _ h
      · exact ih _ (k.popExpired _ _ (k.setAlarm s _ h))

theorem rearm (k : KeptByTimers P) (s : State) (h : P s) : P s.rearm := k.rearmLoop _ s h

theorem nextPeriod (k : KeptByTimers P) (s : State) (h : P s) : P s.nextPeriod := by
  unfold State.nextPeriod
  split
  · split
    · exact k.alarmRegs _ _ _ h
    · exact h
  · exact h

theorem alarmFire (k : KeptByTimers P) (s : State) (h : P s) : P s.alarmFire :=
  k.rearm _ (k.popExpired _ _ (k.alarmRegs _ _ _ h))

/-- The tick handler also clears TICK_PEND and sets the clock. -/
theorem tickHandler (k : KeptByTimers P) (hpend : ∀ s v, P s → P (s.setTickPend v))
    (hclock : ∀ s p c, P s → P (s.setClock p c)) (s : State) (h : P s) : P s.tickHandler := by
  have h1 : P (s.setTickPend false).advanceClock := by
    unfold State.advanceClock
    simp only
    split
    · exact k.nextPeriod _ (hclock _ _ _ (hpend s _ h))
    · exact hclock _ _ _ (hpend s _ h)
  unfold State.tickHandler
  simp only
  split
  · exact k.alarmFire _ h1
  · exact h1

end KeptByTimers

/-- What the shim's work on every channel keeps, the shim keeps. -/
theorem dmaShim_keeps {P : State → Prop} (hserve : ∀ s ch, P s → P (s.serveChannel ch)) (s : State)
    (h : P s) : P s.dmaShim :=
  List.foldlRecOn _ _ h fun x hx ch _ => hserve x ch hx

/-- The shim's work on one channel: nothing, or INTEN cleared, the channel's cell emptied and its handle readied. -/
theorem serveChannel_cases (s : State) (ch : Nat) :
    s.serveChannel ch = s ∨
      (s.chan ch).irq = true ∧
        s.serveChannel ch =
          (s.updChan ch fun c => { c with inten := false }).wakeCell (dmaCellId ch) := by
  unfold State.serveChannel
  split
  · rename_i h
    exact .inr ⟨h, rfl⟩
  · exact .inl rfl

/-- The alarm procedures stay in every frame that lets them ready tasks. -/
theorem frame_keptByTimers {allow : Nat → List TaskPart} (ha : ∀ u, .ready ∈ allow u) (s : State) :
    KeptByTimers (Frame allow s) where
  alarmRegs _ _ _ h := h.of_same rfl rfl rfl
  compare _ _ h := h.of_same rfl rfl rfl
  shrinkQueue _ _ h := h.setQueue _
  ready _ hd h := h.ready ha hd

theorem frame_tickHandler (s : State) : Frame readyOnly s s.tickHandler :=
  (frame_keptByTimers ready_mem_readyOnly s).tickHandler (fun _ _ h => h.of_same rfl rfl rfl)
    (fun _ _ _ h => h.of_same rfl rfl rfl) s (Frame.refl _ s)

theorem frame_dmaShim (s : State) : Frame readyOnly s s.dmaShim := by
  refine dmaShim_keeps (P := Frame readyOnly s) (fun x ch h => ?_) s (Frame.refl _ s)
  obtain e | ⟨-, e⟩ := serveChannel_cases x ch
  · rw [e]
    exact h
  · rw [e]
    exact (h.updChan ch _).wakeCell ready_mem_readyOnly _

end Sys2Proof.Machine.Proofs
end

