-- ==== Sys2Proof/Proofs/StepCases.lean ====
section
/-! SUPPORT. Everything a step can do, said once: the states an atomic command leaves, those a host step leaves, and those
a step of the machine leaves. Each relation has one constructor per kind of outcome and is tied to `exec` and `step` by
an inversion lemma. -/

namespace Sys2Proof.Machine.Proofs

open Sys2Proof.Machine.Laws

/-! ### Atomic commands -/

/-- The states an atomic command of task t leaves where it raises nothing and the task goes on running. -/
inductive AtomicNext (s : State) (t : Nat) : Instr → State → Prop
  /-- branches, JMP, and WAKE of an empty cell -/
  | goto (i : Instr) (n : Nat) : AtomicNext s t i (s.setCp t n)
  /-- commands that write one register: DCFG's typed errors, DRD, TRD, LI, ADDI -/
  | write (i : Instr) (rd : RegNum) (v : Word) (n : Nat) :
      AtomicNext s t i ((s.setReg t rd v).advance t n)
  | wreg (id : BitVec 16) : AtomicNext s t (.wreg id) ((s.setCell id (some t)).advance t 1)
  /-- WAKE of a cell that holds a handle -/
  | wake (id : BitVec 16) (h : Handle) :
      AtomicNext s t (.wake id) (((s.setCell id none).ready h).advance t 1)
  | signal (hd : BitVec 16) : AtomicNext s t (.signal hd) ((s.ready (signalHandle hd)).advance t 1)
  | dres (ch : BitVec 6) (hr : (s.chan ch.toNat).res = none) :
      AtomicNext s t (.dres ch)
        ((s.updChan ch.toNat fun c => { c with res := some t }).advance t 1)
  /-- DCFG that passes its checks -/
  | dcfg (rd : RegNum) (ch : BitVec 6) (dir wc : BitVec 2) (src dst count opts : Word32) (m : Memory)
      (ha : (s.chan ch.toNat).active = false)
      (hok : dcfgTypedError s.params.dmaMaxXfer dir wc count = none) :
      AtomicNext s t (.dcfg rd ch dir wc src dst count opts)
        ((((s.setMem m).updChan ch.toNat fun c => c.configured dir wc count).setReg t rd
          statusOk).advance t 5)
  | den (ch : BitVec 6) :
      AtomicNext s t (.den ch)
        ((s.updChan ch.toNat fun c => { c with enable := true, inten := true }).advance t 1)
  | dtrg (ch : BitVec 6) (se de : Nat) (ha : (s.chan ch.toNat).active = false)
      (hv : (s.chan ch.toNat).cfg.valid = true) (hi : (s.chan ch.toNat).inten = true) :
      AtomicNext s t (.dtrg ch) ((s.updChan ch.toNat fun c => c.triggered se de).advance t 1)
  /-- TSCHED of a deadline that is not the earliest -/
  | tschedLater (rs : RegNum) (ts : Word) (hq : s.queue.length < s.params.queueCap) :
      AtomicNext s t (.tsched rs) ((s.setQueue (queueInsert ⟨ts, t⟩ s.queue)).advance t 1)
  /-- TSCHED of the earliest deadline -/
  | tschedFirst (rs : RegNum) (ts : Word) (hq : s.queue.length < s.params.queueCap) :
      AtomicNext s t (.tsched rs) ((s.setQueue (queueInsert ⟨ts, t⟩ s.queue)).rearm.advance t 1)
  | talarm (rd rs : RegNum) (ts v : Word) :
      AtomicNext s t (.talarm rd rs) (((s.setAlarm ts).setReg t rd v).advance t 1)
  | ld (rd : RegNum) (wc : BitVec 2) (a : Word32) (v : Nat) :
      AtomicNext s t (.ld rd wc a)
        (((s.recordPeriph ⟨.host, .read, a.toNat, widthBytes wc, v⟩).setReg t rd
          (BitVec.ofNat 64 v)).advance t 2)
  | st (rs : RegNum) (wc : BitVec 2) (a : Word32) (v : Nat) (m : Memory) :
      AtomicNext s t (.st rs wc a)
        (((s.setMem m).recordPeriph ⟨.host, .write, a.toNat, widthBytes wc, v⟩).advance t 2)

/-- TSCHED's critical section inserts the entry into a queue that has room, and rearms or not. -/
theorem schedule_cases {s s1 : State} {ts : Word} {t : Nat} (h : s.schedule ts t = .ok s1) :
    s.queue.length < s.params.queueCap ∧
      (s1 = s.setQueue (queueInsert ⟨ts, t⟩ s.queue) ∨
        s1 = (s.setQueue (queueInsert ⟨ts, t⟩ s.queue)).rearm) := by
  unfold State.schedule at h
  split at h
  · cases h
  · rename_i hq
    refine ⟨Nat.lt_of_not_le hq, ?_⟩
    simp only at h
    split at h
    · cases h
      exact .inr rfl
    · split at h <;> cases h
      · exact .inr rfl
      · exact .inl rfl

/-- A branch sets CP, wherever it leads. -/
theorem branch_eq_setCp (s : State) (t : Nat) (taken : Bool) (target : Word32) :
    ∃ n, s.branch t taken target = s.setCp t n := by
  unfold State.branch
  split
  · exact ⟨_, rfl⟩
  · exact ⟨_, rfl⟩

theorem atomicNext_branch (s : State) (t : Nat) (i : Instr) (taken : Bool) (target : Word32) :
    AtomicNext s t i (s.branch t taken target) := by
  obtain ⟨n, e⟩ := branch_eq_setCp s t taken target
  exact e ▸ .goto i n

/-! ### Host steps -/

/-- The states a host step leaves that runs command i of task t. -/
inductive HostNext (s : State) (t : Nat) : Instr → State → Prop
  | fault (i : Instr) (f : BlockFault) : HostNext s t i (s.takeFault .host f)
  | atomic {i : Instr} {s' : State} (hp : (s.task t).phase = 0) (h : AtomicNext s t i s') :
      HostNext s t i s'
  /-- YIELD and HALT -/
  | stop (i : Instr) (v : TaskState) (hp : (s.task t).phase = 0)
      (hv : v = .suspended ∨ v = .halted) : HostNext s t i ((s.setTstate t v).setCurrent none)
  /-- DPOLL's first micro-step of a transfer that may not be complete -/
  | pollWait (rd : RegNum) (ch : BitVec 6) (ho : Owns s t ch.toNat)
      (hs : (s.chan ch.toNat).started = true) : HostNext s t (.dpoll rd ch) (s.setPhase t 1)
  | pollRegister (rd : RegNum) (ch : BitVec 6) (hp : (s.task t).phase = 1) :
      HostNext s t (.dpoll rd ch) (dpollRegister ch.toNat t s)
  | pollRearm (rd : RegNum) (ch : BitVec 6) (hp : (s.task t).phase = 2) :
      HostNext s t (.dpoll rd ch) (dpollRearm ch.toNat t s)
  | timeRead (rd : RegNum) : HostNext s t (.tnow rd) (tnowPeriod t s)
  /-- the last micro-step of DPOLL and of TNOW -/
  | finish (i : Instr) (rd : RegNum) (v : Word) :
      HostNext s t i (((s.setReg t rd v).setPhase t 0).advance t 1)

/-- An atomic command leaves a host step's state, if its body does where it raises nothing. -/
theorem atomicCommand_hostNext {s s' : State} {i : Instr} {body : Nat → Except BlockFault State}
    (h : atomicCommand s body = .next s')
    (hb : ∀ t, (s.task t).phase = 0 → body t = .ok s' → HostNext s t i s') :
    ∃ t, s.current = some t ∧ t < s.ntasks ∧ HostNext s t i s' := by
  obtain ⟨t, ⟨-, hc, ht, hp⟩, hok | ⟨f, -, rfl⟩⟩ := atomicCommand_next _ _ _ h
  · exact ⟨t, hc, ht, hb t hp hok⟩
  · exact ⟨t, hc, ht, .fault i f⟩

theorem atomicCommand_atomicNext {s s' : State} {i : Instr} {body : Nat → Except BlockFault State}
    (h : atomicCommand s body = .next s') (hb : ∀ t, body t = .ok s' → AtomicNext s t i s') :
    ∃ t, s.current = some t ∧ t < s.ntasks ∧ HostNext s t i s' :=
  atomicCommand_hostNext h fun t hp hok => .atomic hp (hb t hok)

theorem execDcfg_hostNext {rd : RegNum} {ch : BitVec 6} {dir wc : BitVec 2} {src dst count opts : Word32}
    {s s' : State} (h : execDcfg rd ch dir wc src dst count opts s = .next s') :
    ∃ t, s.current = some t ∧ t < s.ntasks ∧
      HostNext s t (.dcfg rd ch dir wc src dst count opts) s' := by
  refine atomicCommand_atomicNext h fun t hb => ?_
  split at hb
  · cases hb
  · split at hb
    · cases hb
    · rename_i ha
      split at hb
      · cases hb
        exact .write _ _ _ _
      · rename_i hok
        split at hb
        · cases hb
        · split at hb
          · cases hb
          · rename_i s1 hw
            cases hb
            rw [writeDescriptor_ok _ _ _ _ _ hw]
            exact .dcfg rd ch dir wc src dst count opts _ (by simpa using ha) hok

theorem execDtrg_hostNext {ch : BitVec 6} {s s' : State} (h : execDtrg ch s = .next s') :
    ∃ t, s.current = some t ∧ t < s.ntasks ∧ HostNext s t (.dtrg ch) s' := by
  refine atomicCommand_atomicNext h fun t hb => ?_
  simp only at hb
  split at hb
  · cases hb
  · split at hb
    · cases hb
    · rename_i ha
      split at hb
      · cases hb
      · rename_i hr
        simp only [Bool.not_eq_true', Bool.not_eq_false, Bool.and_eq_true] at hr
        obtain ⟨⟨hv, -⟩, hi⟩ := hr
        split at hb
        · cases hb
        · split at hb
          · cases hb
          · cases hb
            exact .dtrg ch _ _ (by simpa using ha) hv hi

theorem execDpoll_hostNext {rd : RegNum} {ch : BitVec 6} {s s' : State}
    (h : execDpoll rd ch s = .next s') :
    ∃ t, s.current = some t ∧ t < s.ntasks ∧ HostNext s t (.dpoll rd ch) s' := by
  obtain ⟨t, -, hc, ht, hb⟩ := hostCommand_next _ _ _ h
  refine ⟨t, hc, ht, ?_⟩
  split at hb
  · obtain hok | ⟨f, -, rfl⟩ := hostResult_next _ _ _ hb
    · unfold dpollCheck at hok
      split at hok
      · cases hok
      · rename_i hchk
        split at hok
        · cases hok
        · rename_i hs
          split at hok <;> cases hok
          · exact .pollWait rd ch ((chkFault_none_iff s _ t).mp hchk) (by simpa using hs)
          · exact .finish _ _ _
    · exact .fault _ f
  · rename_i hp
    cases hb
    exact .pollRegister rd ch hp
  · rename_i hp
    cases hb
    exact .pollRearm rd ch hp
  · cases hb
    exact .finish _ _ _

theorem execTnow_hostNext {rd : RegNum} {s s' : State} (h : execTnow rd s = .next s') :
    ∃ t, s.current = some t ∧ t < s.ntasks ∧ HostNext s t (.tnow rd) s' := by
  obtain ⟨t, -, hc, ht, hb⟩ := hostCommand_next _ _ _ h
  refine ⟨t, hc, ht, ?_⟩
  split at hb <;> cases hb
  · exact .timeRead rd
  · exact .finish _ _ _

theorem execSt_hostNext {rs : RegNum} {wc : BitVec 2} {a : Word32} {s s' : State}
    (h : execSt rs wc a s = .next s') :
    ∃ t, s.current = some t ∧ t < s.ntasks ∧ HostNext s t (.st rs wc a) s' := by
  refine atomicCommand_atomicNext h fun t hb => ?_
  simp only at hb
  split at hb
  · cases hb
  · split at hb
    · cases hb
    · split at hb
      · cases hb
      · rename_i s1 hw
        cases hb
        obtain ⟨-, rfl⟩ | ⟨-, rfl⟩ := writeValue_ok _ _ _ _ _ _ hw
        · exact .st rs wc a _ _
        · exact .st rs wc a _ s1.mem

/-- Every next state of a command is one of `HostNext`, for the current task. -/
theorem exec_next {i : Instr} {s s' : State} (h : exec i s = .next s') :
    ∃ t, s.current = some t ∧ t < s.ntasks ∧ HostNext s t i s' := by
  cases i with
  | wreg id =>
    refine atomicCommand_atomicNext h fun t hb => ?_
    split at hb <;> cases hb
    exact .wreg id
  | wake id =>
    refine atomicCommand_atomicNext h fun t hb => ?_
    split at hb <;> cases hb
    obtain ⟨hd, -, e⟩ | ⟨-, e⟩ := wakeCell_cases s id <;> rw [e]
    · exact .wake id hd
    · exact .goto _ _
  | signal hd =>
    refine atomicCommand_atomicNext h fun t hb => ?_
    split at hb <;> cases hb
    exact .signal hd
  | dres ch =>
    refine atomicCommand_atomicNext h fun t hb => ?_
    split at hb
    · cases hb
    · split at hb <;> cases hb
      rename_i hr
      exact .dres ch (by simpa using hr)
  | dcfg rd ch dir wc src dst count opts => exact execDcfg_hostNext h
  | den ch =>
    refine atomicCommand_atomicNext h fun t hb => ?_
    split at hb <;> cases hb
    exact .den ch
  | dtrg ch => exact execDtrg_hostNext h
  | dpoll rd ch => exact execDpoll_hostNext h
  | drd rd ch sel =>
    refine atomicCommand_atomicNext h fun t hb => ?_
    split at hb
    · cases hb
    · split at hb <;> cases hb
      exact .write _ _ _ _
  | tnow rd => exact execTnow_hostNext h
  | tsched rs =>
    refine atomicCommand_atomicNext h fun t hb => ?_
    split at hb
    · cases hb
    · split at hb <;> cases hb
      rename_i hs
      obtain ⟨hq, rfl | rfl⟩ := schedule_cases hs
      · exact .tschedLater rs _ hq
      · exact .tschedFirst rs _ hq
  | talarm rd rs =>
    refine atomicCommand_atomicNext h fun t hb => ?_
    split at hb <;> cases hb
    exact .talarm rd rs _ _
  | trd rd sel =>
    refine atomicCommand_atomicNext h fun t hb => ?_
    split at hb <;> cases hb
    exact .write _ _ _ _
  | li rd imm =>
    refine atomicCommand_atomicNext h fun t hb => ?_
    cases hb
    exact .write _ _ _ _
  | addi rd rs imm =>
    refine atomicCommand_atomicNext h fun t hb => ?_
    split at hb <;> cases hb
    exact .write _ _ _ _
  | ld rd wc a =>
    refine atomicCommand_atomicNext h fun t hb => ?_
    simp only at hb
    split at hb
    · cases hb
    · split at hb <;> cases hb
      exact .ld rd wc a _
  | st rs wc a => exact execSt_hostNext h
  | beq rs imm target =>
    refine atomicCommand_atomicNext h fun t hb => ?_
    split at hb <;> cases hb
    exact atomicNext_branch _ _ _ _ _
  | bne rs imm target =>
    refine atomicCommand_atomicNext h fun t hb => ?_
    split at hb <;> cases hb
    exact atomicNext_branch _ _ _ _ _
  | jmp target =>
    refine atomicCommand_atomicNext h fun t hb => ?_
    cases hb
    exact .goto _ _
  | yield =>
    refine atomicCommand_hostNext h fun t hp hb => ?_
    cases hb
    exact .stop _ _ hp (.inl rfl)
  | halt =>
    refine atomicCommand_hostNext h fun t hp hb => ?_
    cases hb
    exact .stop _ _ hp (.inr rfl)
  | bltu rs rt target =>
    refine atomicCommand_atomicNext h fun t hb => ?_
    split at hb
    · cases hb
    · split at hb <;> cases hb
      exact atomicNext_branch _ _ _ _ _

/-! ### Steps of the machine -/

/-- The states a step leaves that takes the choice, begun in the state with the choice taken. -/
inductive StepNext (s : State) : Choice → State → Prop
  /-- the choice names no enabled step -/
  | idle (c : Choice) : StepNext s c s
  | host {t : Nat} {i : Instr} {s' : State} (hc : s.current = some t) (ht : t < s.ntasks)
      (hf : s.fetch t = .ok i) (h : HostNext s t i s') : StepNext s .host s'
  /-- a host step that fetches no command, or an engine step off the bus -/
  | fault (c : Choice) (a : Agent) (f : BlockFault) : StepNext s c (s.takeFault a f)
  | start (t : Nat) (hc : s.current = none) (ht : t < s.ntasks)
      (hi : (s.task t).tstate = .init) : StepNext s (.start t) (s.startTask t)
  | resume (t : Nat) (hc : s.current = none) (ht : t < s.ntasks)
      (hs : (s.task t).tstate = .suspended) (hr : (s.task t).ready = true) :
      StepNext s (.resume t) (s.resumeTask t)
  | engine (ch : Nat) (g : Bool) (m : Memory) (e1 e2 : Event)
      (ha : (s.chan ch).active = true) (hr : 0 < (s.chan ch).xfer.rem) :
      StepNext s (.engine ch g)
        ((((s.setMem m).record e1).record e2).updChan ch Channel.elementMoved)
  | shim : StepNext s .dmaShim s.dmaShim
  | tickSource : StepNext s .tickSource s.tickSource
  | tickHandler : StepNext s .tickHandler s.tickHandler

/-- Where a step of channel ch's engine leads. -/
theorem engine_stepNext {s : State} {ch : Nat} {g : Bool}
    (he : s.enabled (.engine ch g) = true) : StepNext s (.engine ch g) (s.engineStep ch) := by
  simp only [State.enabled, Bool.and_eq_true, decide_eq_true_eq] at he
  obtain ⟨-, ⟨⟨-, ha⟩, hr⟩, -⟩ := he
  obtain ⟨s1, hok, e⟩ | ⟨f, -, e⟩ := engineStep_cases s ch <;> rw [e]
  · obtain ⟨v, s2, sa, da, -, -, -, hw, rfl⟩ := engineElement_ok _ _ _ hok
    obtain ⟨-, rfl⟩ | ⟨-, rfl⟩ := writeValue_ok _ _ _ _ _ _ hw
    · exact .engine ch g _ _ _ ha hr
    · exact .engine ch g s2.mem _ _ ha hr
  · exact .fault _ _ f

/-- Taking a choice changes the choices only. -/
theorem dropChoice_eq (s : State) :
    ∃ cs n, s.dropChoice = { s with choices := cs, choiceIndex := n } := by
  unfold State.dropChoice
  split
  · exact ⟨_, s.choiceIndex, rfl⟩
  · exact ⟨s.choices, _, rfl⟩

/-- Every next state of the machine is one of `StepNext`. -/
theorem step_stepNext {s s' : State} (h : step s = .next s') :
    StepNext s.dropChoice s.nextChoice s' := by
  obtain ⟨-, -, rfl | ⟨t, hn, hc, ⟨i, hi, hx⟩ | ⟨f, -, rfl⟩⟩ | ⟨t, hn, he, rfl⟩ | ⟨t, hn, he, rfl⟩ |
    ⟨ch, g, hn, he, rfl⟩ | ⟨hn, -, rfl⟩ | ⟨hn, rfl⟩ | ⟨hn, -, rfl⟩⟩ := step_cases s s' h
  · exact .idle _
  · obtain ⟨t', hc', ht', hnext⟩ := exec_next hx
    obtain rfl : t = t' := by simpa [hc] using hc'
    exact hn ▸ .host hc' ht' hi hnext
  · exact .fault _ _ f
  · rw [hn]
    simp only [State.enabled, Bool.and_eq_true, decide_eq_true_eq, Option.isNone_iff_eq_none] at he
    obtain ⟨-, ⟨hc, ht⟩, hi⟩ := he
    exact .start t hc ht hi
  · rw [hn]
    simp only [State.enabled, Bool.and_eq_true, decide_eq_true_eq, Option.isNone_iff_eq_none] at he
    obtain ⟨-, ⟨⟨hc, ht⟩, hs⟩, hr⟩ := he
    exact .resume t hc ht hs hr
  · exact hn ▸ engine_stepNext he
  · exact hn ▸ .shim
  · exact hn ▸ .tickSource
  · exact hn ▸ .tickHandler

/-- A predicate that the choices do not enter and that every kind of step keeps is kept by `step`. -/
theorem step_keeps {P : State → Prop}
    (hchoices : ∀ s cs n, P s → P { s with choices := cs, choiceIndex := n })
    (hnext : ∀ s c s', P s → StepNext s c s' → P s') {s s' : State} (h : P s)
    (hs : step s = .next s') : P s' := by
  refine hnext s.dropChoice _ s' ?_ (step_stepNext hs)
  obtain ⟨cs, n, e⟩ := dropChoice_eq s
  exact e ▸ hchoices s cs n h

end Sys2Proof.Machine.Proofs
end

