-- ==== Sys2Proof/Proofs/StepFrames.lean ====
section
/-! SUPPORT. What the kinds of step of `StepNext` leave alone: the frames of the tasks, the fields that no command
touches, and what can happen to a channel's record. -/

namespace Sys2Proof.Machine.Proofs

open Sys2Proof.Machine.Laws

/-! ### Tasks -/

/-- An atomic command changes registers and CP of its task, and READY bits. -/
theorem atomicNext_frame {s s' : State} {t : Nat} {i : Instr} (h : AtomicNext s t i s') :
    Frame (ownParts t [.regs, .cp, .ready]) s s' := by
  have hcp : TaskPart.cp ∈ ownParts t [.regs, .cp, .ready] t := by simp
  have hregs : TaskPart.regs ∈ ownParts t [.regs, .cp, .ready] t := by simp
  have hready : ∀ u, TaskPart.ready ∈ ownParts t [.regs, .cp, .ready] u :=
    ready_mem_ownParts (by simp)
  have h0 := Frame.refl (ownParts t [.regs, .cp, .ready]) s
  have timers := frame_keptByTimers hready s
  cases h with
  | goto _ n => exact h0.setCp hcp n
  | write _ rd v n => exact (h0.setReg hregs rd v).advance hcp n
  | wreg id => exact (h0.setCell id _).advance hcp 1
  | wake id hd => exact ((h0.setCell id none).ready hready hd).advance hcp 1
  | signal hd => exact (h0.ready hready _).advance hcp 1
  | dres ch => exact (h0.updChan _ _).advance hcp 1
  | dcfg rd ch dir wc src dst count opts m =>
    exact (((h0.setMem m).updChan _ _).setReg hregs rd _).advance hcp 5
  | den ch => exact (h0.updChan _ _).advance hcp 1
  | dtrg ch => exact (h0.updChan _ _).advance hcp 1
  | tschedLater rs ts =>
    exact (h0.setQueue _).advance hcp 1
  | tschedFirst rs ts =>
    exact (timers.rearm _ (h0.setQueue _)).advance hcp 1
  | talarm rd rs ts v => exact ((timers.setAlarm s ts h0).setReg hregs rd v).advance hcp 1
  | ld rd wc a v => exact ((h0.recordPeriph _).setReg hregs rd _).advance hcp 2
  | st rs wc a v m =>
    exact ((h0.setMem m).recordPeriph _).advance hcp 2

theorem frame_finish (s : State) (t : Nat) (rd : RegNum) (v : Word) :
    Frame (ownParts t [.regs, .cp, .phase]) s (((s.setReg t rd v).setPhase t 0).advance t 1) :=
  (((Frame.refl _ s).setReg (by simp) rd v).setPhase (by simp) 0).advance (by simp) 1

theorem frame_stop (s : State) (t : Nat) (v : TaskState) (c : Option Nat) :
    Frame (ownParts t [.tstate]) s ((s.setTstate t v).setCurrent c) :=
  ((Frame.refl _ s).setTstate (by simp) v).setCurrent c

theorem frame_resumeTask (s : State) (t : Nat) :
    Frame (ownParts t [.cp, .tstate, .ready]) s (s.resumeTask t) :=
  ((((Frame.refl _ s).setReady (by simp) false).advance (by simp) 1).setTstate
    (by simp) .running).setCurrent (some t)

theorem frame_timeRead (s : State) (t : Nat) :
    Frame (ownParts t [.latch, .phase]) s (tnowPeriod t s) :=
  ((Frame.refl _ s).setLatch (by simp) s.period).setPhase (by simp) 1

theorem frame_setPhase (s : State) (t : Nat) (p : Fin 4) :
    Frame (ownParts t [.phase]) s (s.setPhase t p) :=
  (Frame.refl _ s).setPhase (by simp) p

theorem frame_pollRegister (s : State) (ch t : Nat) :
    Frame (ownParts t [.phase]) s (dpollRegister ch t s) :=
  ((Frame.refl _ s).setCell _ _).setPhase (by simp) 2

theorem frame_pollRearm (s : State) (ch t : Nat) :
    Frame (ownParts t [.phase]) s (dpollRearm ch t s) :=
  ((Frame.refl _ s).updChan _ _).setPhase (by simp) 3

theorem frame_engine (s : State) (ch : Nat) (m : Memory) (e1 e2 : Event) (f : Channel → Channel) :
    Frame readyOnly s ((((s.setMem m).record e1).record e2).updChan ch f) :=
  ((((Frame.refl _ s).setMem m).record e1).record e2).updChan ch f

/-- A host step changes parts of its task's record other than the program, and READY bits. -/
theorem hostNext_frame {s s' : State} {t : Nat} {i : Instr} (h : HostNext s t i s') :
    ∃ ps, .prog ∉ ps ∧ Frame (ownParts t ps) s s' := by
  cases h with
  | fault _ f => exact ⟨[], by simp, (Frame.refl _ s).takeFault _ f⟩
  | atomic _ h => exact ⟨_, by simp, atomicNext_frame h⟩
  | stop _ v => exact ⟨_, by simp, frame_stop s t v none⟩
  | pollWait rd ch => exact ⟨_, by simp, frame_setPhase s t 1⟩
  | pollRegister rd ch => exact ⟨_, by simp, frame_pollRegister s ch.toNat t⟩
  | pollRearm rd ch => exact ⟨_, by simp, frame_pollRearm s ch.toNat t⟩
  | timeRead rd => exact ⟨_, by simp, frame_timeRead s t⟩
  | finish _ rd v => exact ⟨_, by simp, frame_finish s t rd v⟩

/-- Every step keeps parameters, counts and programs, and only a host step writes registers, and only the current
task's. -/
theorem stepNext_frame {s s' : State} {c : Choice} (h : StepNext s c s') :
    ∃ allow, Frame allow s s' ∧ (∀ u, .prog ∉ allow u) ∧
      ∀ u, (c ≠ .host ∨ s.current ≠ some u) → .regs ∉ allow u := by
  have noProg : ∀ u, TaskPart.prog ∉ readyOnly u := fun _ => by simp [readyOnly]
  have noRegs : ∀ u, TaskPart.regs ∉ readyOnly u := fun _ => by simp [readyOnly]
  cases h with
  | idle => exact ⟨readyOnly, Frame.refl _ s, noProg, fun u _ => noRegs u⟩
  | @host t i _ hc _ _ hx =>
    obtain ⟨ps, hps, hf⟩ := hostNext_frame hx
    refine ⟨_, hf, fun u => notMem_ownParts hps (by decide), fun u hu => ?_⟩
    obtain hu | hu := hu
    · exact absurd rfl hu
    · have hne : u ≠ t := by
        rintro rfl
        exact hu hc
      rw [ownParts_ne ps hne]
      decide
  | fault c a f => exact ⟨readyOnly, (Frame.refl _ s).takeFault a f, noProg, fun u _ => noRegs u⟩
  | start t =>
    exact ⟨_, frame_stop s t .running (some t), fun u => notMem_ownParts (by decide) (by decide),
      fun u _ => notMem_ownParts (by decide) (by decide)⟩
  | resume t =>
    exact ⟨_, frame_resumeTask s t, fun u => notMem_ownParts (by decide) (by decide),
      fun u _ => notMem_ownParts (by decide) (by decide)⟩
  | engine ch g m e1 e2 =>
    exact ⟨_, frame_engine s ch m e1 e2 _, noProg, fun u _ => noRegs u⟩
  | shim => exact ⟨_, frame_dmaShim s, noProg, fun u _ => noRegs u⟩
  | tickSource => exact ⟨readyOnly, (Frame.refl _ s).of_same rfl rfl rfl, noProg, fun u _ => noRegs u⟩
  | tickHandler => exact ⟨_, frame_tickHandler s, noProg, fun u _ => noRegs u⟩

/-! ### Fields that no command touches -/

/-- The commands that can write RAM. -/
def writesRam : Instr → Bool
  | .st _ _ _ => true
  | .dcfg _ _ _ _ _ _ _ _ => true
  | _ => false

/-- The commands that can record an event in HIST. -/
def accessesData : Instr → Bool
  | .ld _ _ _ => true
  | .st _ _ _ => true
  | _ => false

/-- The predicate is kept by every update that commands and interrupt handlers make of tasks, channels, cells, queue and
alarm: the handles they store are below `ntasks`, and the queue they insert into has room. -/
structure KeptByUpdates (ntasks : Nat) (P : State → Prop) : Prop where
  task : ∀ s t f, P s → P (s.updTask t f)
  chan : ∀ s ch f, P s → P (s.updChan ch f)
  cell : ∀ s id v, (∀ h, v = some h → h < ntasks) → P s → P (s.setCell id v)
  insert : ∀ s ts t, t < ntasks → s.queue.length < s.params.queueCap → P s →
    P (s.setQueue (queueInsert ⟨ts, t⟩ s.queue))
  shrinkQueue : ∀ s (keep : QueueEntry → Bool), P s → P (s.setQueue (s.queue.filter keep))
  alarmRegs : ∀ s en ts, P s → P (s.setAlarmRegs en ts)
  compare : ∀ s v, P s → P (s.setCompare v)

/-- The predicate is kept besides by the entry of a fault and by updates of CURRENT and TICK_PEND: all that a step makes
but the writes of RAM, HIST and the clock. -/
structure KeptByAgents (ntasks : Nat) (P : State → Prop) : Prop extends KeptByUpdates ntasks P where
  fault : ∀ s a f, P s → P (s.takeFault a f)
  current : ∀ s c, P s → P (s.setCurrent c)
  tickPend : ∀ s v, P s → P (s.setTickPend v)

section Keeps

variable {P : State → Prop} {s s' : State} {t n : Nat} {i : Instr} {c : Choice}

theorem KeptByUpdates.timers (k : KeptByUpdates n P) : KeptByTimers P where
  alarmRegs := k.alarmRegs
  compare := k.compare
  shrinkQueue := k.shrinkQueue
  ready s h := k.task s h _

theorem KeptByUpdates.serveChannel (k : KeptByUpdates n P) (s : State) (ch : Nat) (h : P s) :
    P (s.serveChannel ch) := by
  obtain e | ⟨-, e⟩ := serveChannel_cases s ch <;> rw [e]
  · exact h
  · obtain ⟨hd, -, e⟩ | ⟨-, e⟩ := wakeCell_cases (s.updChan ch _) (dmaCellId ch) <;> rw [e]
    · exact k.task _ _ _ (k.cell _ _ _ (by simp) (k.chan _ _ _ h))
    · exact k.chan _ _ _ h

/-- What the updates keep, an atomic command keeps, but for the commands that write RAM or record events. -/
theorem atomicNext_keeps (k : KeptByUpdates n P) (ht : t < n)
    (hmem : writesRam i = true → ∀ x m, P x → P (x.setMem m))
    (hhist : accessesData i = true → ∀ x e, P x → P (x.record e))
    (hs : P s) (h : AtomicNext s t i s') : P s' := by
  have htask : ∀ h, some t = some h → h < n := by simp [ht]
  have hperiph : accessesData i = true → ∀ x e, P x → P (x.recordPeriph e) := by
    intro ha x e hx
    obtain r | r := recordPeriph_cases x e <;> rw [r]
    · exact hx
    · exact hhist ha x e hx
  cases h with
  | goto _ n => exact k.task _ _ _ hs
  | write _ rd v n => exact k.task _ _ _ (k.task _ _ _ hs)
  | wreg id => exact k.task _ _ _ (k.cell _ _ _ htask hs)
  | wake id hd => exact k.task _ _ _ (k.task _ _ _ (k.cell _ _ _ (by simp) hs))
  | signal hd => exact k.task _ _ _ (k.task _ _ _ hs)
  | dres ch => exact k.task _ _ _ (k.chan _ _ _ hs)
  | dcfg rd ch dir wc src dst count opts m =>
    exact k.task _ _ _ (k.task _ _ _ (k.chan _ _ _ (hmem rfl _ _ hs)))
  | den ch => exact k.task _ _ _ (k.chan _ _ _ hs)
  | dtrg ch => exact k.task _ _ _ (k.chan _ _ _ hs)
  | tschedLater rs ts hq => exact k.task _ _ _ (k.insert _ _ _ ht hq hs)
  | tschedFirst rs ts hq => exact k.task _ _ _ (k.timers.rearm _ (k.insert _ _ _ ht hq hs))
  | talarm rd rs ts v => exact k.task _ _ _ (k.task _ _ _ (k.timers.setAlarm _ _ hs))
  | ld rd wc a v => exact k.task _ _ _ (k.task _ _ _ (hperiph rfl _ _ hs))
  | st rs wc a v m => exact k.task _ _ _ (hperiph rfl _ _ (hmem rfl _ _ hs))

/-- What a step's updates keep, a host step keeps, but for the commands that write RAM or record events. -/
theorem hostNext_keeps (k : KeptByAgents n P) (ht : t < n)
    (hmem : writesRam i = true → ∀ x m, P x → P (x.setMem m))
    (hhist : accessesData i = true → ∀ x e, P x → P (x.record e))
    (hs : P s) (h : HostNext s t i s') : P s' := by
  have htask : ∀ h, some t = some h → h < n := by simp [ht]
  cases h with
  | fault _ f => exact k.fault _ _ _ hs
  | atomic _ h => exact atomicNext_keeps k.toKeptByUpdates ht hmem hhist hs h
  | stop _ v => exact k.current _ _ (k.task _ _ _ hs)
  | pollWait rd ch => exact k.task _ _ _ hs
  | pollRegister rd ch => exact k.task _ _ _ (k.cell _ _ _ htask hs)
  | pollRearm rd ch => exact k.task _ _ _ (k.chan _ _ _ hs)
  | timeRead rd => exact k.task _ _ _ (k.task _ _ _ hs)
  | finish _ rd v => exact k.task _ _ _ (k.task _ _ _ (k.task _ _ _ hs))

/-- The step runs a command that meets `p`. -/
def Runs (s : State) (c : Choice) (p : Instr → Bool) : Prop :=
  c = .host ∧ ∃ t i, s.current = some t ∧ s.fetch t = .ok i ∧ p i = true

/-- The step is an engine's. -/
def IsEngine (c : Choice) : Prop := ∃ ch g, c = .engine ch g

/-- What a step's updates keep, the step keeps, but for the writers of RAM, HIST and the clock. -/
theorem stepNext_keeps (k : KeptByAgents s.ntasks P)
    (hmem : IsEngine c ∨ Runs s c writesRam → ∀ x m, P x → P (x.setMem m))
    (hhist : IsEngine c ∨ Runs s c accessesData → ∀ x e, P x → P (x.record e))
    (hclock : c = .tickHandler → ∀ x p n, P x → P (x.setClock p n))
    (hs : P s) (h : StepNext s c s') : P s' := by
  cases h with
  | idle => exact hs
  | host hc ht hf hx =>
    exact hostNext_keeps k ht (fun hw => hmem (.inr ⟨rfl, _, _, hc, hf, hw⟩))
      (fun hw => hhist (.inr ⟨rfl, _, _, hc, hf, hw⟩)) hs hx
  | fault _ a f => exact k.fault _ _ _ hs
  | start t => exact k.current _ _ (k.task _ _ _ hs)
  | resume t => exact k.current _ _ (k.task _ _ _ (k.task _ _ _ (k.task _ _ _ hs)))
  | engine ch g m e1 e2 =>
    have he : IsEngine (.engine ch g) := ⟨ch, g, rfl⟩
    exact k.chan _ _ _ (hhist (.inl he) _ _ (hhist (.inl he) _ _ (hmem (.inl he) _ _ hs)))
  | shim => exact dmaShim_keeps k.serveChannel s hs
  | tickSource => exact k.tickPend _ _ hs
  | tickHandler => exact k.timers.tickHandler k.tickPend (hclock rfl) s hs

end Keeps

end Sys2Proof.Machine.Proofs
end

