-- ==== Sys2Proof/Proofs/ChannelSteps.lean ====
section
/-! SUPPORT. What a step can do to one channel's record, said once; a fact about a channel's record that each of these
changes keeps is then kept by every step. -/

namespace Sys2Proof.Machine.Proofs

open Sys2Proof.Machine.Laws

/-- Who changes a channel's record. -/
inductive ChannelAgent where
  | command (i : Instr)
  | engine
  | shim

/-- One change of a channel's record, under the launch's DMA_MAX_XFER and NTASKS. -/
inductive ChannelNext (maxXfer ntasks : Nat) : ChannelAgent → Channel → Channel → Prop
  | waker (a : ChannelAgent) (c : Channel) (v : Option Handle)
      (hv : ∀ h, v = some h → h < ntasks) : ChannelNext maxXfer ntasks a c { c with waker := v }
  | reserve (ch : BitVec 6) (c : Channel) (t : Nat) (ht : t < ntasks) (hr : c.res = none) :
      ChannelNext maxXfer ntasks (.command (.dres ch)) c { c with res := some t }
  | configure (rd : RegNum) (ch : BitVec 6) (c : Channel) (dir wc : BitVec 2)
      (src dst count opts : Word32) (ha : c.active = false)
      (hok : dcfgTypedError maxXfer dir wc count = none) :
      ChannelNext maxXfer ntasks (.command (.dcfg rd ch dir wc src dst count opts)) c
        (c.configured dir wc count)
  | enable (ch : BitVec 6) (c : Channel) :
      ChannelNext maxXfer ntasks (.command (.den ch)) c { c with enable := true, inten := true }
  | rearm (rd : RegNum) (ch : BitVec 6) (c : Channel) :
      ChannelNext maxXfer ntasks (.command (.dpoll rd ch)) c { c with inten := true }
  | trigger (ch : BitVec 6) (c : Channel) (se de : Nat) (ha : c.active = false)
      (hv : c.cfg.valid = true) (hi : c.inten = true) :
      ChannelNext maxXfer ntasks (.command (.dtrg ch)) c (c.triggered se de)
  | element (c : Channel) (ha : c.active = true) (hr : 0 < c.xfer.rem) :
      ChannelNext maxXfer ntasks .engine c c.elementMoved
  | serve (c : Channel) (h : c.irq = true) :
      ChannelNext maxXfer ntasks .shim c { c with inten := false }

/-- Any number of changes by one agent. -/
def ChannelPath (maxXfer ntasks : Nat) (a : ChannelAgent) : Channel → Channel → Prop :=
  Relation.ReflTransGen (ChannelNext maxXfer ntasks a)

variable {m n : Nat} {a : ChannelAgent} {s s' : State}

/-- What each change keeps, any number of changes keeps. -/
theorem ChannelPath.keeps {Q : Channel → Prop}
    (hQ : ∀ c c', ChannelNext m n a c c' → Q c → Q c') {c c' : Channel}
    (h : ChannelPath m n a c c') (hc : Q c) : Q c' := by
  induction h with
  | refl => exact hc
  | tail _ hstep ih => exact hQ _ _ hstep ih

theorem channelPath_of_chans (h : s'.chans = s.chans) (c : Nat) :
    ChannelPath m n a (s.chan c) (s'.chan c) := by
  rw [chan_congr c h]
  exact .refl

/-- An update of one channel's record that is a change the agent can make. -/
theorem channelPath_updChan {ch : Nat} {f : Channel → Channel}
    (h : ChannelNext m n a (s.chan ch) (f (s.chan ch))) (c : Nat) :
    ChannelPath m n a (s.chan c) ((s.updChan ch f).chan c) := by
  rw [chan_updChan]
  split
  · rename_i hc
    obtain ⟨rfl, -⟩ := hc
    exact .single h
  · exact .refl

theorem channelPath_setCell (id : BitVec 16) {v : Option Handle} (hv : ∀ h, v = some h → h < n)
    (c : Nat) : ChannelPath m n a (s.chan c) ((s.setCell id v).chan c) := by
  rw [setCell_chan]
  split
  · exact .single (.waker a _ v hv)
  · exact .refl

theorem channelPath_wakeCell (id : BitVec 16) (c : Nat) :
    ChannelPath m n a (s.chan c) ((s.wakeCell id).chan c) := by
  obtain ⟨hd, -, e⟩ | ⟨-, e⟩ := wakeCell_cases s id <;> rw [e]
  · exact channelPath_setCell id (by simp) c
  · exact .refl

theorem recordPeriph_chans (s : State) (e : Event) : (s.recordPeriph e).chans = s.chans := by
  obtain r | r := recordPeriph_cases s e <;> rw [r]
  rfl

theorem rearm_chans (s : State) : s.rearm.chans = s.chans := by
  obtain ⟨_, _, _, _, _, e, -⟩ := rearm_other s
  rw [e]

theorem setAlarm_chans (s : State) (ts : Word) : (s.setAlarm ts).chans = s.chans := by
  obtain ⟨_, _, _, e⟩ := setAlarm_other s ts
  rw [e]

/-- What a host step does to a channel's record. -/
theorem hostNext_chan {t : Nat} {i : Instr} (ht : t < s.ntasks) (h : HostNext s t i s') (c : Nat) :
    ChannelPath s.params.dmaMaxXfer s.ntasks (.command i) (s.chan c) (s'.chan c) := by
  have htask : ∀ h, some t = some h → h < s.ntasks := by simp [ht]
  cases h with
  | fault | stop | pollWait | timeRead | finish => exact .refl
  | pollRegister rd ch => exact channelPath_setCell _ htask c
  | pollRearm rd ch => exact channelPath_updChan (.rearm rd ch _) c
  | atomic _ h =>
    cases h with
    | goto | write | signal | tschedLater => exact .refl
    | wreg id => exact channelPath_setCell id htask c
    | wake id hd => exact channelPath_setCell id (by simp) c
    | dres ch hr => exact channelPath_updChan (.reserve ch _ t ht hr) c
    | dcfg rd ch dir wc src dst count opts m ha hok =>
      exact channelPath_updChan (s := s.setMem m)
        (.configure rd ch _ dir wc src dst count opts ha hok) c
    | den ch => exact channelPath_updChan (.enable ch _) c
    | dtrg ch se de ha hv hi => exact channelPath_updChan (.trigger ch _ se de ha hv hi) c
    | tschedFirst rs ts =>
      exact channelPath_of_chans (rearm_chans (s.setQueue (queueInsert ⟨ts, t⟩ s.queue))) c
    | talarm rd rs ts v => exact channelPath_of_chans (setAlarm_chans s ts) c
    | ld rd wc a v => exact channelPath_of_chans (recordPeriph_chans s _) c
    | st rs wc a v m => exact channelPath_of_chans (recordPeriph_chans (s.setMem m) _) c

/-- What the shim does to a channel's record. -/
theorem dmaShim_chan (s : State) (c : Nat) : ChannelPath m n .shim (s.chan c) (s.dmaShim.chan c) := by
  refine dmaShim_keeps (P := fun x => ChannelPath m n .shim (s.chan c) (x.chan c))
    (fun x ch hx => ?_) s .refl
  obtain e | ⟨hirq, e⟩ := serveChannel_cases x ch <;> rw [e]
  · exact hx
  · exact (hx.trans (channelPath_updChan (.serve _ hirq) c)).trans (channelPath_wakeCell _ c)

theorem tickHandler_chans (s : State) : s.tickHandler.chans = s.chans :=
  KeptByTimers.tickHandler (P := fun x => x.chans = s.chans)
    ⟨fun _ _ _ h => h, fun _ _ h => h, fun _ _ h => h, fun _ _ h => h⟩
    (fun _ _ h => h) (fun _ _ _ h => h) s rfl

/-- What an engine step does to a channel's record. -/
theorem engine_chan {ch : Nat} (mem : Memory) (e1 e2 : Event) (ha : (s.chan ch).active = true)
    (hr : 0 < (s.chan ch).xfer.rem) (c : Nat) :
    ChannelPath m n .engine (s.chan c)
      (((((s.setMem mem).record e1).record e2).updChan ch Channel.elementMoved).chan c) :=
  channelPath_updChan (s := ((s.setMem mem).record e1).record e2) (.element _ ha hr) c

/-- Every step changes every channel's record as one agent can: the shim only where the choice is the shim's, a command
only where the choice is the host's and the command is the current task's. A step that changes no channel is counted as
an engine's. -/
theorem stepNext_chan {c : Choice} (h : StepNext s c s') :
    ∃ a, (a = .shim → c = .dmaShim) ∧
      (∀ i, a = .command i → c = .host ∧ ∃ t, s.current = some t ∧ s.fetch t = .ok i) ∧
      ∀ ch, ChannelPath s.params.dmaMaxXfer s.ntasks a (s.chan ch) (s'.chan ch) := by
  cases h with
  | @host t i _ hc ht hf hx =>
    refine ⟨.command i, by simp, fun j hj => ?_, hostNext_chan ht hx⟩
    obtain rfl : i = j := by simpa using hj
    exact ⟨rfl, t, hc, hf⟩
  | engine ch g mem e1 e2 ha hr =>
    exact ⟨.engine, by simp, by simp, engine_chan mem e1 e2 ha hr⟩
  | shim => exact ⟨.shim, by simp, by simp, dmaShim_chan s⟩
  | tickHandler =>
    exact ⟨.engine, by simp, by simp, channelPath_of_chans (tickHandler_chans s)⟩
  | idle | fault | start | resume | tickSource => exact ⟨.engine, by simp, by simp, fun _ => .refl⟩

theorem chan_eq_getElem (s : State) (ch : Nat) (h : ch < s.nch) : s.chan ch = s.chans[ch]'h := by
  unfold State.chan
  rw [List.getElem?_eq_getElem h]
  rfl

/-- A fact about every channel of the list is a fact about every channel by number. -/
theorem forall_chans_iff (s : State) (Q : Channel → Prop) :
    (∀ c ∈ s.chans, Q c) ↔ ∀ ch, ch < s.nch → Q (s.chan ch) := by
  rw [List.forall_mem_iff_getElem]
  exact forall₂_congr fun ch h => by rw [chan_eq_getElem s ch h]

end Sys2Proof.Machine.Proofs
end

