-- ==== Sys2Proof/Proofs/Parity.lean ====
section
/-! SUPPORT. O13: COUNT[31] = PERIOD[0] (10_state.md R62). Only the tick handler moves the clock, and it builds COUNT from
the new PERIOD's lowest bit. -/

namespace Sys2Proof.Machine.Proofs

open Sys2Proof.Machine.Laws

/-- Setting the clock establishes the parity, whatever it was. -/
theorem setClock_parityOk (s : State) (p : BitVec 32) (c : Nat) : (s.setClock p c).ParityOk :=
  BitVec.extractLsb'_append_eq_left

theorem parityOk_keptByAgents (n : Nat) : KeptByAgents n State.ParityOk where
  task _ _ _ h := h
  chan _ _ _ h := h
  cell s id v _ h := by
    obtain ⟨-, -, -, -, -, hperiod, hcount, -⟩ := setCell_other s id v
    unfold State.ParityOk
    rwa [hperiod, hcount]
  insert _ _ _ _ _ h := h
  shrinkQueue _ _ h := h
  alarmRegs _ _ _ h := h
  compare _ _ h := h
  fault _ _ _ h := h
  current _ _ h := h
  tickPend _ _ h := h

/-- Settles O13: no update but the clock's touches PERIOD or COUNT, and that one sets COUNT[31] from PERIOD[0]. -/
theorem stepKeepsParity : Obligations.StepKeepsParity := by
  unfold Obligations.StepKeepsParity
  exact fun s s' => step_keeps (fun _ _ _ h => h) fun s _ _ =>
    stepNext_keeps (parityOk_keptByAgents s.ntasks) (fun _ _ _ h => h) (fun _ _ _ h => h)
      fun _ x p n _ => setClock_parityOk x p n

end Sys2Proof.Machine.Proofs
end

