-- ==== Sys2Proof/Proofs/Current.lean ====
section
/-! SUPPORT. O14: exactly the task CURRENT names is RUNNING, and an INIT task has not begun (10_state.md R33, 44_host.md
R291). -/

namespace Sys2Proof.Machine.Proofs

open Sys2Proof.Machine.Laws

/-- The updates of everything but CURRENT keep CURRENT. -/
theorem current_keptByUpdates (n : Nat) (c : Option Nat) :
    KeptByUpdates n fun x => x.current = c where
  task _ _ _ h := h
  chan _ _ _ h := h
  cell s id v _ h := by
    obtain ⟨-, -, hcur, -⟩ := setCell_other s id v
    exact hcur.trans h
  insert _ _ _ _ _ h := h
  shrinkQueue _ _ h := h
  alarmRegs _ _ _ h := h
  compare _ _ h := h

theorem atomicNext_current {s s' : State} {t : Nat} {i : Instr} (h : AtomicNext s t i s') :
    s'.current = s.current :=
  atomicNext_keeps (current_keptByUpdates (t + 1) s.current) t.lt_succ_self (fun _ _ _ h => h)
    (fun _ _ _ h => h) rfl h

theorem dmaShim_current (s : State) : s.dmaShim.current = s.current :=
  dmaShim_keeps (current_keptByUpdates 0 s.current).serveChannel s rfl

theorem tickHandler_current (s : State) : s.tickHandler.current = s.current :=
  (current_keptByUpdates 0 s.current).timers.tickHandler (fun _ _ h => h) (fun _ _ _ h => h) s rfl

/-- A change that leaves CURRENT and every TSTATE alone, and CP and PHASE of the tasks that do not run. -/
theorem currentOk_of_frame {s s' : State} {allow : Nat → List TaskPart} (h : s.CurrentOk)
    (hf : Frame allow s s') (hc : s'.current = s.current) (hts : ∀ u, .tstate ∉ allow u)
    (hinit : ∀ u, s.current ≠ some u → .cp ∉ allow u ∧ .phase ∉ allow u) : s'.CurrentOk := by
  obtain ⟨hcur, hrun⟩ := h
  refine ⟨fun t ht => hf.ntasks ▸ hcur t (hc ▸ ht), fun u hu => ?_⟩
  obtain ⟨hiff, hi⟩ := hrun u (hf.ntasks ▸ hu)
  have hstate : (s'.task u).tstate = (s.task u).tstate := hf.tasks u .tstate (hts u)
  refine ⟨by rw [hstate, hc]; exact hiff, fun hinit' => ?_⟩
  rw [hstate] at hinit'
  have hnot : s.current ≠ some u := fun e => by
    rw [hiff.mpr e] at hinit'
    cases hinit'
  obtain ⟨hcp, hphase⟩ := hinit u hnot
  obtain ⟨hcp0, hphase0⟩ := hi hinit'
  exact ⟨(hf.tasks u .cp hcp).trans hcp0, (hf.tasks u .phase hphase).trans hphase0⟩

/-- A change of READY bits only, CURRENT left alone. -/
theorem currentOk_of_readyOnly {s s' : State} (h : s.CurrentOk) (hf : Frame readyOnly s s')
    (hc : s'.current = s.current) : s'.CurrentOk :=
  currentOk_of_frame h hf hc (fun _ => by simp [readyOnly]) fun _ _ => by simp [readyOnly]

/-- A change of the running task's record that is not one of its TSTATE. -/
theorem currentOk_of_ownParts {s s' : State} {t : Nat} {ps : List TaskPart} (h : s.CurrentOk)
    (ht : s.current = some t) (hf : Frame (ownParts t ps) s s') (hps : .tstate ∉ ps)
    (hc : s'.current = s.current) : s'.CurrentOk := by
  refine currentOk_of_frame h hf hc (fun u => notMem_ownParts hps (by decide)) fun u hu => ?_
  have hne : u ≠ t := by
    rintro rfl
    exact hu ht
  rw [ownParts_ne ps hne]
  decide

/-- A task's record after its TSTATE is set and CURRENT with it. -/
theorem setTstate_setCurrent_task (s : State) (t u : Nat) (v : TaskState) (c : Option Nat) :
    ((s.setTstate t v).setCurrent c).task u =
      if u = t ∧ t < s.ntasks then { s.task t with tstate := v } else s.task u :=
  task_updTask s t u _

/-- YIELD and HALT. -/
theorem currentOk_stop {s : State} {t : Nat} {v : TaskState} (h : s.CurrentOk)
    (hc : s.current = some t) (hv : v = .suspended ∨ v = .halted) :
    ((s.setTstate t v).setCurrent none).CurrentOk := by
  obtain ⟨hcur, hrun⟩ := h
  refine ⟨by simp, fun u hu => ?_⟩
  have hu : u < s.ntasks := (frame_stop s t v none).ntasks ▸ hu
  rw [setTstate_setCurrent_task]
  split
  · obtain rfl | rfl := hv <;> simp
  · rename_i hne
    obtain ⟨hiff, hi⟩ := hrun u hu
    refine ⟨?_, hi⟩
    have hnot : s.current ≠ some u := by
      rw [hc]
      rintro ⟨⟩
      exact hne ⟨rfl, hu⟩
    simp [hiff, hnot]

/-- START and RESUME: the task's record may have changed before, the others' only in READY. -/
theorem currentOk_run {s x : State} {t : Nat} {ps : List TaskPart} (h : s.CurrentOk)
    (hc : s.current = none) (ht : t < s.ntasks) (hf : Frame (ownParts t ps) s x) :
    ((x.setTstate t .running).setCurrent (some t)).CurrentOk := by
  obtain ⟨-, hrun⟩ := h
  have hn : ((x.setTstate t .running).setCurrent (some t)).ntasks = s.ntasks :=
    (frame_stop x t .running (some t)).ntasks.trans hf.ntasks
  refine ⟨fun u hu => ?_, fun u hu => ?_⟩
  · obtain rfl : t = u := by simpa using hu
    exact hn ▸ ht
  · rw [setTstate_setCurrent_task]
    by_cases hut : u = t
    · subst hut
      simp [hf.ntasks, ht]
    · rw [if_neg fun hx => hut hx.1]
      obtain ⟨hiff, hi⟩ := hrun u (hn ▸ hu)
      have hpart : ∀ p : TaskPart, p ≠ .ready → p.same (s.task u) (x.task u) := fun p hp =>
        hf.tasks u p (by simpa [ownParts_ne ps hut] using hp)
      have hstate : (x.task u).tstate = (s.task u).tstate := hpart .tstate (by decide)
      have hcp : (x.task u).cp = (s.task u).cp := hpart .cp (by decide)
      have hphase : (x.task u).phase = (s.task u).phase := hpart .phase (by decide)
      rw [hstate, hcp, hphase]
      refine ⟨?_, hi⟩
      simp [hiff, hc, Ne.symm hut]

theorem currentOk_hostNext {s s' : State} {t : Nat} {i : Instr} (h : s.CurrentOk)
    (hc : s.current = some t) (hx : HostNext s t i s') : s'.CurrentOk := by
  cases hx with
  | fault => exact h
  | atomic _ ha =>
    exact currentOk_of_ownParts h hc (atomicNext_frame ha) (by decide) (atomicNext_current ha)
  | stop _ v _ hv => exact currentOk_stop h hc hv
  | pollWait => exact currentOk_of_ownParts h hc (frame_setPhase s t 1) (by decide) rfl
  | pollRegister rd ch =>
    exact currentOk_of_ownParts h hc (frame_pollRegister s _ t) (by decide)
      ((current_keptByUpdates (t + 1) s.current).cell s _ _ (by simp) rfl)
  | pollRearm => exact currentOk_of_ownParts h hc (frame_pollRearm s _ t) (by decide) rfl
  | timeRead => exact currentOk_of_ownParts h hc (frame_timeRead s t) (by decide) rfl
  | finish _ rd v => exact currentOk_of_ownParts h hc (frame_finish s t rd v) (by decide) rfl

theorem currentOk_stepNext {s s' : State} {c : Choice} (h : s.CurrentOk) (hx : StepNext s c s') :
    s'.CurrentOk := by
  cases hx with
  | idle | fault | tickSource => exact h
  | host hc _ _ hn => exact currentOk_hostNext h hc hn
  | start t hc ht => exact currentOk_run (ps := []) h hc ht (Frame.refl _ s)
  | resume t hc ht =>
    exact currentOk_run h hc ht
      (((Frame.refl (ownParts t [.cp, .ready]) s).setReady (by simp) false).advance (by simp) 1)
  | engine ch g m e1 e2 => exact currentOk_of_readyOnly h (frame_engine s ch m e1 e2 _) rfl
  | shim => exact currentOk_of_readyOnly h (frame_dmaShim s) (dmaShim_current s)
  | tickHandler => exact currentOk_of_readyOnly h (frame_tickHandler s) (tickHandler_current s)

/-- Settles O14: a command changes CURRENT and its own task's TSTATE together or not at all, and only the task that runs
moves CP and PHASE. -/
theorem stepKeepsCurrent : Obligations.StepKeepsCurrent := by
  unfold Obligations.StepKeepsCurrent
  exact fun s s' => step_keeps (fun _ _ _ h => h) (fun _ _ _ => currentOk_stepNext)

end Sys2Proof.Machine.Proofs
end

