-- ==== Sys2Proof/Proofs/ChannelFlags.lean ====
section
/-! SUPPORT. O15: each change of a channel's record keeps its flags fitting its transfer (10_state.md R43 to R45,
42_dma.md R170, R179, R192, R193). -/

namespace Sys2Proof.Machine.Proofs

open Sys2Proof.Machine.Laws

/-- What DCFG's typed checks let through. -/
theorem dcfgTypedError_none {maxXfer : Nat} {dir wc : BitVec 2} {count : Word32}
    (h : dcfgTypedError maxXfer dir wc count = none) :
    dir ≠ 3 ∧ wc ≠ 3 ∧ 1 ≤ count.toNat ∧ count.toNat ≤ maxXfer := by
  unfold dcfgTypedError at h
  split at h
  · cases h
  · rename_i hdir
    split at h
    · cases h
    · rename_i hwc
      split at h
      · cases h
      · rename_i hcount
        rw [not_or, Nat.not_lt] at hcount
        obtain ⟨h0, hmax⟩ := hcount
        have hpos : count.toNat ≠ 0 := fun e => h0 (BitVec.eq_of_toNat_eq e)
        exact ⟨hdir, hwc, by omega, hmax⟩

theorem channelOk_configured {maxXfer : Nat} {c : Channel} {dir wc : BitVec 2} {count : Word32}
    (h : ChannelOk maxXfer c) (ha : c.active = false)
    (hok : dcfgTypedError maxXfer dir wc count = none) :
    ChannelOk maxXfer (c.configured dir wc count) := by
  obtain ⟨-, -, -, hrem, hcount, -⟩ := h
  obtain ⟨hdir, hwc, hpos, hmax⟩ := dcfgTypedError_none hok
  exact ⟨by simp [Channel.configured, ha], fun _ => rfl, by simp [Channel.configured], hrem, hcount,
    fun _ => ⟨rfl, hdir, hwc, hpos, hmax, rfl, rfl, rfl⟩⟩

/-- A configuration awaiting its trigger has a positive count, and its channel is idle. -/
theorem channelOk_triggered {maxXfer : Nat} {c : Channel} (h : ChannelOk maxXfer c) (se de : Nat)
    (hv : c.cfg.valid = true) (hi : c.inten = true) : ChannelOk maxXfer (c.triggered se de) := by
  obtain ⟨hstarted, -, -, -, -, hcfg⟩ := h
  obtain ⟨hs, -, -, hpos, -⟩ := hcfg hv
  have hidle : c.active = false ∧ c.done = false := by simpa [hs] using hstarted
  obtain ⟨-, hdone⟩ := hidle
  refine ⟨by simp [Channel.triggered], fun _ => hdone, fun _ hi' => ?_, ?_, fun _ => le_rfl, ?_⟩
  · exact absurd (hi.symm.trans hi') (by decide)
  · simp only [Channel.triggered, true_iff]
    exact hpos
  · simp [Channel.triggered]

/-- The last element completes the transfer, any other counts it down. -/
theorem channelOk_elementMoved {maxXfer : Nat} {c : Channel} (h : ChannelOk maxXfer c)
    (ha : c.active = true) (hr : 0 < c.xfer.rem) : ChannelOk maxXfer c.elementMoved := by
  obtain ⟨hstarted, hexcl, hint, -, hcount, hcfg⟩ := h
  have hs : c.started = true := by simp [hstarted, ha]
  have hinvalid : c.cfg.valid = true → False := fun hv => by
    obtain ⟨hns, -⟩ := hcfg hv
    exact absurd (hs.symm.trans hns) (by decide)
  unfold Channel.elementMoved
  split
  · exact ⟨by simp [hs], by simp, fun _ _ => rfl, by simp, by simp, fun hv => (hinvalid hv).elim⟩
  · rename_i hlast
    have hle := hcount ha
    exact ⟨hstarted, hexcl, hint, by simp only [ha, true_iff]; omega, fun _ => by simp only; omega,
      fun hv => (hinvalid hv).elim⟩

/-- Every change a step can make to a channel's record keeps its flags fitting its transfer. -/
theorem channelOk_next {maxXfer n : Nat} {a : ChannelAgent} {c c' : Channel}
    (hn : ChannelNext maxXfer n a c c') (h : ChannelOk maxXfer c) : ChannelOk maxXfer c' := by
  cases hn with
  | waker | reserve => exact h
  | configure rd ch _ dir wc src dst count opts ha hok => exact channelOk_configured h ha hok
  | enable | rearm =>
    obtain ⟨hstarted, hexcl, -, hrem, hcount, hcfg⟩ := h
    exact ⟨hstarted, hexcl, by simp, hrem, hcount, hcfg⟩
  | trigger _ _ se de _ hv hi => exact channelOk_triggered h se de hv hi
  | element _ ha hr => exact channelOk_elementMoved h ha hr
  | serve _ hirq =>
    obtain ⟨hstarted, hexcl, -, hrem, hcount, hcfg⟩ := h
    simp only [Channel.irq, Bool.and_eq_true] at hirq
    obtain ⟨hdone, -⟩ := hirq
    exact ⟨hstarted, hexcl, fun _ _ => hdone, hrem, hcount, hcfg⟩

theorem channelsOk_stepNext {s s' : State} {c : Choice} (h : s.ChannelsOk) (hx : StepNext s c s') :
    s'.ChannelsOk := by
  obtain ⟨_, hf, -⟩ := stepNext_frame hx
  obtain ⟨a, -, -, hpath⟩ := stepNext_chan hx
  unfold State.ChannelsOk at h ⊢
  rw [forall_chans_iff] at h ⊢
  rw [hf.params, hf.nch]
  exact fun ch hch => (hpath ch).keeps (fun _ _ hn => channelOk_next hn) (h ch hch)

/-- Settles O15, by the changes a step can make to one channel's record. -/
theorem stepKeepsChannelFlags : Obligations.StepKeepsChannelFlags := by
  unfold Obligations.StepKeepsChannelFlags
  exact fun s s' => step_keeps (fun _ _ _ h => h) (fun _ _ _ => channelsOk_stepNext)

end Sys2Proof.Machine.Proofs
end

