-- ==== Sys2Proof/Proofs/HandlesAndQueue.lean ====
section
/-! SUPPORT. O16: every handle held is a task's (41_waker.md R140), and the queue stays within QCAP and in the model's
order (10_state.md R63, log 7). -/

namespace Sys2Proof.Machine.Proofs

open Sys2Proof.Machine.Laws

/-! ### The queue's order -/

theorem queueEntry_le_iff (e f : QueueEntry) :
    e.le f = true ↔
      e.ts.toNat < f.ts.toNat ∨ e.ts.toNat = f.ts.toNat ∧ e.handle ≤ f.handle := by
  simp [QueueEntry.le, BitVec.toNat_inj]

theorem queueEntry_le_trans {e f g : QueueEntry} (h1 : e.le f = true) (h2 : f.le g = true) :
    e.le g = true := by
  simp only [queueEntry_le_iff, Handle] at h1 h2 ⊢
  omega

theorem queueEntry_le_total {e f : QueueEntry} (h : ¬ e.le f = true) : f.le e = true := by
  simp only [queueEntry_le_iff, Handle] at h ⊢
  omega

theorem queueInsert_sorted (e : QueueEntry) (q : List QueueEntry)
    (h : q.Pairwise fun e f => e.le f = true) :
    (queueInsert e q).Pairwise fun e f => e.le f = true := by
  induction q with
  | nil => exact List.pairwise_singleton _ e
  | cons f q ih =>
    obtain ⟨hf, hq⟩ := List.pairwise_cons.mp h
    unfold queueInsert
    split
    · rename_i hef
      refine List.pairwise_cons.mpr ⟨fun x hx => ?_, h⟩
      obtain rfl | hx := List.mem_cons.mp hx
      · exact hef
      · exact queueEntry_le_trans hef (hf x hx)
    · rename_i hef
      refine List.pairwise_cons.mpr ⟨fun x hx => ?_, ih hq⟩
      obtain rfl | hx := (mem_queueInsert e x q).mp hx
      · exact queueEntry_le_total hef
      · exact hf x hx

/-! ### Handles outside the channels -/

/-- The cells of classes 1 to 4 hold handles below n only. -/
def CellsBelow (n : Nat) (s : State) : Prop :=
  ∀ x ∈ s.i2cCells ++ s.rngCells ++ s.wdtCells ++ s.espiCells, ∀ h, x = some h → h < n

/-- The queue holds handles below n only, and meets its own invariant. -/
def QueueBelow (n : Nat) (s : State) : Prop := (∀ e ∈ s.queue, e.handle < n) ∧ s.QueueOk

theorem forall_mem_set {α : Type} {Q : α → Prop} {l : List α} {i : Nat} {v : α}
    (h : ∀ x ∈ l, Q x) (hv : Q v) : ∀ x ∈ l.set i v, Q x := by
  intro x hx
  obtain hx | rfl := List.mem_or_eq_of_mem_set hx
  · exact h x hx
  · exact hv

theorem cellsBelow_setCell {n : Nat} {s : State} (h : CellsBelow n s) (id : BitVec 16)
    {v : Option Handle} (hv : ∀ h, v = some h → h < n) : CellsBelow n (s.setCell id v) := by
  unfold CellsBelow at h ⊢
  simp only [List.forall_mem_append] at h ⊢
  obtain ⟨⟨⟨hi2c, hrng⟩, hwdt⟩, hespi⟩ := h
  unfold State.setCell
  split
  · exact ⟨⟨⟨hi2c, hrng⟩, hwdt⟩, hespi⟩
  · exact ⟨⟨⟨forall_mem_set hi2c hv, hrng⟩, hwdt⟩, hespi⟩
  · exact ⟨⟨⟨hi2c, forall_mem_set hrng hv⟩, hwdt⟩, hespi⟩
  · exact ⟨⟨⟨hi2c, hrng⟩, forall_mem_set hwdt hv⟩, hespi⟩
  · exact ⟨⟨⟨hi2c, hrng⟩, hwdt⟩, forall_mem_set hespi hv⟩
  · exact ⟨⟨⟨hi2c, hrng⟩, hwdt⟩, hespi⟩

theorem queueBelow_setCell {n : Nat} {s : State} (h : QueueBelow n s) (id : BitVec 16)
    (v : Option Handle) : QueueBelow n (s.setCell id v) := by
  obtain ⟨hparams, -, -, -, -, -, -, -, -, -, -, hqueue, -⟩ := setCell_other s id v
  unfold QueueBelow State.QueueOk
  rwa [hparams, hqueue]

theorem queueBelow_insert {n t : Nat} {s : State} (h : QueueBelow n s) (ts : Word) (ht : t < n)
    (hroom : s.queue.length < s.params.queueCap) :
    QueueBelow n (s.setQueue (queueInsert ⟨ts, t⟩ s.queue)) := by
  obtain ⟨hbelow, -, hsorted⟩ := h
  refine ⟨fun e he => ?_, ?_, queueInsert_sorted _ _ hsorted⟩
  · obtain rfl | he := (mem_queueInsert _ _ _).mp he
    · exact ht
    · exact hbelow e he
  · exact (queueInsert_length _ _).trans_le hroom

theorem queueBelow_filter {n : Nat} {s : State} (h : QueueBelow n s) (keep : QueueEntry → Bool) :
    QueueBelow n (s.setQueue (s.queue.filter keep)) := by
  obtain ⟨hbelow, hlen, hsorted⟩ := h
  exact ⟨fun e he => hbelow e (List.mem_of_mem_filter he),
    (List.length_filter_le _ _).trans hlen, hsorted.filter _⟩

theorem cellsAndQueue_keptByAgents (n : Nat) :
    KeptByAgents n fun s => CellsBelow n s ∧ QueueBelow n s where
  task _ _ _ h := h
  chan _ _ _ h := h
  cell := fun _ id v hv ⟨hc, hq⟩ => ⟨cellsBelow_setCell hc id hv, queueBelow_setCell hq id v⟩
  insert := fun _ ts _ ht hroom ⟨hc, hq⟩ => ⟨hc, queueBelow_insert hq ts ht hroom⟩
  shrinkQueue := fun _ keep ⟨hc, hq⟩ => ⟨hc, queueBelow_filter hq keep⟩
  alarmRegs _ _ _ h := h
  compare _ _ h := h
  fault _ _ _ h := h
  current _ _ h := h
  tickPend _ _ h := h

/-! ### Handles in the channels -/

/-- The channel's cell and owner are below n. -/
def ChannelHandlesBelow (n : Nat) (c : Channel) : Prop :=
  ∀ h, (c.waker = some h ∨ c.res = some h) → h < n

theorem channelHandlesBelow_next {maxXfer n : Nat} {a : ChannelAgent} {c c' : Channel}
    (hn : ChannelNext maxXfer n a c c') (hc : ChannelHandlesBelow n c) :
    ChannelHandlesBelow n c' := by
  cases hn with
  | waker _ _ v hv =>
    rintro h (hw | hr)
    · exact hv h hw
    · exact hc h (.inr hr)
  | reserve ch _ t ht =>
    rintro h (hw | hr)
    · exact hc h (.inl hw)
    · obtain rfl : t = h := by simpa using hr
      exact ht
  | element =>
    unfold Channel.elementMoved
    split <;> exact hc
  | configure | enable | rearm | trigger | serve => exact hc

theorem handlesAndQueue_stepNext {s s' : State} {c : Choice} (h : s.HandlesOk ∧ s.QueueOk)
    (hx : StepNext s c s') : s'.HandlesOk ∧ s'.QueueOk := by
  obtain ⟨⟨hchans, hcells, hqueue⟩, hq⟩ := h
  obtain ⟨_, hf, -⟩ := stepNext_frame hx
  obtain ⟨a, -, -, hpath⟩ := stepNext_chan hx
  have hchans' : ∀ c ∈ s'.chans, ChannelHandlesBelow s.ntasks c := by
    rw [forall_chans_iff] at hchans ⊢
    rw [hf.nch]
    exact fun ch hch => (hpath ch).keeps (fun _ _ hn => channelHandlesBelow_next hn) (hchans ch hch)
  obtain ⟨hcells', hqueue', hq'⟩ : CellsBelow s.ntasks s' ∧ QueueBelow s.ntasks s' :=
    stepNext_keeps (cellsAndQueue_keptByAgents s.ntasks) (fun _ _ _ h => h) (fun _ _ _ h => h)
      (fun _ _ _ _ h => h) ⟨hcells, hqueue, hq⟩ hx
  unfold State.HandlesOk
  rw [hf.ntasks]
  exact ⟨⟨hchans', hcells', hqueue'⟩, hq'⟩

/-- Settles O16: the only handle a step stores is the running task's, and TSCHED inserts where there is room. -/
theorem stepKeepsHandlesAndQueue : Obligations.StepKeepsHandlesAndQueue := by
  unfold Obligations.StepKeepsHandlesAndQueue
  exact fun s s' hh hq =>
    step_keeps (P := fun s => s.HandlesOk ∧ s.QueueOk) (fun _ _ _ h => h)
      (fun _ _ _ => handlesAndQueue_stepNext) ⟨hh, hq⟩

end Sys2Proof.Machine.Proofs
end

