-- ==== Sys2Proof/Proofs/Phase.lean ====
section
/-! SUPPORT. O17: a command part-way through is the running task's DPOLL or TNOW (10_state.md R35). Where no task is
part-way the statement is empty, so what is left are the micro-steps and the steps of the other agents. -/

namespace Sys2Proof.Machine.Proofs

open Sys2Proof.Machine.Laws

variable {s s' : State} {t : Nat} {allow : Nat → List TaskPart}

theorem phaseOk_of_zero (h : ∀ u, u < s.ntasks → (s.task u).phase = 0) : s.PhaseOk :=
  fun u hu hp => absurd (h u hu) hp

/-- A task that does not run is at a command's first step. -/
theorem phase_zero_of_not_current (h : s.PhaseOk) {u : Nat} (hu : u < s.ntasks)
    (hc : s.current ≠ some u) : (s.task u).phase = 0 := by
  by_contra hp
  obtain ⟨hcur, -⟩ := h u hu hp
  exact hc hcur

/-- No task is part-way through a command after a step that leaves every PHASE but the running task's alone, and leaves
that one 0. -/
theorem phaseOk_of_ownParts_zero {ps : List TaskPart} (h : s.PhaseOk)
    (hc : s.current = some t ∨ s.current = none) (hf : Frame (ownParts t ps) s s')
    (h0 : (s'.task t).phase = 0) : s'.PhaseOk := by
  refine phaseOk_of_zero fun u hu => ?_
  by_cases hut : u = t
  · exact hut ▸ h0
  · have hsame : (s'.task u).phase = (s.task u).phase :=
      hf.tasks u .phase (by simp [ownParts_ne ps hut])
    have hnot : s.current ≠ some u := by
      obtain hc | hc := hc <;> rw [hc]
      · simpa using Ne.symm hut
      · simp
    exact hsame.trans (phase_zero_of_not_current h (hf.ntasks ▸ hu) hnot)

/-- The same, where the step leaves the running task's PHASE 0 alone. -/
theorem phaseOk_of_ownParts {ps : List TaskPart} (h : s.PhaseOk)
    (hc : s.current = some t ∨ s.current = none) (hf : Frame (ownParts t ps) s s')
    (hps : .phase ∉ ps) (h0 : (s.task t).phase = 0) : s'.PhaseOk :=
  phaseOk_of_ownParts_zero h hc hf
    ((hf.tasks t .phase (by simpa using hps) : (s'.task t).phase = (s.task t).phase).trans h0)

/-- The command at CP depends on the program and CP only. -/
theorem fetch_congr (hprog : (s'.task t).prog = (s.task t).prog)
    (hcp : (s'.task t).cp = (s.task t).cp) : s'.fetch t = s.fetch t := by
  unfold State.fetch State.wordsAtCp
  rw [hprog, hcp]

theorem fetch_of_frame (hf : Frame allow s s') (hprog : .prog ∉ allow t) (hcp : .cp ∉ allow t) :
    s'.fetch t = s.fetch t :=
  fetch_congr (hf.tasks t .prog hprog) (hf.tasks t .cp hcp)

/-- Task t may be part-way through the DPOLL of channel ch. -/
def PollsOwn (s : State) (t ch : Nat) : Prop := Owns s t ch ∧ (s.chan ch).started = true

/-- A micro-step of the running task leads into the middle of the command at its CP. -/
theorem phaseOk_of_midway {ps : List TaskPart} (h : s.PhaseOk) (hc : s.current = some t)
    (hf : Frame (ownParts t ps) s s') (hc' : s'.current = some t)
    (hmid : (∃ rd ch, s'.fetch t = .ok (.dpoll rd ch) ∧ PollsOwn s' t ch.toNat) ∨
      ∃ rd, s'.fetch t = .ok (.tnow rd) ∧ (s'.task t).phase = 1) : s'.PhaseOk := by
  intro u hu hp
  by_cases hut : u = t
  · subst hut
    refine ⟨hc', ?_⟩
    obtain ⟨rd, ch, hfetch, howns, hstarted⟩ | ⟨rd, hfetch, hphase⟩ := hmid
    · exact .inl ⟨rd, ch, hfetch, howns, hstarted⟩
    · exact .inr ⟨rd, hfetch, hphase⟩
  · have hsame : (s'.task u).phase = (s.task u).phase :=
      hf.tasks u .phase (by simp [ownParts_ne ps hut])
    have hnot : s.current ≠ some u := by
      rw [hc]
      simpa using Ne.symm hut
    exact absurd (hsame.trans (phase_zero_of_not_current h (hf.ntasks ▸ hu) hnot)) hp

/-- A task part-way through a DPOLL polls a started channel it owns. -/
theorem pollsOwn_of_phaseOk (h : s.PhaseOk) (ht : t < s.ntasks) (hp : (s.task t).phase ≠ 0)
    {rd : RegNum} {ch : BitVec 6} (hf : s.fetch t = .ok (.dpoll rd ch)) :
    PollsOwn s t ch.toNat := by
  obtain ⟨-, ⟨rd', ch', hf', howns, hstarted⟩ | ⟨rd', hf', -⟩⟩ := h t ht hp <;> rw [hf] at hf'
  · cases hf'
    exact ⟨howns, hstarted⟩
  · cases hf'

/-- An agent that runs no command leaves a reserved, started channel reserved and started. -/
theorem reservedStarted_next {maxXfer n : Nat} {a : ChannelAgent} {c c' : Channel}
    (ha : ∀ i, a ≠ .command i) (hn : ChannelNext maxXfer n a c c')
    (h : c.res = some t ∧ c.started = true) : c'.res = some t ∧ c'.started = true := by
  cases hn with
  | waker | serve => exact h
  | element =>
    unfold Channel.elementMoved
    split <;> exact h
  | reserve | configure | enable | rearm | trigger => exact absurd rfl (ha _)

/-- A step of another agent: READY bits, and changes of channels that no command makes. -/
theorem phaseOk_of_agent {a : ChannelAgent} {m n : Nat} (h : s.PhaseOk) (hf : Frame readyOnly s s')
    (hc : s'.current = s.current) (ha : ∀ i, a ≠ .command i)
    (hpath : ∀ c, ChannelPath m n a (s.chan c) (s'.chan c)) : s'.PhaseOk := by
  intro u hu hp
  have hphase : (s'.task u).phase = (s.task u).phase := hf.tasks u .phase (by simp [readyOnly])
  have hfetch : s'.fetch u = s.fetch u :=
    fetch_of_frame hf (by simp [readyOnly]) (by simp [readyOnly])
  obtain ⟨hcur, hcmd⟩ := h u (hf.ntasks ▸ hu) (hphase ▸ hp)
  rw [hc, hfetch, hphase]
  refine ⟨hcur, hcmd.imp_left ?_⟩
  rintro ⟨rd, ch, hd, ⟨hch, hres⟩, hstarted⟩
  obtain ⟨hres', hstarted'⟩ := (hpath ch.toNat).keeps (Q := fun c => c.res = some u ∧ _)
    (fun _ _ hn => reservedStarted_next ha hn) ⟨hres, hstarted⟩
  exact ⟨rd, ch, hd, ⟨hf.nch ▸ hch, hres'⟩, hstarted'⟩

theorem pollsOwn_of_eq {ch : Nat} (hn : s'.nch = s.nch) (hres : (s'.chan ch).res = (s.chan ch).res)
    (hst : (s'.chan ch).started = (s.chan ch).started) (h : PollsOwn s t ch) : PollsOwn s' t ch := by
  unfold PollsOwn Owns
  rw [hn, hres, hst]
  exact h

/-- DPOLL's micro-steps change CELL and INTEN of channels, never their owner or STARTED. -/
theorem pollsOwn_pollRegister {ch : Nat} (h : PollsOwn s t ch) :
    PollsOwn (dpollRegister ch t s) t ch := by
  have hch : (dpollRegister ch t s).chan ch = (s.setCell (dmaCellId ch) (some t)).chan ch := rfl
  refine pollsOwn_of_eq (frame_pollRegister s ch t).nch ?_ ?_ h <;>
  · rw [hch, setCell_chan]
    split <;> rfl

theorem pollsOwn_pollRearm {ch : Nat} (h : PollsOwn s t ch) :
    PollsOwn (dpollRearm ch t s) t ch := by
  have hch : (dpollRearm ch t s).chan ch =
      (s.updChan ch fun c => { c with inten := true }).chan ch := rfl
  have ⟨⟨hlt, _⟩, _⟩ := h
  refine pollsOwn_of_eq (frame_pollRearm s ch t).nch ?_ ?_ h <;>
  rw [hch, chan_updChan_self _ _ _ hlt]

theorem phaseOk_hostNext {i : Instr} (h : s.PhaseOk) (hc : s.current = some t) (ht : t < s.ntasks)
    (hf : s.fetch t = .ok i) (hx : HostNext s t i s') : s'.PhaseOk := by
  have hfetch : ∀ {x ps}, Frame (ownParts t ps) s x → .prog ∉ ps → .cp ∉ ps → x.fetch t = .ok i :=
    fun hfr hprog hcp =>
      (fetch_of_frame hfr (by simpa using hprog) (by simpa using hcp)).trans hf
  cases hx with
  | fault => exact h
  | atomic hp ha => exact phaseOk_of_ownParts h (.inl hc) (atomicNext_frame ha) (by decide) hp
  | stop _ v hp => exact phaseOk_of_ownParts h (.inl hc) (frame_stop s t v none) (by decide) hp
  | pollWait rd ch howns hstarted =>
    exact phaseOk_of_midway h hc (frame_setPhase s t 1) hc
      (.inl ⟨rd, ch, hfetch (frame_setPhase s t 1) (by decide) (by decide), howns, hstarted⟩)
  | pollRegister rd ch hp =>
    have hown := pollsOwn_of_phaseOk h ht (by simp [hp]) hf
    exact phaseOk_of_midway h hc (frame_pollRegister s _ t)
      ((current_keptByUpdates (t + 1) _).cell s _ _ (by simp) hc)
      (.inl ⟨rd, ch, hfetch (frame_pollRegister s _ t) (by decide) (by decide),
        pollsOwn_pollRegister hown⟩)
  | pollRearm rd ch hp =>
    have hown := pollsOwn_of_phaseOk h ht (by simp [hp]) hf
    exact phaseOk_of_midway h hc (frame_pollRearm s _ t) hc
      (.inl ⟨rd, ch, hfetch (frame_pollRearm s _ t) (by decide) (by decide),
        pollsOwn_pollRearm hown⟩)
  | timeRead rd =>
    have hphase : ((tnowPeriod t s).task t).phase = 1 := by
      unfold tnowPeriod State.setPhase
      rw [task_updTask_self _ _ _ (by simpa using ht)]
    exact phaseOk_of_midway h hc (frame_timeRead s t) hc
      (.inr ⟨rd, hfetch (frame_timeRead s t) (by decide) (by decide), hphase⟩)
  | finish _ rd v =>
    refine phaseOk_of_ownParts_zero h (.inl hc) (frame_finish s t rd v) ?_
    rw [advance_task_self _ _ _ (by simpa using ht)]
    unfold State.setPhase
    rw [task_updTask_self _ _ _ (by simpa using ht)]

theorem phaseOk_stepNext {c : Choice} (h : s.PhaseOk) (hx : StepNext s c s') : s'.PhaseOk := by
  have idle : s.current = none → ∀ {t}, t < s.ntasks → (s.task t).phase = 0 := fun hc _ ht =>
    phase_zero_of_not_current h ht (by simp [hc])
  cases hx with
  | idle | fault | tickSource => exact h
  | host hc ht hf hn => exact phaseOk_hostNext h hc ht hf hn
  | start t hc ht =>
    exact phaseOk_of_ownParts h (.inr hc) (frame_stop s t .running _) (by decide) (idle hc ht)
  | resume t hc ht =>
    exact phaseOk_of_ownParts h (.inr hc) (frame_resumeTask s t) (by decide) (idle hc ht)
  | engine ch g m e1 e2 ha hr =>
    exact phaseOk_of_agent (a := .engine) (m := 0) (n := 0) h (frame_engine s ch m e1 e2 _) rfl
      (by simp) (engine_chan m e1 e2 ha hr)
  | shim =>
    exact phaseOk_of_agent (a := .shim) (m := 0) (n := 0) h (frame_dmaShim s) (dmaShim_current s)
      (by simp) (dmaShim_chan s)
  | tickHandler =>
    exact phaseOk_of_agent (a := .engine) (m := 0) (n := 0) h (frame_tickHandler s)
      (tickHandler_current s) (by simp) (channelPath_of_chans (tickHandler_chans s))

/-- Settles O17: every task but the running one is at a command's first step, so a command's micro-steps find their
task alone part-way, and no other agent touches PHASE, the owner of a channel or STARTED. -/
theorem stepKeepsPhase : Obligations.StepKeepsPhase := by
  unfold Obligations.StepKeepsPhase
  exact fun s s' => step_keeps (fun _ _ _ h => h) (fun _ _ _ => phaseOk_stepNext)

end Sys2Proof.Machine.Proofs
end

