-- ==== Sys2Proof/Proofs/Writers.lean ====
section
/-! SUPPORT. O19, O20 and O38: what no step changes, who writes what, and who lowers DMA_IRQ. -/

namespace Sys2Proof.Machine.Proofs

open Sys2Proof.Machine.Laws

variable {s s' : State} {c : Choice}

/-! ### O19: the launch and the owners are fixed -/

theorem res_next {maxXfer n o : Nat} {a : ChannelAgent} {c c' : Channel}
    (hn : ChannelNext maxXfer n a c c') (h : c.res = some o) : c'.res = some o := by
  cases hn with
  | reserve _ _ _ _ hr => exact absurd (hr.symm.trans h) (by simp)
  | element =>
    unfold Channel.elementMoved
    split <;> exact h
  | waker | configure | enable | rearm | trigger | serve => exact h

/-- Settles O19: every step stays in a frame that lists no program, and the only write of RES is DRES's of an unreserved
channel. -/
theorem fixedForTheRun : Obligations.FixedForTheRun := by
  unfold Obligations.FixedForTheRun
  intro s s' h
  have hx := step_stepNext h
  obtain ⟨cs, n, e⟩ := dropChoice_eq s
  rw [e] at hx
  obtain ⟨allow, hf, hprog, -⟩ := stepNext_frame hx
  obtain ⟨a, -, -, hpath⟩ := stepNext_chan hx
  exact ⟨hf.params, hf.counts, fun t => hf.tasks t .prog (hprog t),
    fun ch o hres => (hpath ch).keeps (fun _ _ hn => res_next hn) hres⟩

/-! ### O20: who writes the clock, RAM and HIST -/

/-- Of the state, the parts that commands reach by no update of tasks, channels, cells, queue or alarm. -/
theorem store_keptByAgents (n : Nat) (P : BitVec 32 → BitVec 32 → Memory → List Event → Prop) :
    KeptByAgents n fun x => P x.period x.count x.mem x.hist where
  task _ _ _ h := h
  chan _ _ _ h := h
  cell s id v _ h := by
    obtain ⟨-, -, -, hmem, hhist, hperiod, hcount, -⟩ := setCell_other s id v
    rwa [hperiod, hcount, hmem, hhist]
  insert _ _ _ _ _ h := h
  shrinkQueue _ _ h := h
  alarmRegs _ _ _ h := h
  compare _ _ h := h
  fault _ _ _ h := h
  current _ _ h := h
  tickPend _ _ h := h

theorem stepNext_clock (h : StepNext s c s') (hc : c ≠ .tickHandler) :
    s'.period = s.period ∧ s'.count = s.count :=
  stepNext_keeps (store_keptByAgents _ fun p q _ _ => p = s.period ∧ q = s.count)
    (fun _ _ _ h => h) (fun _ _ _ h => h) (fun e => absurd e hc) ⟨rfl, rfl⟩ h

theorem stepNext_mem (h : StepNext s c s') (he : ¬ IsEngine c) (hw : ¬ Runs s c writesRam) :
    s'.mem = s.mem :=
  stepNext_keeps (store_keptByAgents _ fun _ _ m _ => m = s.mem)
    (fun hor => absurd hor (not_or.mpr ⟨he, hw⟩)) (fun _ _ _ h => h) (fun _ _ _ _ h => h) rfl h

theorem stepNext_hist_grows (h : StepNext s c s') : ∃ es, s'.hist = s.hist ++ es :=
  stepNext_keeps (store_keptByAgents _ fun _ _ _ q => ∃ es, q = s.hist ++ es)
    (fun _ _ _ h => h)
    (fun _ _ e ⟨es, hes⟩ => ⟨es ++ [e], by simp [hes]⟩)
    (fun _ _ _ _ h => h) ⟨[], by simp⟩ h

theorem stepNext_hist (h : StepNext s c s') (he : ¬ IsEngine c) (hr : ¬ Runs s c accessesData) :
    s'.hist = s.hist :=
  stepNext_keeps (store_keptByAgents _ fun _ _ _ q => q = s.hist)
    (fun _ _ _ h => h) (fun hor => absurd hor (not_or.mpr ⟨he, hr⟩)) (fun _ _ _ _ h => h) rfl h

/-- An access records its event exactly where all its bytes are PERIPH. -/
theorem recordPeriph_hist {e : Event} (hsize : 0 < e.size)
    (h : (s.recordPeriph e).hist ≠ s.hist) : AllKind s e.addr e.size .periph := by
  unfold State.recordPeriph at h
  split at h
  · rename_i hk
    exact (accessKind_some_iff _ _ _ _ hsize).mp hk
  · exact absurd rfl h

/-- A command that changes HIST is an LD or ST of PERIPH. -/
theorem hostNext_hist {t : Nat} {i : Instr} (h : HostNext s t i s') (ha : accessesData i = true)
    (hne : s'.hist ≠ s.hist) :
    ∃ wc a, ((∃ rd, i = .ld rd wc a) ∨ ∃ rs, i = .st rs wc a) ∧
      AllKind s a.toNat (2 ^ wc.toNat) .periph := by
  cases h with
  | fault | stop | finish => exact absurd rfl hne
  | pollWait | pollRegister | pollRearm | timeRead => cases ha
  | atomic _ h =>
    cases h with
    | goto | write => exact absurd rfl hne
    | ld rd wc a v =>
      exact ⟨wc, a, .inl ⟨rd, rfl⟩, recordPeriph_hist (Nat.two_pow_pos _) hne⟩
    | st rs wc a v m =>
      exact ⟨wc, a, .inr ⟨rs, rfl⟩, recordPeriph_hist (s := s.setMem m) (Nat.two_pow_pos _) hne⟩
    | _ => cases ha

/-- HIST changes by an engine step, or a host step at an LD or ST of PERIPH. -/
theorem stepNext_hist_cases (h : StepNext s c s') (hne : s'.hist ≠ s.hist) :
    IsEngine c ∨ c = .host ∧ ∃ t wc a, s.current = some t ∧
      ((∃ rd, s.fetch t = .ok (.ld rd wc a)) ∨ ∃ rs, s.fetch t = .ok (.st rs wc a)) ∧
      AllKind s a.toNat (2 ^ wc.toNat) .periph := by
  by_contra hnot
  obtain ⟨he, hh⟩ := not_or.mp hnot
  refine hne (stepNext_hist h he ?_)
  rintro ⟨rfl, t, i, hc, hf, ha⟩
  cases h with
  | idle | fault => exact hne rfl
  | @host t' i' _ hc' _ hf' hx =>
    obtain rfl : t = t' := by simpa [hc] using hc'
    obtain rfl : i = i' := by simpa [hf] using hf'
    obtain ⟨wc, a, ⟨rd, rfl⟩ | ⟨rs, rfl⟩, hk⟩ := hostNext_hist hx ha hne
    · exact hh ⟨rfl, t, wc, a, hc, .inl ⟨rd, hf⟩, hk⟩
    · exact hh ⟨rfl, t, wc, a, hc, .inr ⟨rs, hf⟩, hk⟩

/-- The commands that can write RAM are ST and DCFG. -/
theorem writesRam_cases {i : Instr} (h : writesRam i = true) :
    (∃ rs wc a, i = .st rs wc a) ∨
      ∃ rd ch dir wc src dst count opts, i = .dcfg rd ch dir wc src dst count opts := by
  cases i with
  | st rs wc a => exact .inl ⟨rs, wc, a, rfl⟩
  | dcfg rd ch dir wc src dst count opts => exact .inr ⟨rd, ch, dir, wc, src, dst, count, opts, rfl⟩
  | _ => cases h

/-- Settles O20, by the frame of the step for the registers, and by the updates a step is made of for the rest. -/
theorem onlyNamedWriters : Obligations.OnlyNamedWriters := by
  unfold Obligations.OnlyNamedWriters
  intro s s' h
  have hx := step_stepNext h
  obtain ⟨cs, n, e⟩ := dropChoice_eq s
  rw [e] at hx
  obtain ⟨allow, hf, -, hregs⟩ := stepNext_frame hx
  have hgrows := stepNext_hist_grows hx
  have hhist := stepNext_hist_cases hx
  have hclock := stepNext_clock hx
  have hmem := stepNext_mem hx
  refine ⟨fun t ht => hf.tasks t .regs (hregs t ht), hgrows, hhist, hclock, fun heng hhost => ?_⟩
  refine hmem (fun ⟨ch, g, hc⟩ => heng ch g hc) ?_
  rintro ⟨hc, t, i, hcur, hfetch, hw⟩
  obtain ⟨hst, hdcfg⟩ := hhost hc t i hcur hfetch
  obtain ⟨rs, wc, a, hi⟩ | ⟨rd, ch, dir, wc, src, dst, count, opts, hi⟩ := writesRam_cases hw
  · exact hst rs wc a hi
  · exact hdcfg rd ch dir wc src dst count opts hi

/-! ### O38: DMA_IRQ -/

/-- DMA_IRQ is 1 exactly when some channel has DONE and INTEN set (10_state.md R46). -/
theorem dmaIrq_iff (s : State) : s.dmaIrq = true ↔
    ∃ ch, ch < s.nch ∧ (s.chan ch).done = true ∧ (s.chan ch).inten = true := by
  have h := not_congr (forall_chans_iff s fun c => ¬ c.irq = true)
  simpa [State.dmaIrq, Channel.irq] using h

/-- Only a DCFG or the shim takes a channel's share of DMA_IRQ away. -/
theorem irq_next {maxXfer n : Nat} {a : ChannelAgent} {c c' : Channel}
    (hshim : a ≠ .shim)
    (hdcfg : ∀ rd ch dir wc src dst count opts,
      a ≠ .command (.dcfg rd ch dir wc src dst count opts))
    (hn : ChannelNext maxXfer n a c c') (h : c.done = true ∧ c.inten = true) :
    c'.done = true ∧ c'.inten = true := by
  obtain ⟨hdone, hinten⟩ := h
  cases hn with
  | waker | reserve | trigger => exact ⟨hdone, hinten⟩
  | enable | rearm => exact ⟨hdone, rfl⟩
  | configure => exact absurd rfl (hdcfg _ _ _ _ _ _ _ _)
  | element =>
    unfold Channel.elementMoved
    split
    · exact ⟨rfl, hinten⟩
    · exact ⟨hdone, hinten⟩
  | serve => exact absurd rfl hshim

/-- Settles O38: the channel that raises DMA_IRQ keeps DONE and INTEN. -/
theorem irqStaysUntilServed : Obligations.IrqStaysUntilServed := by
  unfold Obligations.IrqStaysUntilServed
  refine ⟨dmaIrq_iff, fun s s' h hirq hshim hdcfg => ?_⟩
  have hx := step_stepNext h
  obtain ⟨cs, n, e⟩ := dropChoice_eq s
  rw [e] at hx
  obtain ⟨_, hf, -⟩ := stepNext_frame hx
  obtain ⟨a, hserve, hcmd, hpath⟩ := stepNext_chan hx
  have hirq' : s'.dmaIrq = true := by
    rw [dmaIrq_iff] at hirq ⊢
    obtain ⟨ch, hch, hc⟩ := hirq
    refine ⟨ch, hf.nch ▸ hch, (hpath ch).keeps (Q := fun c => c.done = true ∧ c.inten = true)
      (fun _ _ => irq_next (fun ha => hshim (hserve ha)) ?_) hc⟩
    rintro rd ch dir wc src dst count opts rfl
    obtain ⟨hhost, t, hcur, hfetch⟩ := hcmd _ rfl
    exact hdcfg hhost t rd ch dir wc src dst count opts hcur hfetch
  exact ⟨hirq', fun hfault => by simp [State.enabled, hfault, hirq']⟩

end Sys2Proof.Machine.Proofs
end

