-- ==== Sys2Proof/Proofs/Launch.lean ====
section
/-! SUPPORT. O10 and O11: the state after reset (10_state.md R70). -/

namespace Sys2Proof.Machine.Proofs

open Sys2Proof.Machine.Laws

theorem launch_tasks (l : Launch) : ∀ k ∈ (State.launch l).tasks,
    k.cp = 0 ∧ k.phase = 0 ∧ k.tstate = .init ∧ k.ready = false := by
  intro k hk
  obtain ⟨draw, -, rfl⟩ := List.mem_map.mp hk
  exact ⟨rfl, rfl, rfl, rfl⟩

theorem launch_chans (l : Launch) : ∀ c ∈ (State.launch l).chans,
    c.res = none ∧ c.cfg.valid = false ∧ c.enable = false ∧ c.inten = false ∧ c.active = false ∧
      c.done = false ∧ c.started = false ∧ c.xfer.rem = 0 ∧ c.waker = none := by
  intro c hc
  obtain ⟨draw, -, rfl⟩ := List.mem_map.mp hc
  exact ⟨rfl, rfl, rfl, rfl, rfl, rfl, rfl, rfl, rfl⟩

theorem launch_regs (l : Launch) (h : l.Clean) : ∀ k ∈ (State.launch l).tasks,
    ∀ r, (k.reg r).written = false := by
  intro k hk r
  obtain ⟨draw, hd, rfl⟩ := List.mem_map.mp hk
  exact h draw hd r

theorem launch_dmaIrq (l : Launch) : (State.launch l).dmaIrq = false := by
  refine List.any_eq_false.mpr fun c hc => ?_
  obtain ⟨-, -, -, hinten, -⟩ := launch_chans l c hc
  simp [Channel.irq, hinten]

/-- Every cell of every class is empty. -/
theorem launch_cell (l : Launch) (id : BitVec 16) (v : Option Handle)
    (h : (State.launch l).cell id = some v) : v = none := by
  have hrep : ∀ {n i : Nat}, (List.replicate n (none : Option Handle))[i]? = some v → v = none :=
    fun he => List.eq_of_mem_replicate (List.mem_of_getElem? he)
  unfold State.cell at h
  split at h
  · obtain ⟨c, hc, rfl⟩ := Option.map_eq_some_iff.mp h
    obtain ⟨-, -, -, -, -, -, -, -, hw⟩ := launch_chans l c (List.mem_of_getElem? hc)
    exact hw
  · exact hrep h
  · exact hrep h
  · exact hrep h
  · exact hrep h
  · cases h

/-- Settles O10: the fields of the launch's state as written, and the records by their reset values. -/
theorem resetValues : Obligations.ResetValues := by
  unfold Obligations.ResetValues
  refine fun l => ⟨rfl, rfl, rfl, rfl, rfl, rfl, rfl, rfl, rfl, rfl, launch_dmaIrq l, launch_tasks l,
    launch_regs l, fun c hc => ?_, launch_cell l⟩
  obtain ⟨hres, hvalid, henable, hinten, hactive, hdone, hstarted, hrem, -⟩ := launch_chans l c hc
  exact ⟨hres, hvalid, henable, hinten, hactive, hdone, hstarted, hrem⟩

theorem task_mem {s : State} {t : Nat} (h : t < s.ntasks) : s.task t ∈ s.tasks := by
  have e : s.task t = s.tasks[t]'h := by
    unfold State.task
    rw [List.getElem?_eq_getElem h]
    rfl
  exact e ▸ List.getElem_mem h

theorem launch_currentOk (l : Launch) : (State.launch l).CurrentOk := by
  refine ⟨fun t ht => (nomatch ht), fun t ht => ?_⟩
  obtain ⟨hcp, hphase, hstate, -⟩ := launch_tasks l _ (task_mem ht)
  refine ⟨⟨fun h => ?_, fun h => (nomatch h)⟩, fun _ => ⟨hcp, hphase⟩⟩
  rw [hstate] at h
  cases h

theorem launch_channelsOk (l : Launch) : (State.launch l).ChannelsOk := by
  intro c hc
  obtain ⟨-, hvalid, -, -, hactive, hdone, hstarted, hrem, -⟩ := launch_chans l c hc
  simp [ChannelOk, hvalid, hactive, hdone, hstarted, hrem]

theorem launch_handlesOk (l : Launch) : (State.launch l).HandlesOk := by
  refine ⟨fun c hc h hh => ?_, fun x hx h hh => ?_, fun e he => (nomatch he)⟩
  · obtain ⟨hres, -, -, -, -, -, -, -, hwaker⟩ := launch_chans l c hc
    rw [hwaker, hres] at hh
    simp at hh
  · have hnone : x = none := by
      simp only [State.launch, List.mem_append, List.mem_replicate] at hx
      obtain ((⟨-, e⟩ | ⟨-, e⟩) | ⟨-, e⟩) | ⟨-, e⟩ := hx <;> exact e
    rw [hnone] at hh
    cases hh

theorem launch_phaseOk (l : Launch) : (State.launch l).PhaseOk :=
  phaseOk_of_zero fun _ hu =>
    have ⟨_, hphase, _⟩ := launch_tasks l _ (task_mem hu)
    hphase

/-- Settles O11, part by part. -/
theorem launchMeetsInvariant : Obligations.LaunchMeetsInvariant := by
  unfold Obligations.LaunchMeetsInvariant
  rintro l ⟨-, hram⟩
  have hparity : (State.launch l).ParityOk :=
    (by decide : (0#32).extractLsb' 31 1 = (0#32).extractLsb' 0 1)
  have hqueue : (State.launch l).QueueOk := ⟨Nat.zero_le _, List.Pairwise.nil⟩
  exact ⟨⟨hram, hparity, launch_currentOk l, launch_channelsOk l, launch_handlesOk l, hqueue,
    launch_phaseOk l⟩, rfl, rfl⟩

end Sys2Proof.Machine.Proofs
end

