-- ==== Sys2Proof/Proofs/Checks.lean ====
section
/-! SUPPORT. O21 and O52: operands that name no cell or no task, and registers never written. -/

namespace Sys2Proof.Machine.Proofs

open Sys2Proof.Machine.Laws

/-! ### O21: cell ids and handles (10_state.md R41, 41_waker.md R141 to R143) -/

theorem cellClass_eq (id : BitVec 16) : cellClass id = id.toNat / 4096 := by
  have := id.isLt
  simp only [cellClass, BitVec.extractLsb'_toNat, Nat.shiftRight_eq_div_pow]
  omega

theorem cellInstance_eq (id : BitVec 16) : cellInstance id = id.toNat % 4096 := by
  simp only [cellInstance, BitVec.extractLsb'_toNat, Nat.shiftRight_eq_div_pow]
  omega

theorem cell_isSome_iff (s : State) (id : BitVec 16) :
    (s.cell id).isSome = true ↔
      (cellClass id = 0 ∧ cellInstance id < s.nch) ∨
      (cellClass id = 1 ∧ cellInstance id < s.i2cCells.length) ∨
      (cellClass id = 2 ∧ cellInstance id < s.rngCells.length) ∨
      (cellClass id = 3 ∧ cellInstance id < s.wdtCells.length) ∨
      (cellClass id = 4 ∧ cellInstance id < s.espiCells.length) := by
  unfold State.cell
  split
  · simp [*, State.nch]
  case h_6 =>
    simp only [Option.isSome_none, Bool.false_eq_true, false_iff]
    tauto
  all_goals simp [*]

/-- An atomic command whose body raises a fault enters it. -/
theorem atomicCommand_error {s : State} {t : Nat} {body : Nat → Except BlockFault State}
    {f : BlockFault} (h : HostReady s t) (hb : body t = .error f) :
    atomicCommand s body = hostFaults s t f := by
  obtain ⟨-, hc, -⟩ := id h
  rw [atomicCommand_eq s t body h, hb, ← takeFault_host s t f hc]
  rfl

/-- Settles O21: the validity table by classes, and the faults by the bodies of the commands. -/
theorem cellIdsAndHandlesChecked : Obligations.CellIdsAndHandlesChecked := by
  unfold Obligations.CellIdsAndHandlesChecked
  intro s id
  refine ⟨?_, fun t h => ⟨fun hcell => ⟨?_, ?_⟩, fun hhandle => ?_⟩⟩
  · rw [← cellClass_eq, ← cellInstance_eq]
    exact cell_isSome_iff s id
  · exact atomicCommand_error h (by simp only [hcell])
  · exact atomicCommand_error h (by simp only [hcell])
  · exact atomicCommand_error h (if_pos hhandle)

/-! ### O52: registers never written (10_state.md R31) -/

/-- A command that begins by reading a register never written raises F_UNINIT_REG. -/
theorem atomicCommand_uninitReg {s : State} {t : Nat} {r : RegNum}
    {body : Nat → Except BlockFault State} (h : HostReady s t) (hr : RegUnwritten s t r)
    (hb : s.readReg t r = .error (.uninitReg t r) → body t = .error (.uninitReg t r)) :
    atomicCommand s body = hostFaults s t (.uninitReg t r) :=
  atomicCommand_error h (hb (readReg_error s t r hr))

theorem bltu_uninit_rs {s : State} {t : Nat} {r : RegNum} (h : HostReady s t)
    (hr : RegUnwritten s t r) (q : RegNum) (a : Word32) :
    exec (.bltu r q a) s = hostFaults s t (.uninitReg t r) :=
  atomicCommand_uninitReg h hr fun hb => by simp only [hb]

theorem bltu_uninit_rt {s : State} {t : Nat} {r q : RegNum} {v : Word} (h : HostReady s t)
    (hr : RegUnwritten s t r) (hq : RegHolds s t q v) (a : Word32) :
    exec (.bltu q r a) s = hostFaults s t (.uninitReg t r) :=
  atomicCommand_uninitReg h hr fun hb => by simp only [readReg_ok s t q v hq, hb]

/-- Settles O52: each of these commands reads the register before anything else; BLTU reads rs, then rt. -/
theorem unwrittenRegisterFaults : Obligations.UnwrittenRegisterFaults := by
  unfold Obligations.UnwrittenRegisterFaults
  intro s t r h hr
  refine ⟨fun rd imm => ?_, fun wc a => ?_, fun imm a => ⟨?_, ?_⟩,
    fun q v a hq => ⟨bltu_uninit_rs h hr q a, bltu_uninit_rt h hr hq a⟩,
    fun q a _ => .inl (bltu_uninit_rs h hr q a), ?_, fun rd => ?_⟩
  all_goals exact atomicCommand_uninitReg h hr fun hb => by simp only [hb]

end Sys2Proof.Machine.Proofs
end

