-- ==== Sys2Proof/Proofs/MemoryForm.lean ====
section
/-! SUPPORT. O12: RAM stays in its canonical form (log 4). MemWrite keeps the form, and every write of RAM, by ST
(44_host.md R274), DCFG (42_dma.md R170) and the engine (42_dma.md R190), is one. -/

namespace Sys2Proof.Machine.Proofs

open Sys2Proof.Machine.Laws

variable {s s' : State}

/-- The updates of everything but RAM keep its form. -/
theorem memOk_keptByAgents (n : Nat) : KeptByAgents n State.MemOk :=
  store_keptByAgents n fun _ _ m _ => m.wf = true

theorem recordPeriph_memOk (h : s.MemOk) (e : Event) : (s.recordPeriph e).MemOk := by
  obtain r | r := recordPeriph_cases s e
  · rw [r]
    exact h
  · rw [r]
    exact h

/-- The fault an atomic command raises leaves RAM alone, so its form is a matter of the command's body. -/
theorem atomicCommand_memOk {body : Nat → Except BlockFault State} (hm : s.MemOk)
    (h : atomicCommand s body = .next s') (hb : ∀ t, body t = .ok s' → s'.MemOk) : s'.MemOk := by
  obtain ⟨t, -, hok | ⟨f, -, rfl⟩⟩ := atomicCommand_next _ _ _ h
  · exact hb t hok
  · exact hm

theorem execSt_memOk {rs : RegNum} {wc : BitVec 2} {a : Word32} (hm : s.MemOk)
    (h : execSt rs wc a s = .next s') : s'.MemOk := by
  refine atomicCommand_memOk hm h fun t hb => ?_
  simp only at hb
  split at hb
  · cases hb
  · split at hb
    · cases hb
    · split at hb
      · cases hb
      · rename_i s1 hw
        cases hb
        exact recordPeriph_memOk (writeValue_keeps_wf _ _ _ _ _ _ hw hm) _

theorem execDcfg_memOk {rd : RegNum} {ch : BitVec 6} {dir wc : BitVec 2}
    {src dst count opts : Word32} (hm : s.MemOk)
    (h : execDcfg rd ch dir wc src dst count opts s = .next s') : s'.MemOk := by
  refine atomicCommand_memOk hm h fun t hb => ?_
  split at hb
  · cases hb
  · split at hb
    · cases hb
    · split at hb
      · cases hb
        exact hm
      · split at hb
        · cases hb
        · split at hb
          · cases hb
          · rename_i s1 hw
            cases hb
            exact writeDescriptor_keeps_wf s s1 _ _ _ hw hm

/-- A command keeps the form: ST and DCFG write by MemWrite, the others do not write RAM. -/
theorem exec_memOk {i : Instr} (hm : s.MemOk) (h : exec i s = .next s') : s'.MemOk := by
  by_cases hw : writesRam i = true
  · obtain ⟨rs, wc, a, rfl⟩ | ⟨rd, ch, dir, wc, src, dst, count, opts, rfl⟩ := writesRam_cases hw
    · exact execSt_memOk hm h
    · exact execDcfg_memOk hm h
  · obtain ⟨t, -, ht, hx⟩ := exec_next h
    exact hostNext_keeps (memOk_keptByAgents s.ntasks) ht (fun e => absurd e hw)
      (fun _ _ _ h => h) hm hx

theorem engineStep_memOk (hm : s.MemOk) (ch : Nat) : (s.engineStep ch).MemOk := by
  obtain ⟨s1, hok, e⟩ | ⟨f, -, e⟩ := engineStep_cases s ch <;> rw [e]
  · obtain ⟨v, s2, sa, da, -, -, -, hw, rfl⟩ := engineElement_ok _ _ _ hok
    exact writeValue_keeps_wf s s2 _ _ _ _ hw hm
  · exact hm

/-- Settles O12, agent by agent: only commands and the engine write RAM. -/
theorem stepKeepsMemoryForm : Obligations.StepKeepsMemoryForm := by
  unfold Obligations.StepKeepsMemoryForm
  intro s s' hm h
  have keeps := memOk_keptByAgents s.ntasks
  have hd : s.dropChoice.MemOk := by rwa [State.MemOk, dropChoice_mem]
  obtain ⟨-, -, rfl | ⟨t, -, -, ⟨i, -, hx⟩ | ⟨f, -, rfl⟩⟩ | ⟨t, -, -, rfl⟩ | ⟨t, -, -, rfl⟩ |
    ⟨ch, g, -, -, rfl⟩ | ⟨-, -, rfl⟩ | ⟨-, rfl⟩ | ⟨-, -, rfl⟩⟩ := step_cases s s' h
  · exact hd
  · exact exec_memOk hd hx
  · exact keeps.fault _ _ _ hd
  · exact keeps.current _ _ (keeps.task _ _ _ hd)
  · exact keeps.current _ _ (keeps.task _ _ _ (keeps.task _ _ _ (keeps.task _ _ _ hd)))
  · exact engineStep_memOk hd ch
  · exact dmaShim_keeps keeps.serveChannel _ hd
  · exact keeps.tickPend _ _ hd
  · exact keeps.timers.tickHandler keeps.tickPend (fun _ _ _ h => h) _ hd

end Sys2Proof.Machine.Proofs
end

