-- ==== Sys2Proof/Proofs/DataSpace.lean ====
section
/-! SUPPORT. O51 and O56: MemRead and MemWrite byte by byte (20_memory.md R82, R83), and the stops of LD and ST (R85, R87,
44_host.md R273, R274). -/

namespace Sys2Proof.Machine.Proofs

open Sys2Proof.Machine.Laws

/-! ### O51: MemRead and MemWrite -/

/-- The weight of a byte's successor, as MemRead's recursion takes it apart. -/
theorem two_pow_byte_succ (i : Nat) : 2 ^ (8 * (i + 1)) = 2 ^ 8 * 2 ^ (8 * i) := by
  rw [Nat.mul_succ, Nat.add_comm, pow_add]

/-- The value that n bytes hold, little-endian. -/
theorem memRead_eq_sum (m : Memory) (a n : Nat) :
    memRead m a n = ∑ i ∈ Finset.range n, (m.read (a + i)).toNat * 2 ^ (8 * i) := by
  induction n generalizing a with
  | zero => rfl
  | succ n ih =>
    rw [memRead, ih, Finset.sum_range_succ', Finset.mul_sum, Nat.add_comm]
    refine congrArg₂ _ (Finset.sum_congr rfl fun i _ => ?_) (by simp)
    rw [two_pow_byte_succ, Nat.mul_left_comm, Nat.add_right_comm, Nat.add_assoc]

/-- The byte of MemWrite's value at each address it covers. -/
theorem read_memWrite_covered {m : Memory} (hw : m.wf = true) (a v : Nat) {n i : Nat} (hi : i < n) :
    ((memWrite m a n v).read (a + i)).toNat = v / 2 ^ (8 * i) % 2 ^ 8 := by
  rw [read_memWrite n m a v _ hw, if_pos (by omega), Nat.add_sub_cancel_left, BitVec.toNat_ofNat]

theorem read_memWrite_outside {m : Memory} (hw : m.wf = true) (v : Nat) {a n b : Nat}
    (hb : b < a ∨ a + n ≤ b) : (memWrite m a n v).read b = m.read b := by
  rw [read_memWrite n m a v _ hw, if_neg (by omega)]

/-- Bytes that are the base-256 digits of a value read as its residue. -/
theorem memRead_of_digits {m : Memory} {n : Nat} : ∀ {a v : Nat},
    (∀ i, i < n → (m.read (a + i)).toNat = v / 2 ^ (8 * i) % 2 ^ 8) →
      memRead m a n = v % 2 ^ (8 * n) := by
  induction n with
  | zero => exact fun _ => (Nat.mod_one _).symm
  | succ n ih =>
    intro a v h
    have hlow : (m.read a).toNat = v % 2 ^ 8 := by simpa using h 0 (by omega)
    have hrest : memRead m (a + 1) n = v / 2 ^ 8 % 2 ^ (8 * n) := ih fun i hi => by
      rw [Nat.add_assoc, Nat.add_comm 1, h (i + 1) (by omega), Nat.div_div_eq_div_mul,
        two_pow_byte_succ]
    rw [memRead, hlow, hrest, two_pow_byte_succ, Nat.mod_mul]

/-- Settles O51, by the bytes that MemWrite leaves. -/
theorem memReadLittleEndian : Obligations.MemReadLittleEndian := by
  unfold Obligations.MemReadLittleEndian
  intro m a n
  exact ⟨memRead_eq_sum m a n, fun hw v =>
    ⟨fun i => read_memWrite_covered hw a v, fun b => read_memWrite_outside hw v,
      memRead_of_digits fun i => read_memWrite_covered hw a v⟩⟩

/-! ### O56: the stops of LD and ST -/

/-- An aligned access does not run past the last address, since its width divides 2^32. -/
theorem aligned_access_in_space {addr : Word32} {wc : BitVec 2}
    (h : addr.toNat % widthBytes wc = 0) : addr.toNat + widthBytes wc ≤ Config.addrSpace := by
  have hdvd : widthBytes wc ∣ Config.addrSpace := pow_dvd_pow 2 (by omega)
  have hmod : addr.toNat ≡ Config.addrSpace [MOD widthBytes wc] :=
    h.trans (Nat.mod_eq_zero_of_dvd hdvd).symm
  exact hmod.add_le_of_lt addr.isLt

theorem accessFault_misaligned {s : State} {a n : Nat} (h : a % n ≠ 0) (kind : AccessKind) :
    s.accessFault a n kind = some (.misalignedAccess a n) :=
  if_pos h

/-- An aligned LD or ST that races with no transfer passes the checks of its address. -/
theorem accessFault_aligned {s : State} {addr : Word32} {wc : BitVec 2} {kind : AccessKind}
    (h : addr.toNat % widthBytes wc = 0)
    (hrace : s.hostRace addr.toNat (widthBytes wc) kind = none) :
    s.accessFault addr.toNat (widthBytes wc) kind = none := by
  have hspace := aligned_access_in_space h
  unfold State.accessFault
  rw [if_neg (not_not.mpr h), if_neg (Nat.not_lt.mpr hspace), hrace]

section Bus

variable {s : State} {a n : Nat}

/-- An access whose bytes are neither all RAM nor all PERIPH finds no kind that it could be made to (20_memory.md R85). -/
theorem accessKind_off_bus (hn : 0 < n) (hram : ¬ AllKind s a n .ram)
    (hperiph : ¬ AllKind s a n .periph) :
    accessKind s.params.regions a n ≠ some .ram ∧ accessKind s.params.regions a n ≠ some .periph :=
  ⟨mt (accessKind_some_iff _ _ _ _ hn).mp hram, mt (accessKind_some_iff _ _ _ _ hn).mp hperiph⟩

theorem readValue_off_bus (hn : 0 < n) (hram : ¬ AllKind s a n .ram)
    (hperiph : ¬ AllKind s a n .periph) (agent : Agent) :
    s.readValue agent a n = .error (.bus agent a n) := by
  obtain ⟨hr, hp⟩ := accessKind_off_bus hn hram hperiph
  unfold State.readValue
  split
  · exact absurd ‹_› hr
  · exact absurd ‹_› hp
  · rfl

theorem writeValue_off_bus (hn : 0 < n) (hram : ¬ AllKind s a n .ram)
    (hperiph : ¬ AllKind s a n .periph) (agent : Agent) (v : Nat) :
    s.writeValue agent a n v = .error (.bus agent a n) := by
  obtain ⟨hr, hp⟩ := accessKind_off_bus hn hram hperiph
  unfold State.writeValue
  split
  · exact absurd ‹_› hr
  · exact absurd ‹_› hp
  · rfl

end Bus

section Refusals

variable {s : State} {t : Nat} {wc : BitVec 2} {addr : Word32} {f : BlockFault}

theorem ld_accessFault (h : HostReady s t) (rd : RegNum)
    (hf : s.accessFault addr.toNat (widthBytes wc) .read = some f) :
    exec (.ld rd wc addr) s = hostFaults s t f :=
  atomicCommand_error h (by simp only [hf])

theorem st_accessFault (h : HostReady s t) {rs : RegNum} {x : Word} (hx : RegHolds s t rs x)
    (hf : s.accessFault addr.toNat (widthBytes wc) .write = some f) :
    exec (.st rs wc addr) s = hostFaults s t f :=
  atomicCommand_error h (by simp only [readReg_ok s t rs x hx, hf])

theorem ld_readValue_error (h : HostReady s t) (rd : RegNum)
    (hok : s.accessFault addr.toNat (widthBytes wc) .read = none)
    (hf : s.readValue .host addr.toNat (widthBytes wc) = .error f) :
    exec (.ld rd wc addr) s = hostFaults s t f :=
  atomicCommand_error h (by simp only [hok, hf])

theorem st_writeValue_error (h : HostReady s t) {rs : RegNum} {x : Word} (hx : RegHolds s t rs x)
    (hok : s.accessFault addr.toNat (widthBytes wc) .write = none)
    (hf : ∀ v, s.writeValue .host addr.toNat (widthBytes wc) v = .error f) :
    exec (.st rs wc addr) s = hostFaults s t f :=
  atomicCommand_error h (by simp only [readReg_ok s t rs x hx, hok, hf])

end Refusals

/-- Settles O56: the alignment check comes first, and past the checks of the address the bus refuses the access. -/
theorem loadStoreRefusals : Obligations.LoadStoreRefusals := by
  unfold Obligations.LoadStoreRefusals
  rintro s t wc addr _ _ h rfl rfl
  have hn : 0 < widthBytes wc := Nat.two_pow_pos _
  refine ⟨fun hmis => ⟨fun rd => ?_, fun rs x hx => ?_⟩,
    fun hal hram hperiph => ⟨fun hrace rd => ?_, fun hrace rs x hx => ?_⟩⟩
  · exact ld_accessFault h rd (accessFault_misaligned hmis _)
  · exact st_accessFault h hx (accessFault_misaligned hmis _)
  · exact ld_readValue_error h rd (accessFault_aligned hal hrace)
      (readValue_off_bus hn hram hperiph _)
  · exact st_writeValue_error h hx (accessFault_aligned hal hrace)
      (writeValue_off_bus hn hram hperiph _)

end Sys2Proof.Machine.Proofs
end

