-- ==== Sys2Proof/Proofs/Encoding.lean ====
section
/-! SUPPORT. O1 to O5: the decoder against the encoder, and the fetch at CP. A row of the opcode map
selects exactly the headers that its own command's words begin with, no two rows share an OP byte,
and every command has its row; the rest follows from these facts. -/

namespace Sys2Proof.Machine.Proofs

open Sys2Proof.Machine.Laws Sys2Proof.Laws

/-! ### A masked field: free, fixed, or zero above its low bits (30_encoding.md R111, R114) -/

/-- The values of a field that pass `mask` and `pattern` are those that rebuilding the field by `f`
leaves as they are. -/
def FieldExact {w : Nat} (mask pattern : BitVec w) (f : BitVec w → BitVec w) : Prop :=
  ∀ x, x &&& mask = pattern ↔ f x = x

theorem field_free {w : Nat} : FieldExact 0#w 0#w id :=
  fun _ => iff_of_true BitVec.and_zero rfl

theorem field_fixed {w : Nat} (c : BitVec w) : FieldExact (BitVec.allOnes w) c fun _ => c :=
  fun x => by rw [BitVec.and_allOnes, eq_comm]

theorem field_zero {w : Nat} : FieldExact (BitVec.allOnes w) 0#w fun _ => 0#w :=
  field_fixed 0#w

/-- The high bits of a field must be zero, its low bits are free. -/
theorem field_low {a b : Nat} :
    FieldExact (BitVec.allOnes a ++ 0#b) 0#(a + b) fun x => 0#a ++ x.extractLsb' 0 b := by
  intro x
  have hx : x = x.extractLsb' b a ++ x.extractLsb' 0 b := by
    rw [BitVec.extractLsb'_append_extractLsb'_eq_extractLsb' (by simp), BitVec.extractLsb'_eq_self]
  generalize x.extractLsb' b a = hi at hx
  generalize x.extractLsb' 0 b = lo at hx
  simp only [hx, BitVec.extractLsb'_append_eq_right, BitVec.and_append, BitVec.and_allOnes,
    BitVec.and_zero, ← BitVec.zero_append_zero, BitVec.append_left_inj]
  exact eq_comm

/-! ### The sub-fields of IMM16 (R114) -/

theorem drdSel_append_ch (imm : BitVec 16) : immDrdSel imm ++ immCh imm = imm.extractLsb' 0 10 :=
  BitVec.extractLsb'_append_extractLsb'_eq_extractLsb' rfl

/-- WC and DIR of DCFG are the two halves of the bits that are SEL of DRD. -/
theorem cfgWc_append_dir (imm : BitVec 16) : immCfgWc imm ++ immDir imm = immDrdSel imm :=
  BitVec.extractLsb'_append_extractLsb'_eq_extractLsb' rfl

theorem field_ch : FieldExact 0xFFC0#16 0#16 fun x => 0#10 ++ immCh x :=
  field_low (a := 10) (b := 6)

theorem field_trdSel : FieldExact 0xFFF0#16 0#16 fun x => 0#12 ++ immTrdSel x :=
  field_low (a := 12) (b := 4)

theorem field_memWc : FieldExact 0xFFFC#16 0#16 fun x => 0#14 ++ immMemWc x :=
  field_low (a := 14) (b := 2)

theorem field_drd : FieldExact 0xFC00#16 0#16 fun x => 0#6 ++ immDrdSel x ++ immCh x := by
  intro x
  have hassoc : 0#6 ++ immDrdSel x ++ immCh x = 0#6 ++ (immDrdSel x ++ immCh x) :=
    BitVec.append_assoc
  beta_reduce
  rw [hassoc, drdSel_append_ch]
  exact field_low (a := 6) (b := 10) x

theorem field_cfg :
    FieldExact 0xFC00#16 0#16 fun x => 0#6 ++ immCfgWc x ++ immDir x ++ immCh x := by
  intro x
  have hassoc : 0#6 ++ immCfgWc x ++ immDir x = 0#6 ++ (immCfgWc x ++ immDir x) :=
    BitVec.append_assoc
  beta_reduce
  rw [hassoc, cfgWc_append_dir]
  exact field_drd x

section SubFields

variable (wc dir : BitVec 2) (ch : BitVec 6) (sel : BitVec 4)

@[simp] theorem immCh_append (x : BitVec 10) : immCh (x ++ ch) = ch :=
  BitVec.extractLsb'_append_eq_right

@[simp] theorem immDrdSel_append (x : BitVec 6) : immDrdSel (x ++ sel ++ ch) = sel :=
  (BitVec.extractLsb'_append_eq_of_le (by decide)).trans BitVec.extractLsb'_append_eq_right

@[simp] theorem immDir_append (x : BitVec 8) : immDir (x ++ dir ++ ch) = dir :=
  (BitVec.extractLsb'_append_eq_of_le (by decide)).trans BitVec.extractLsb'_append_eq_right

@[simp] theorem immCfgWc_append (x : BitVec 6) : immCfgWc (x ++ wc ++ dir ++ ch) = wc :=
  (BitVec.extractLsb'_append_eq_of_le (by decide)).trans <|
    (BitVec.extractLsb'_append_eq_of_le (by decide)).trans BitVec.extractLsb'_append_eq_right

@[simp] theorem immTrdSel_append (x : BitVec 12) : immTrdSel (x ++ sel) = sel :=
  BitVec.extractLsb'_append_eq_right

@[simp] theorem immMemWc_append (x : BitVec 14) : immMemWc (x ++ wc) = wc :=
  BitVec.extractLsb'_append_eq_right

end SubFields

/-! ### Operand words (R113) -/

@[simp] theorem liImm_halves (imm : Word) :
    liImm (imm.extractLsb' 0 32) (imm.extractLsb' 32 32) = imm :=
  (BitVec.extractLsb'_append_extractLsb'_eq_extractLsb' rfl).trans BitVec.extractLsb'_eq_self

@[simp] theorem liImm_low (lo hi : Word32) : (liImm lo hi).extractLsb' 0 32 = lo :=
  BitVec.extractLsb'_append_eq_right

@[simp] theorem liImm_high (lo hi : Word32) : (liImm lo hi).extractLsb' 32 32 = hi :=
  BitVec.extractLsb'_append_eq_left

@[simp] theorem operandWord_cons_zero (w : Word32) (ws : List Word32) :
    operandWord (w :: ws) 0 = w := rfl

@[simp] theorem operandWord_cons_succ (w : Word32) (ws : List Word32) (i : Nat) :
    operandWord (w :: ws) (i + 1) = operandWord ws i := rfl

/-- The first `k` operand words as a command reads them. -/
def operandWords (ws : List Word32) (k : Nat) : List Word32 := (List.range k).map (operandWord ws)

theorem operandWords_eq_take {ws : List Word32} {k : Nat} (hk : k ≤ ws.length) :
    operandWords ws k = ws.take k := by
  refine List.ext_getElem (by simp [operandWords, hk]) fun i _ hi => ?_
  have hlt : i < ws.length := by
    rw [List.length_take] at hi
    omega
  simp [operandWords, operandWord, hlt]

/-! ### A row selects exactly the headers of its own command (R116, R117) -/

/-- OP, header bits 31:24. -/
def headerOp (h : Word32) : BitVec 8 := h.extractLsb' 24 8

theorem header_eq_iff (op : BitVec 8) (rd rs : RegNum) (imm : BitVec 16) (h : Word32) :
    header op rd rs imm = h ↔
      op = headerOp h ∧ rd = headerRd h ∧ rs = headerRs h ∧ imm = headerImm h := by
  conv_lhs => rw [← header_fields h, header_inj]
  rfl

theorem selects_iff_fields (r : OpcodeRow) (h : Word32) :
    r.selects h = true ↔
      headerOp h &&& headerOp r.mask = headerOp r.pattern ∧
      headerRd h &&& headerRd r.mask = headerRd r.pattern ∧
      headerRs h &&& headerRs r.mask = headerRs r.pattern ∧
      headerImm h &&& headerImm r.mask = headerImm r.pattern := by
  conv_lhs => rw [← header_fields h, selects_header]
  simp only [headerOp, Bool.and_eq_true, decide_eq_true_eq, and_assoc]

/-- A row selects a header exactly when the words of the command it builds are that header and its
operand words. -/
def RowExact (r : OpcodeRow) : Prop :=
  ∀ h ws, r.selects h = true ↔ encode (r.build h ws) = h :: operandWords ws r.operandWords

/-- A row is exact when each of its four fields is, and its command is encoded field by field. -/
theorem RowExact.of_fields {r : OpcodeRow} {op : BitVec 8 → BitVec 8} {rd rs : RegNum → RegNum}
    {imm : BitVec 16 → BitVec 16}
    (hop : FieldExact (headerOp r.mask) (headerOp r.pattern) op)
    (hrd : FieldExact (headerRd r.mask) (headerRd r.pattern) rd)
    (hrs : FieldExact (headerRs r.mask) (headerRs r.pattern) rs)
    (himm : FieldExact (headerImm r.mask) (headerImm r.pattern) imm)
    (hencode : ∀ h ws, encode (r.build h ws) =
      header (op (headerOp h)) (rd (headerRd h)) (rs (headerRs h)) (imm (headerImm h)) ::
        operandWords ws r.operandWords) : RowExact r := by
  intro h ws
  rw [hencode, List.cons_eq_cons, and_iff_left rfl, header_eq_iff, selects_iff_fields,
    hop, hrd, hrs, himm]

theorem wakerRows_exact : ∀ r ∈ wakerRows, RowExact r := by
  simp only [wakerRows, List.forall_mem_cons]
  refine ⟨?wreg, ?wake, ?signal, by simp⟩
  case wreg => exact .of_fields (field_fixed 0x01) field_zero field_zero field_free fun _ _ => rfl
  case wake => exact .of_fields (field_fixed 0x02) field_zero field_zero field_free fun _ _ => rfl
  case signal => exact .of_fields (field_fixed 0x03) field_zero field_zero field_free fun _ _ => rfl

theorem dmaRows_exact : ∀ r ∈ dmaRows, RowExact r := by
  simp only [dmaRows, List.forall_mem_cons]
  refine ⟨?dres, ?dcfg, ?den, ?dtrg, ?dpoll, ?drd, by simp⟩
  case dres => exact .of_fields (field_fixed 0x10) field_zero field_zero field_ch fun _ _ => rfl
  case dcfg => exact .of_fields (field_fixed 0x11) field_free field_zero field_cfg fun _ _ => rfl
  case den => exact .of_fields (field_fixed 0x12) field_zero field_zero field_ch fun _ _ => rfl
  case dtrg => exact .of_fields (field_fixed 0x13) field_zero field_zero field_ch fun _ _ => rfl
  case dpoll => exact .of_fields (field_fixed 0x14) field_free field_zero field_ch fun _ _ => rfl
  case drd => exact .of_fields (field_fixed 0x15) field_free field_zero field_drd fun _ _ => rfl

theorem timeRows_exact : ∀ r ∈ timeRows, RowExact r := by
  simp only [timeRows, List.forall_mem_cons]
  refine ⟨?tnow, ?tsched, ?talarm, ?trd, by simp⟩
  case tnow => exact .of_fields (field_fixed 0x20) field_free field_zero field_zero fun _ _ => rfl
  case tsched => exact .of_fields (field_fixed 0x21) field_zero field_free field_zero fun _ _ => rfl
  case talarm => exact .of_fields (field_fixed 0x22) field_free field_free field_zero fun _ _ => rfl
  case trd => exact .of_fields (field_fixed 0x23) field_free field_zero field_trdSel fun _ _ => rfl

theorem hostRows_exact : ∀ r ∈ hostRows, RowExact r := by
  simp only [hostRows, List.forall_mem_cons]
  refine ⟨?li, ?addi, ?ld, ?st, ?beq, ?bne, ?jmp, ?yield, ?halt, ?bltu, by simp⟩
  case li =>
    refine .of_fields (field_fixed 0x30) field_free field_zero field_zero fun h ws => ?_
    simp [encode, operandWords, List.range_succ]
  case addi => exact .of_fields (field_fixed 0x31) field_free field_free field_free fun _ _ => rfl
  case ld => exact .of_fields (field_fixed 0x32) field_free field_zero field_memWc fun _ _ => rfl
  case st => exact .of_fields (field_fixed 0x33) field_zero field_free field_memWc fun _ _ => rfl
  case beq => exact .of_fields (field_fixed 0x34) field_zero field_free field_free fun _ _ => rfl
  case bne => exact .of_fields (field_fixed 0x35) field_zero field_free field_free fun _ _ => rfl
  case jmp => exact .of_fields (field_fixed 0x36) field_zero field_zero field_zero fun _ _ => rfl
  case yield => exact .of_fields (field_fixed 0x37) field_zero field_zero field_zero fun _ _ => rfl
  case halt => exact .of_fields (field_fixed 0x38) field_zero field_zero field_zero fun _ _ => rfl
  case bltu => exact .of_fields (field_fixed 0x39) field_free field_free field_zero fun _ _ => rfl

theorem opcodeMap_exact {r : OpcodeRow} (hr : r ∈ opcodeMap) : RowExact r := by
  simp only [opcodeMap, List.mem_append, or_assoc] at hr
  obtain hr | hr | hr | hr := hr
  · exact wakerRows_exact r hr
  · exact dmaRows_exact r hr
  · exact timeRows_exact r hr
  · exact hostRows_exact r hr

/-! ### No header selects two rows (R117) -/

/-- The OP bytes of the opcode map (R116). -/
def opcodeBytes : List (BitVec 8) :=
  [0x01, 0x02, 0x03, 0x10, 0x11, 0x12, 0x13, 0x14, 0x15, 0x20, 0x21, 0x22,
    0x23, 0x30, 0x31, 0x32, 0x33, 0x34, 0x35, 0x36, 0x37, 0x38, 0x39]

theorem opcodeMap_map_op : (opcodeMap.map fun r => headerOp r.pattern) = opcodeBytes := by decide

theorem opcodeBytes_nodup : opcodeBytes.Nodup := by decide

/-- Every row checks the whole OP byte. -/
theorem headerOp_mask : ∀ r ∈ opcodeMap, headerOp r.mask = BitVec.allOnes 8 := by decide

section Rows

variable {r q : OpcodeRow} {h : Word32}

theorem headerOp_of_selects (hr : r ∈ opcodeMap) (hs : r.selects h = true) :
    headerOp h = headerOp r.pattern := by
  obtain ⟨hop, -⟩ := (selects_iff_fields r h).1 hs
  rwa [headerOp_mask r hr, BitVec.and_allOnes] at hop

theorem row_unique (hr : r ∈ opcodeMap) (hq : q ∈ opcodeMap) (hrs : r.selects h = true)
    (hqs : q.selects h = true) : r = q :=
  List.inj_on_of_nodup_map (opcodeMap_map_op ▸ opcodeBytes_nodup) hr hq <|
    (headerOp_of_selects hr hrs).symm.trans (headerOp_of_selects hq hqs)

theorem find?_selects (hr : r ∈ opcodeMap) (hs : r.selects h = true) :
    opcodeMap.find? (fun q => q.selects h) = some r := by
  cases hq : opcodeMap.find? fun q => q.selects h with
  | none => exact absurd hs (List.find?_eq_none.1 hq r hr)
  | some q =>
    have hqs : q.selects h = true := List.find?_some (p := (OpcodeRow.selects · h)) hq
    rw [row_unique hr (List.mem_of_find?_eq_some hq) hs hqs]

/-! ### The decoder, case by case (R117, R118) -/

theorem decode_of_selects (hr : r ∈ opcodeMap) (hs : r.selects h = true) (ws : List Word32) :
    decode (h :: ws) = if ws.length < r.operandWords then .error .endOfStream
      else .ok (r.build h ws, ws.drop r.operandWords) := by
  simp only [decode, find?_selects hr hs]

theorem decode_of_no_row (hn : ∀ r ∈ opcodeMap, ¬ r.selects h = true) (ws : List Word32) :
    decode (h :: ws) = .error (.illegalHeader h) := by
  simp only [decode, List.find?_eq_none.2 hn]

theorem decode_ok_cases {ws rest : List Word32} {i : Instr} (hd : decode ws = .ok (i, rest)) :
    ∃ h tail, ∃ r ∈ opcodeMap, ws = h :: tail ∧ r.selects h = true ∧
      r.operandWords ≤ tail.length ∧ i = r.build h tail ∧ rest = tail.drop r.operandWords := by
  cases ws with
  | nil => cases hd
  | cons h tail =>
    by_cases hrow : ∃ r ∈ opcodeMap, r.selects h = true
    · obtain ⟨r, hr, hs⟩ := hrow
      rw [decode_of_selects hr hs] at hd
      split at hd
      · cases hd
      · cases hd
        exact ⟨h, tail, r, hr, rfl, hs, by omega, rfl, rfl⟩
    · rw [decode_of_no_row fun r hr hs => hrow ⟨r, hr, hs⟩] at hd
      cases hd

end Rows

/-- Settles O2: the row that decodes a list is exact, so its command's words are the header and the
operand words. -/
theorem encodeOfDecode : Obligations.EncodeOfDecode := by
  unfold Obligations.EncodeOfDecode
  intro ws rest i hd
  obtain ⟨h, tail, r, hr, rfl, hs, hlen, rfl, rfl⟩ := decode_ok_cases hd
  rw [(opcodeMap_exact hr h tail).1 hs, operandWords_eq_take hlen, List.cons_append,
    List.take_append_drop]

/-! ### The row of a command -/

/-- Row `r` of the opcode map stands for command `i`, whose words are the header `h` and
the operand words `ops`. -/
structure EncodedBy (i : Instr) (r : OpcodeRow) (h : Word32) (ops : List Word32) : Prop where
  mem : r ∈ opcodeMap
  encode_eq : encode i = h :: ops
  length_eq : ops.length = r.operandWords
  build_append : ∀ rest, r.build h (ops ++ rest) = i

section EncodedBy

variable {i : Instr} {r : OpcodeRow} {h : Word32} {ops : List Word32}

theorem exists_encodedBy_of_row (n : Nat) (hr : opcodeMap[n]? = some r) (he : encode i = h :: ops)
    (hl : ops.length = r.operandWords) (hb : ∀ rest, r.build h (ops ++ rest) = i) :
    ∃ r h ops, EncodedBy i r h ops :=
  ⟨r, h, ops, List.mem_of_getElem? hr, he, hl, hb⟩

theorem EncodedBy.selects (e : EncodedBy i r h ops) : r.selects h = true := by
  have hbuild : r.build h ops = i := by simpa using e.build_append []
  rw [opcodeMap_exact e.mem h ops, hbuild, e.encode_eq, ← e.length_eq, operandWords_eq_take le_rfl,
    List.take_length]

theorem EncodedBy.commandLength_eq (e : EncodedBy i r h ops) :
    commandLength i = r.operandWords + 1 := by
  rw [commandLength, e.encode_eq, List.length_cons, e.length_eq]

end EncodedBy

/-- Each command has its row, which reads every operand back from the command's words. -/
theorem exists_encodedBy (i : Instr) : ∃ r h ops, EncodedBy i r h ops := by
  cases i with
  | wreg => exact exists_encodedBy_of_row 0 rfl rfl rfl (by simp)
  | wake => exact exists_encodedBy_of_row 1 rfl rfl rfl (by simp)
  | signal => exact exists_encodedBy_of_row 2 rfl rfl rfl (by simp)
  | dres => exact exists_encodedBy_of_row 3 rfl rfl rfl (by simp)
  | dcfg => exact exists_encodedBy_of_row 4 rfl rfl rfl (by simp)
  | den => exact exists_encodedBy_of_row 5 rfl rfl rfl (by simp)
  | dtrg => exact exists_encodedBy_of_row 6 rfl rfl rfl (by simp)
  | dpoll => exact exists_encodedBy_of_row 7 rfl rfl rfl (by simp)
  | drd => exact exists_encodedBy_of_row 8 rfl rfl rfl (by simp)
  | tnow => exact exists_encodedBy_of_row 9 rfl rfl rfl (by simp)
  | tsched => exact exists_encodedBy_of_row 10 rfl rfl rfl (by simp)
  | talarm => exact exists_encodedBy_of_row 11 rfl rfl rfl (by simp)
  | trd => exact exists_encodedBy_of_row 12 rfl rfl rfl (by simp)
  | li => exact exists_encodedBy_of_row 13 rfl rfl rfl (by simp)
  | addi => exact exists_encodedBy_of_row 14 rfl rfl rfl (by simp)
  | ld => exact exists_encodedBy_of_row 15 rfl rfl rfl (by simp)
  | st => exact exists_encodedBy_of_row 16 rfl rfl rfl (by simp)
  | beq => exact exists_encodedBy_of_row 17 rfl rfl rfl (by simp)
  | bne => exact exists_encodedBy_of_row 18 rfl rfl rfl (by simp)
  | jmp => exact exists_encodedBy_of_row 19 rfl rfl rfl (by simp)
  | yield => exact exists_encodedBy_of_row 20 rfl rfl rfl (by simp)
  | halt => exact exists_encodedBy_of_row 21 rfl rfl rfl (by simp)
  | bltu => exact exists_encodedBy_of_row 22 rfl rfl rfl (by simp)

/-- Settles O1: the command's own row is the one its header selects, and it reads the operands
back. -/
theorem decodeOfEncode : Obligations.DecodeOfEncode := by
  unfold Obligations.DecodeOfEncode
  intro i rest
  obtain ⟨r, h, ops, e⟩ := exists_encodedBy i
  have hlen : ¬ (ops ++ rest).length < r.operandWords := by simp [e.length_eq]
  rw [e.encode_eq, List.cons_append, decode_of_selects e.mem e.selects, if_neg hlen,
    e.build_append, ← e.length_eq, List.drop_left]

/-! ### Headers that begin a command, and those that begin none (R117, R118) -/

theorem exists_encodedBy_of_head {i : Instr} {h : Word32} (hi : (encode i).head? = some h) :
    ∃ r ops, EncodedBy i r h ops := by
  obtain ⟨r, h', ops, e⟩ := exists_encodedBy i
  rw [e.encode_eq, List.head?_cons, Option.some_inj] at hi
  exact ⟨r, ops, hi ▸ e⟩

theorem headerOp_mem_of_head {i : Instr} {h : Word32} (hi : (encode i).head? = some h) :
    headerOp h ∈ opcodeBytes := by
  obtain ⟨r, ops, e⟩ := exists_encodedBy_of_head hi
  rw [headerOp_of_selects e.mem e.selects, ← opcodeMap_map_op]
  exact List.mem_map_of_mem e.mem

theorem decode_of_no_command {h : Word32} (hn : ∀ i : Instr, (encode i).head? ≠ some h)
    (ws : List Word32) : decode (h :: ws) = .error (.illegalHeader h) := by
  refine decode_of_no_row (fun r hr hs => ?_) ws
  have hw : encode (r.build h []) = h :: operandWords [] r.operandWords :=
    (opcodeMap_exact hr h []).1 hs
  exact hn (r.build h []) (by rw [hw, List.head?_cons])

/-- A command whose operand words run past the end of the list (R117). -/
theorem decode_cut {i : Instr} {h : Word32} {ws : List Word32} (hi : (encode i).head? = some h)
    (hlen : ws.length + 1 < commandLength i) : decode (h :: ws) = .error .endOfStream := by
  obtain ⟨r, ops, e⟩ := exists_encodedBy_of_head hi
  rw [e.commandLength_eq] at hlen
  rw [decode_of_selects e.mem e.selects, if_pos (by omega)]

/-- Settles O4: the OP bytes of the rows differ, every command's OP byte is one of them, and a row
that selects a header builds a command whose words begin with it. -/
theorem illegalHeadersRefused : Obligations.IllegalHeadersRefused := by
  unfold Obligations.IllegalHeadersRefused
  refine ⟨?disjoint, fun h hop i hi => hop (headerOp_mem_of_head hi),
    fun h ws hn => decode_of_no_command hn ws⟩
  case disjoint =>
    have hnodup : opcodeMap.Nodup := .of_map _ (opcodeMap_map_op ▸ opcodeBytes_nodup)
    exact hnodup.imp_of_mem fun hr hq hne h ⟨hrs, hqs⟩ => hne (row_unique hr hq hrs hqs)

/-! ### The fetch at CP (R117) -/

section Fetch

variable {s : State} {t : Nat}

theorem wordsAtCp_cons {h : Word32} (hcp : (s.task t).prog[(s.task t).cp]? = some h) :
    s.wordsAtCp t = h :: (s.task t).prog.drop ((s.task t).cp + 1) := by
  rw [State.wordsAtCp, List.drop_eq_getElem?_toList_append, hcp]
  rfl

theorem fetch_of_decode_ok {i : Instr} {rest : List Word32}
    (hd : decode (s.wordsAtCp t) = .ok (i, rest)) : s.fetch t = .ok i := by
  simp only [State.fetch, hd]

theorem fetch_of_decode_illegal {h : Word32}
    (hd : decode (s.wordsAtCp t) = .error (.illegalHeader h)) :
    s.fetch t = .error (.illegalCmd t (s.task t).cp h) := by
  simp only [State.fetch, hd]

theorem fetch_of_decode_end (hd : decode (s.wordsAtCp t) = .error .endOfStream) :
    s.fetch t = .error (.cpRange t (s.task t).cp) := by
  simp only [State.fetch, hd]

end Fetch

/-- Settles O5: each case of the fetch is the decoder's answer on the words from CP on. -/
theorem fetchAtCp : Obligations.FetchAtCp := by
  unfold Obligations.FetchAtCp
  intro s t
  refine ⟨fun hend => ?past_end, fun h hcp hn => ?illegal, fun h i hcp hi hcut => ?cut,
    fun i hpre => ?command⟩
  case past_end =>
    refine fetch_of_decode_end ?_
    rw [State.wordsAtCp, List.drop_eq_nil_of_le hend]
    rfl
  case illegal =>
    refine fetch_of_decode_illegal ?_
    rw [wordsAtCp_cons hcp, decode_of_no_command hn]
  case cut =>
    refine fetch_of_decode_end ?_
    have hlt := (List.getElem?_eq_some_iff.1 hcp).1
    rw [wordsAtCp_cons hcp]
    exact decode_cut hi (by rw [List.length_drop]; omega)
  case command =>
    obtain ⟨rest, hwords⟩ := hpre
    refine fetch_of_decode_ok (rest := rest) ?_
    rw [State.wordsAtCp, ← hwords, decodeOfEncode i rest]

/-! ### Words written out in the spec (95_test_vectors.md) -/

theorem decode_of_encode_eq {i : Instr} {ws : List Word32} (he : encode i = ws) :
    decode ws = .ok (i, []) := by
  simpa [he] using decodeOfEncode i []

/-- Settles O3: the words are those that the commands encode to. -/
theorem sampleWordsDecode : Obligations.SampleWordsDecode := by
  unfold Obligations.SampleWordsDecode
  refine ⟨?wreg, ?dcfg, ?drd, ?talarm, ?li, ?bltu⟩
  case wreg => exact decode_of_encode_eq (by decide)
  case dcfg => exact decode_of_encode_eq (by decide)
  case drd => exact decode_of_encode_eq (by decide)
  case talarm => exact decode_of_encode_eq (by decide)
  case li => exact decode_of_encode_eq (by decide)
  case bltu => exact decode_of_encode_eq (by decide)

end Sys2Proof.Machine.Proofs
end

/-! SUPPORT. O22 to O24: what WREG, WAKE and SIGNAL complete with (41_waker.md R140 to R143). A cell write and
WAKE_CELL each have one rule for the parts of the state, the cells, the channels and READY; moving CP on keeps
all of these. -/

namespace Sys2Proof.Machine.Proofs

open Sys2Proof.Machine.Laws

variable {s x : State} {t u : Nat}

/-! ### Completion -/

/-- An atomic command whose body leaves a state completes with it. -/
theorem atomicCommand_ok {s' : State} {body : Nat → Except BlockFault State} (h : HostReady s t)
    (hb : body t = .ok s') : atomicCommand s body = .next s' := by
  rw [atomicCommand_eq s t body h, hb]
  rfl

theorem exec_wreg_eq {id : BitVec 16} (h : HostReady s t) (hc : s.cell id ≠ none) :
    exec (.wreg id) s = .next ((s.setCell id (some t)).advance t 1) := by
  obtain ⟨old, hold⟩ := Option.ne_none_iff_exists'.1 hc
  exact atomicCommand_ok h (by simp only [hold])

theorem exec_wake_eq {id : BitVec 16} {old : Option Handle} (h : HostReady s t)
    (hc : s.cell id = some old) : exec (.wake id) s = .next ((s.wakeCell id).advance t 1) :=
  atomicCommand_ok h (by simp only [hc])

theorem exec_signal_eq {hd : BitVec 16} (h : HostReady s t) (hn : hd.toNat < s.ntasks) :
    exec (.signal hd) s = .next ((s.ready hd.toNat).advance t 1) :=
  atomicCommand_ok h (if_neg (Nat.not_le.2 hn))

/-! ### The parts of the state -/

theorem sameExcept_refl (ps : List Part) (s : State) : SameExcept ps s s := by
  intro p _
  cases p <;> simp [Part.same]

theorem sameExcept_updTask {ps : List Part} (h : SameExcept ps s x) (ht : .tasks ∈ ps) (t : Nat)
    (f : Task → Task) : SameExcept ps s (x.updTask t f) := by
  intro p hp
  cases p with
  | tasks => exact absurd ht hp
  | _ => exact h _ hp

theorem sameExcept_setCell {ps : List Part} (h : SameExcept ps s x) (hch : .chans ∈ ps)
    (hce : .cells ∈ ps) (id : BitVec 16) (v : Option Handle) :
    SameExcept ps s (x.setCell id v) := by
  intro p hp
  have hx := h p hp
  unfold State.setCell
  cases p with
  | chans => exact absurd hch hp
  | cells => exact absurd hce hp
  | _ => split <;> exact hx

theorem sameExcept_wakeCell {ps : List Part} (h : SameExcept ps s x) (ht : .tasks ∈ ps)
    (hch : .chans ∈ ps) (hce : .cells ∈ ps) (id : BitVec 16) :
    SameExcept ps s (x.wakeCell id) := by
  obtain ⟨hd, -, e⟩ | ⟨-, e⟩ := wakeCell_cases x id <;> rw [e]
  · exact sameExcept_updTask (sameExcept_setCell h hch hce id none) ht hd _
  · exact h

/-! ### Cells -/

theorem setCell_cell_self {id : BitVec 16} (h : s.cell id ≠ none) (v : Option Handle) :
    (s.setCell id v).cell id = some v := by
  obtain ⟨old, hold⟩ := Option.ne_none_iff_exists'.1 h
  rw [setCell_cell, if_pos rfl, hold]
  rfl

theorem setCell_cell_ne {i j : BitVec 16} (h : j ≠ i) (v : Option Handle) :
    (s.setCell i v).cell j = s.cell j := by
  rw [setCell_cell, if_neg h]

theorem wakeCell_cell_self {id : BitVec 16} (h : s.cell id ≠ none) :
    (s.wakeCell id).cell id = some none := by
  obtain ⟨hd, -, e⟩ | ⟨hheld, e⟩ := wakeCell_cases s id <;> rw [e]
  · exact setCell_cell_self h none
  · obtain ⟨old, hold⟩ := Option.ne_none_iff_exists'.1 h
    cases old with
    | none => exact hold
    | some hd => exact absurd hold (hheld hd)

theorem wakeCell_cell_ne {i j : BitVec 16} (h : j ≠ i) : (s.wakeCell i).cell j = s.cell j := by
  obtain ⟨hd, -, e⟩ | ⟨-, e⟩ := wakeCell_cases s i <;> rw [e]
  exact setCell_cell_ne h none

/-! ### Channels -/

theorem channelSame_setCell (s : State) (id : BitVec 16) (v : Option Handle) (c : Nat) :
    ChannelSameExcept [.waker] (s.chan c) ((s.setCell id v).chan c) := by
  intro p hp
  rw [setCell_chan]
  cases p with
  | waker => exact absurd (List.mem_singleton.2 rfl) hp
  | _ => split <;> rfl

theorem channelSame_wakeCell (s : State) (id : BitVec 16) (c : Nat) :
    ChannelSameExcept [.waker] (s.chan c) ((s.wakeCell id).chan c) := by
  obtain ⟨hd, -, e⟩ | ⟨-, e⟩ := wakeCell_cases s id <;> rw [e]
  · exact channelSame_setCell s id none c
  · exact fun p _ => by cases p <;> rfl

/-! ### Counts -/

theorem setCell_counts (s : State) (id : BitVec 16) (v : Option Handle) :
    (s.setCell id v).counts = s.counts :=
  ((Frame.refl readyOnly s).setCell id v).counts

theorem setCell_ntasks (s : State) (id : BitVec 16) (v : Option Handle) :
    (s.setCell id v).ntasks = s.ntasks :=
  congrArg Counts.ntasks (setCell_counts s id v)

theorem frame_advance (s : State) (t n : Nat) : Frame (fun _ => [.cp]) s (s.advance t n) :=
  (Frame.refl _ s).advance (by simp) n

theorem advance_counts (s : State) (t n : Nat) : (s.advance t n).counts = s.counts :=
  (frame_advance s t n).counts

/-! ### Tasks -/

theorem setCell_task (s : State) (id : BitVec 16) (v : Option Handle) (u : Nat) :
    (s.setCell id v).task u = s.task u := by
  obtain ⟨-, htasks, -⟩ := setCell_other s id v
  exact task_congr u htasks

theorem ready_task_ready_iff (hu : u < s.ntasks) (hd : Handle) :
    ((s.ready hd).task u).ready = true ↔ (s.task u).ready = true ∨ u = hd := by
  unfold State.ready State.setReady
  by_cases h : u = hd
  · subst h
    simp [task_updTask_self s u _ hu]
  · simp [task_updTask_ne s hd u _ h, h]

/-- WAKE_CELL readies the task the cell held, if any (41_waker.md R142). -/
theorem wakeCell_task_ready_iff {id : BitVec 16} {old : Option Handle} (hu : u < s.ntasks)
    (hc : s.cell id = some old) :
    ((s.wakeCell id).task u).ready = true ↔ (s.task u).ready = true ∨ old = some u := by
  cases old with
  | none => simp [State.wakeCell, hc]
  | some hd =>
    have hn : u < (s.setCell id none).ntasks := (setCell_ntasks s id none).symm ▸ hu
    have hw : s.wakeCell id = (s.setCell id none).ready hd := by simp only [State.wakeCell, hc]
    rw [hw, ready_task_ready_iff hn, setCell_task, Option.some_inj, eq_comm (a := hd)]

theorem advance_task_ready (s : State) (t u n : Nat) :
    ((s.advance t n).task u).ready = (s.task u).ready :=
  (frame_advance s t n).tasks u .ready (by simp)

theorem advance_task_cp (ht : t < s.ntasks) (u n : Nat) :
    ((s.advance t n).task u).cp = if u = t then (s.task u).cp + n else (s.task u).cp := by
  by_cases h : u = t
  · subst h
    rw [advance_task_self s u n ht, if_pos rfl]
  · rw [advance_task_ne s t u n h, if_neg h]

/-- A command that readies tasks, whichever they are, and then moves CP of its own task on. -/
theorem readied_advance (hf : Frame readyOnly s x) (ht : t < s.ntasks) (u n : Nat) :
    TaskSameExcept [.cp, .ready] (s.task u) ((x.advance t n).task u) ∧
      ((x.advance t n).task u).cp = (if u = t then (s.task u).cp + n else (s.task u).cp) ∧
      ((x.advance t n).task u).ready = (x.task u).ready := by
  have hcp : (x.task u).cp = (s.task u).cp := hf.tasks u .cp (by simp [readyOnly])
  have hx : Frame (fun _ => [.cp, .ready]) s x :=
    ⟨hf.params, hf.counts, fun v p hp => hf.tasks v p (fun hr => hp (List.mem_cons_of_mem _ hr))⟩
  refine ⟨(hx.advance (by simp) n).tasks u, ?_, advance_task_ready x t u n⟩
  rw [advance_task_cp (hf.ntasks ▸ ht), hcp]

/-! ### The three commands -/

/-- Settles O22, by the rules of a cell write. -/
theorem wregStoresTask : Obligations.WregStoresTask := by
  unfold Obligations.WregStoresTask
  intro s t id h hc
  have ⟨_, _, ht, _⟩ := h
  obtain ⟨-, htasks, -⟩ := setCell_other s id (some t)
  refine ⟨_, exec_wreg_eq h hc, ?parts, ?written, fun j hj => ?others, ?counts, fun c => ?chans,
    onlyCp_advance _ s t 1 ht htasks⟩
  case parts =>
    exact sameExcept_updTask (sameExcept_setCell (sameExcept_refl _ s) (by simp) (by simp) id _)
      (by simp) t _
  case written => exact setCell_cell_self hc _
  case others => exact setCell_cell_ne hj _
  case counts => exact (advance_counts _ t 1).trans (setCell_counts s id _)
  case chans => exact channelSame_setCell s id _ c

/-- Settles O23, by the rules of WAKE_CELL. -/
theorem wakeTakesHandle : Obligations.WakeTakesHandle := by
  unfold Obligations.WakeTakesHandle
  intro s t id old h hc
  have ⟨_, _, ht, _⟩ := h
  have hvalid : s.cell id ≠ none := hc ▸ Option.some_ne_none old
  have hframe : Frame readyOnly s (s.wakeCell id) :=
    (Frame.refl _ s).wakeCell ready_mem_readyOnly id
  refine ⟨_, exec_wake_eq h hc, ?parts, ?emptied, fun j hj => ?others, ?counts, fun c => ?chans,
    fun u hu => ?tasks⟩
  case parts =>
    exact sameExcept_updTask
      (sameExcept_wakeCell (sameExcept_refl _ s) (by simp) (by simp) (by simp) id) (by simp) t _
  case emptied => exact wakeCell_cell_self hvalid
  case others => exact wakeCell_cell_ne hj
  case counts => exact (advance_counts _ t 1).trans hframe.counts
  case chans => exact channelSame_wakeCell s id c
  case tasks =>
    obtain ⟨hsame, hcp, hready⟩ := readied_advance hframe ht u 1
    exact ⟨hsame, hcp, hready ▸ wakeCell_task_ready_iff hu hc⟩

/-- Settles O24: `ready` of the handle, then CP. -/
theorem signalReadiesTask : Obligations.SignalReadiesTask := by
  unfold Obligations.SignalReadiesTask
  intro s t hd h hn
  have ⟨_, _, ht, _⟩ := h
  have hframe : Frame readyOnly s (s.ready hd.toNat) :=
    (Frame.refl _ s).ready ready_mem_readyOnly hd.toNat
  refine ⟨_, exec_signal_eq h hn, ?parts, by simp, fun u hu => ?tasks⟩
  case parts =>
    exact sameExcept_updTask (sameExcept_updTask (sameExcept_refl _ s) (by simp) _ _) (by simp) t _
  case tasks =>
    obtain ⟨hsame, hcp, hready⟩ := readied_advance hframe ht u 1
    exact ⟨hsame, hcp, hready ▸ ready_task_ready_iff hu hd.toNat⟩

end Sys2Proof.Machine.Proofs

/-! SUPPORT. What the DMA commands share: the rules of a channel update and of a RAM write, and the checks of the
channel and its owner (42_dma.md R160, R161). O25, O26, O29, O30 and O34 follow from these alone. -/

namespace Sys2Proof.Machine.Proofs

open Sys2Proof.Machine.Laws

variable {s x : State} {t : Nat}

/-! ### Updates of channels, RAM and HIST -/

theorem sameExcept_updChan {ps : List Part} (h : SameExcept ps s x) (hch : .chans ∈ ps) (ch : Nat)
    (f : Channel → Channel) : SameExcept ps s (x.updChan ch f) := by
  intro p hp
  cases p with
  | chans => exact absurd hch hp
  | _ => exact h _ hp

theorem sameExcept_setMem {ps : List Part} (h : SameExcept ps s x) (hm : .mem ∈ ps) (m : Memory) :
    SameExcept ps s (x.setMem m) := by
  intro p hp
  cases p with
  | mem => exact absurd hm hp
  | _ => exact h _ hp

theorem sameExcept_record {ps : List Part} (h : SameExcept ps s x) (hh : .hist ∈ ps) (e : Event) :
    SameExcept ps s (x.record e) := by
  intro p hp
  cases p with
  | hist => exact absurd hh hp
  | _ => exact h _ hp

/-- A command that changes one channel and its own task, and nothing else. -/
theorem sameExcept_updChan_updTask (s : State) (ch t : Nat) (f : Channel → Channel)
    (g : Task → Task) : SameExcept [.tasks, .chans] s ((s.updChan ch f).updTask t g) :=
  sameExcept_updTask (sameExcept_updChan (sameExcept_refl _ s) (by simp) ch f) (by simp) t g

/-- A state whose channels are those of an update of one channel. -/
theorem otherChansSame_of_updChan {ch : Nat} {f : Channel → Channel}
    (h : x.chans = (s.updChan ch f).chans) : OtherChansSame s x ch :=
  ⟨(nch_congr h).trans (updChan_nch s ch f),
    fun c hc => (chan_congr c h).trans (chan_updChan_ne s ch c f hc)⟩

/-! ### The channel and its owner -/

theorem chkFault_badChannel {ch : Nat} (h : s.nch ≤ ch) :
    s.chkFault t ch = some (.badChannel ch) :=
  if_pos h

theorem chkFault_notOwner {ch : Nat} (h : ch < s.nch) (hres : (s.chan ch).res ≠ some t) :
    s.chkFault t ch = some (.notOwner ch t) := by
  unfold State.chkFault
  rw [if_neg (Nat.not_le.2 h), if_pos hres]

theorem chkFault_owns {ch : Nat} (h : Owns s t ch) : s.chkFault t ch = none :=
  (chkFault_none_iff s ch t).2 h

/-- A host command whose micro-step raises a fault enters it. -/
theorem hostResult_error {r : Except BlockFault State} {f : BlockFault} (hc : s.current = some t)
    (hr : r = .error f) : hostResult s r = hostFaults s t f := by
  rw [hr, ← takeFault_host s t f hc]
  rfl

theorem exec_dpoll_phase0 (h : HostAtPhase s t 0) (rd : RegNum) (ch : BitVec 6) :
    exec (.dpoll rd ch) s = hostResult s (dpollCheck rd ch.toNat t s) := by
  obtain ⟨hf, hc, ht, hp⟩ := h
  exact (hostCommand_eq s t _ hf hc ht).trans (by rw [hp])

/-- The commands that check the channel and its owner before anything else (42_dma.md R161). -/
def ChecksOwner (i : Instr) (ch : BitVec 6) : Prop :=
  (∃ rd dir wc src dst count opts, i = .dcfg rd ch dir wc src dst count opts) ∨ i = .den ch ∨
    i = .dtrg ch ∨ ∃ rd, i = .dpoll rd ch

/-- The fault of CHK is the fault of the command. -/
theorem exec_chkFault {i : Instr} {ch : BitVec 6} {f : BlockFault} (hi : ChecksOwner i ch)
    (h : HostReady s t) (hf : s.chkFault t ch.toNat = some f) : exec i s = hostFaults s t f := by
  obtain ⟨rd, dir, wc, src, dst, count, opts, rfl⟩ | rfl | rfl | ⟨rd, rfl⟩ := hi
  · exact atomicCommand_error h (by simp only [hf])
  · exact atomicCommand_error h (by simp only [hf])
  · exact atomicCommand_error h (by simp only [hf])
  · have ⟨_, hc, _, _⟩ := h
    rw [exec_dpoll_phase0 h]
    exact hostResult_error hc (by simp only [dpollCheck, hf])

/-- Settles O30: CHK is the first thing each of the four commands does. -/
theorem ownerChecked : Obligations.OwnerChecked := by
  unfold Obligations.OwnerChecked
  intro s t ch i h hi
  exact ⟨fun hch => exec_chkFault hi h (chkFault_badChannel hch),
    fun hch hres => exec_chkFault hi h (chkFault_notOwner hch hres)⟩

/-! ### DRES (42_dma.md R160) -/

theorem exec_dres_eq {ch : BitVec 6} (h : HostReady s t) (hch : ch.toNat < s.nch)
    (hres : (s.chan ch.toNat).res = none) :
    exec (.dres ch) s =
      .next ((s.updChan ch.toNat fun c => { c with res := some t }).advance t 1) :=
  atomicCommand_ok h (by simp only [if_neg (Nat.not_le.2 hch), hres, ne_eq, not_true, if_false])

theorem exec_dres_reserved {ch : BitVec 6} {o : Nat} (h : HostReady s t) (hch : ch.toNat < s.nch)
    (hres : (s.chan ch.toNat).res = some o) :
    exec (.dres ch) s = hostFaults s t (.doubleReserve ch.toNat (some o)) :=
  atomicCommand_error h (by
    simp only [if_neg (Nat.not_le.2 hch), hres, ne_eq, reduceCtorEq, not_false_iff, if_true])

/-- Settles O25: past its two checks DRES writes the owner and CP. -/
theorem dresReserves : Obligations.DresReserves := by
  unfold Obligations.DresReserves
  intro s t ch h
  have ⟨_, _, ht, _⟩ := h
  refine ⟨fun hch => atomicCommand_error h (if_pos hch), fun hch hres =>
    ⟨_, exec_dres_eq h hch hres, sameExcept_updChan_updTask s _ t _ _, onlyCp_advance _ s t 1 ht rfl,
      otherChansSame_of_updChan rfl, ?frame, ?owner⟩⟩
  all_goals rw [advance_chan, chan_updChan_self _ _ _ hch]
  case frame =>
    intro p hp
    cases p with
    | res => exact absurd (List.mem_singleton.2 rfl) hp
    | _ => rfl

/-- Settles O26: the owner found, whoever it is, DRES enters its fault, which writes no channel. -/
theorem doubleReserveFaults : Obligations.DoubleReserveFaults := by
  unfold Obligations.DoubleReserveFaults
  intro s t o ch h hch hres
  have heq := exec_dres_reserved h hch hres
  refine ⟨heq, fun s' hs' c => ?_⟩
  obtain rfl : s' = _ := Host.Outcome.next.inj (hs'.symm.trans heq)
  rfl

/-! ### DEN (42_dma.md R178) -/

theorem exec_den_eq {ch : BitVec 6} (h : HostReady s t) (ho : Owns s t ch.toNat) :
    exec (.den ch) s =
      .next ((s.updChan ch.toNat fun c => { c with enable := true, inten := true }).advance t 1) :=
  atomicCommand_ok h (by simp only [chkFault_owns ho])

/-- Settles O29: for the owner DEN has no further check. -/
theorem denEnables : Obligations.DenEnables := by
  unfold Obligations.DenEnables
  intro s t ch h ho
  have ⟨_, _, ht, _⟩ := h
  have ⟨hch, _⟩ := ho
  refine ⟨_, exec_den_eq h ho, sameExcept_updChan_updTask s _ t _ _, onlyCp_advance _ s t 1 ht rfl,
    otherChansSame_of_updChan rfl, ?frame, ?enable, ?inten⟩
  all_goals rw [advance_chan, chan_updChan_self _ _ _ hch]
  case frame =>
    intro p hp
    cases p with
    | enable | inten => exact absurd (by simp) hp
    | _ => rfl

/-! ### DRD (42_dma.md R181) -/

/-- The bit a selector names, and that a selector above 3 names none. -/
theorem statusBit_eq (c : Channel) (sel : BitVec 4) :
    c.statusBit sel =
      if 3 < sel.toNat then none
      else some (if sel = 0 then c.enable else if sel = 1 then c.inten else
        if sel = 2 then c.active else c.done) := by
  unfold Channel.statusBit
  split
  case h_1 h => obtain rfl : sel = 0 := BitVec.eq_of_toNat_eq h; rfl
  case h_2 h => obtain rfl : sel = 1 := BitVec.eq_of_toNat_eq h; rfl
  case h_3 h => obtain rfl : sel = 2 := BitVec.eq_of_toNat_eq h; rfl
  case h_4 h => obtain rfl : sel = 3 := BitVec.eq_of_toNat_eq h; rfl
  case h_5 h0 h1 h2 h3 =>
    rw [imp_false] at h0 h1 h2 h3
    have hsel : 3 < sel.toNat := by omega
    rw [if_pos hsel]

theorem exec_drd_eq {rd : RegNum} {ch : BitVec 6} {sel : BitVec 4} {b : Bool} (h : HostReady s t)
    (hch : ch.toNat < s.nch) (hb : (s.chan ch.toNat).statusBit sel = some b) :
    exec (.drd rd ch sel) s = .next ((s.setReg t rd (bitWord b)).advance t 1) :=
  atomicCommand_ok h (by simp only [if_neg (Nat.not_le.2 hch), hb])

theorem exec_drd_badOperand {rd : RegNum} {ch : BitVec 6} {sel : BitVec 4} (h : HostReady s t)
    (hch : ch.toNat < s.nch) (hb : (s.chan ch.toNat).statusBit sel = none) :
    exec (.drd rd ch sel) s = hostFaults s t (.badOperand sel) :=
  atomicCommand_error h (by simp only [if_neg (Nat.not_le.2 hch), hb])

theorem sameExcept_setReg_advance (s : State) (t : Nat) (rd : RegNum) (v : Word) (n : Nat) :
    SameExcept [.tasks] s ((s.setReg t rd v).advance t n) :=
  sameExcept_updTask (sameExcept_updTask (sameExcept_refl _ s) (by simp) t _) (by simp) t _

/-- Settles O34: range, selector, then the bit the selector names. -/
theorem drdReadsBit : Obligations.DrdReadsBit := by
  unfold Obligations.DrdReadsBit
  rintro s t rd ch sel _ h rfl
  have ⟨_, _, ht, _⟩ := h
  have hbit := statusBit_eq (s.chan ch.toNat) sel
  split
  · rename_i hch
    exact atomicCommand_error h (if_pos hch)
  · rename_i hch
    have hch := Nat.not_le.1 hch
    split
    · rename_i hsel
      exact exec_drd_badOperand h hch (hbit.trans (if_pos hsel))
    · rename_i hsel
      exact ⟨_, exec_drd_eq h hch (hbit.trans (if_neg hsel)), sameExcept_setReg_advance s t rd _ 1,
        onlyRegCp_setReg_advance s s t rd _ 1 ht rfl⟩

end Sys2Proof.Machine.Proofs

/-! SUPPORT. O18 and O33: the micro-steps of DPOLL (42_dma.md R180), and what its Ready says of the channel (R196). -/

namespace Sys2Proof.Machine.Proofs

open Sys2Proof.Machine.Laws

variable {s x s' : State} {t : Nat} {rd : RegNum} {ch : BitVec 6}

/-! ### What DPOLL is at each micro-step -/

theorem exec_dpoll_phase1 (h : HostAtPhase s t 1) (rd : RegNum) (ch : BitVec 6) :
    exec (.dpoll rd ch) s = .next (dpollRegister ch.toNat t s) := by
  obtain ⟨hf, hc, ht, hp⟩ := h
  exact (hostCommand_eq s t _ hf hc ht).trans (by rw [hp])

theorem exec_dpoll_phase2 (h : HostAtPhase s t 2) (rd : RegNum) (ch : BitVec 6) :
    exec (.dpoll rd ch) s = .next (dpollRearm ch.toNat t s) := by
  obtain ⟨hf, hc, ht, hp⟩ := h
  exact (hostCommand_eq s t _ hf hc ht).trans (by rw [hp])

theorem exec_dpoll_phase3 (h : HostAtPhase s t 3) (rd : RegNum) (ch : BitVec 6) :
    exec (.dpoll rd ch) s = .next (dpollRecheck rd ch.toNat t s) := by
  obtain ⟨hf, hc, ht, hp⟩ := h
  exact (hostCommand_eq s t _ hf hc ht).trans (by rw [hp])

theorem dpollCheck_notStarted (ho : Owns s t ch.toNat) (hs : (s.chan ch.toNat).started = false) :
    dpollCheck rd ch.toNat t s = .error (.pollNotStarted ch.toNat) := by
  simp only [dpollCheck, chkFault_owns ho, hs, Bool.not_false, if_true]

theorem dpollCheck_ready (ho : Owns s t ch.toNat) (hs : (s.chan ch.toNat).started = true)
    (hi : (s.chan ch.toNat).inten = false) :
    dpollCheck rd ch.toNat t s = .ok (((s.setReg t rd resultReady).setPhase t 0).advance t 1) := by
  simp only [dpollCheck, chkFault_owns ho, hs, hi, Bool.not_true, Bool.false_eq_true, if_false]

theorem dpollCheck_wait (ho : Owns s t ch.toNat) (hs : (s.chan ch.toNat).started = true)
    (hi : (s.chan ch.toNat).inten = true) :
    dpollCheck rd ch.toNat t s = .ok (s.setPhase t 1) := by
  simp only [dpollCheck, chkFault_owns ho, hs, hi, Bool.not_true, Bool.false_eq_true, if_false,
    if_true]

/-! ### The frames of its endings -/

/-- The cell of a DMA channel is a field of the channel's record. -/
theorem setCell_dmaCellId {ch : Nat} (h : ch < 64) (s : State) (v : Option Handle) :
    s.setCell (dmaCellId ch) v = s.updChan ch fun c => { c with waker := v } := by
  unfold State.setCell
  rw [dmaCellId_class ch h, dmaCellId_instance ch h]
  rfl

/-- A micro-step that moves PHASE on and otherwise leaves the tasks alone. -/
theorem setPhase_frame (ht : t < s.ntasks) (h : x.tasks = s.tasks) (p : Fin 4) :
    OtherTasksSame s (x.setPhase t p) t ∧
      TaskSameExcept [.phase] (s.task t) ((x.setPhase t p).task t) ∧
      ((x.setPhase t p).task t).phase = p := by
  have hn : x.ntasks = s.ntasks := ntasks_congr h
  have hk : (x.setPhase t p).task t = { s.task t with phase := p } :=
    (task_updTask_self x t _ (hn ▸ ht)).trans (by rw [task_congr t h])
  refine ⟨⟨(setPhase_ntasks x t p).trans hn, fun u hu => ?_⟩, ?_, ?_⟩
  · exact (task_updTask_ne x t u _ hu).trans (task_congr u h)
  · rw [hk]
    exact taskSame_phase (by simp) _ p
  · rw [hk]

/-- The end of a command of several micro-steps: a result in x[rd], PHASE 0 again, CP past the command. -/
def finishWith (s : State) (t : Nat) (rd : RegNum) (v : Word) : State :=
  ((s.setReg t rd v).setPhase t 0).advance t 1

theorem finishWith_task (ht : t < s.ntasks) (rd : RegNum) (v : Word) :
    (finishWith s t rd v).task t =
      { (s.task t).setReg rd v with phase := 0, cp := (s.task t).cp + 1 } := by
  unfold finishWith State.setPhase
  rw [advance_task_self _ _ _ (by simpa using ht), task_updTask_self _ _ _ (by simpa using ht),
    setReg_task_self _ _ _ _ ht]
  rfl

theorem finishWith_otherTasks (s : State) (t : Nat) (rd : RegNum) (v : Word) :
    OtherTasksSame s (finishWith s t rd v) t := by
  unfold finishWith State.setPhase
  refine ⟨by simp, fun u hu => ?_⟩
  rw [advance_task_ne _ _ _ _ hu, task_updTask_ne _ _ _ _ hu, setReg_task_ne _ _ _ _ _ hu]

theorem finishWith_reg (ht : t < s.ntasks) (rd : RegNum) (v : Word) :
    RegHolds (finishWith s t rd v) t rd v := by
  rw [RegHolds, finishWith_task ht]
  exact reg_setReg_self (s.task t) rd v

theorem finishWith_reg_ne (ht : t < s.ntasks) (v : Word) {q : RegNum} (hq : q ≠ rd) :
    ((finishWith s t rd v).task t).reg q = (s.task t).reg q := by
  rw [finishWith_task ht]
  exact reg_setReg_ne (s.task t) rd q v hq

theorem finishWith_sameExcept (s : State) (t : Nat) (rd : RegNum) (v : Word) :
    SameExcept [.tasks] s (finishWith s t rd v) :=
  sameExcept_updTask (sameExcept_updTask (sameExcept_updTask (sameExcept_refl _ s) (by simp) t _)
    (by simp) t _) (by simp) t _

/-- Ended at its first micro-step, a command leaves PHASE as it was. -/
theorem finishWith_onlyRegCp (ht : t < s.ntasks) (hp : (s.task t).phase = 0) (rd : RegNum)
    (v : Word) : OnlyRegCp s (finishWith s t rd v) t rd v 1 := by
  refine ⟨finishWith_otherTasks s t rd v, fun p hpart => ?_, finishWith_reg ht rd v,
    fun q hq => finishWith_reg_ne ht v hq, by rw [finishWith_task ht]⟩
  rw [finishWith_task ht]
  cases p with
  | regs | cp => exact absurd (by simp) hpart
  | phase => exact hp.symm
  | _ => rfl

theorem finishWith_taskSame (ht : t < s.ntasks) (rd : RegNum) (v : Word) :
    TaskSameExcept [.regs, .cp, .phase] (s.task t) ((finishWith s t rd v).task t) := by
  intro p hpart
  rw [finishWith_task ht]
  cases p with
  | regs | cp | phase => exact absurd (by simp) hpart
  | _ => rfl

/-! ### O33: each micro-step and its frame -/

/-- A micro-step that changes one channel and moves PHASE on. -/
theorem updChan_setPhase_spec {c : Nat} {ps : List ChannelPart} (ht : t < s.ntasks) (hc : c < s.nch)
    (f : Channel → Channel) (p : Fin 4) (hf : ChannelSameExcept ps (s.chan c) (f (s.chan c)))
    (hx : x = (s.updChan c f).setPhase t p) :
    SameExcept [.tasks, .chans] s x ∧ OtherTasksSame s x t ∧
      TaskSameExcept [.phase] (s.task t) (x.task t) ∧ (x.task t).phase = p ∧
      OtherChansSame s x c ∧ ChannelSameExcept ps (s.chan c) (x.chan c) ∧
      x.chan c = f (s.chan c) := by
  obtain ⟨hothers, hsame, hphase⟩ := setPhase_frame (x := s.updChan c f) ht rfl p
  have hchan : ((s.updChan c f).setPhase t p).chan c = f (s.chan c) :=
    (setPhase_chan ..).trans (chan_updChan_self s c f hc)
  rw [hx]
  exact ⟨sameExcept_updChan_updTask s c t _ _, hothers, hsame, hphase, otherChansSame_of_updChan rfl,
    hchan ▸ hf, hchan⟩

theorem channelSame_waker (c : Channel) (v : Option Handle) :
    ChannelSameExcept [.waker] c { c with waker := v } := by
  intro p hp
  cases p with
  | waker => exact absurd (List.mem_singleton.2 rfl) hp
  | _ => rfl

theorem channelSame_inten (c : Channel) (v : Bool) :
    ChannelSameExcept [.inten] c { c with inten := v } := by
  intro p hp
  cases p with
  | inten => exact absurd (List.mem_singleton.2 rfl) hp
  | _ => rfl

theorem dpollRegister_eq (s : State) (t : Nat) (ch : BitVec 6) :
    dpollRegister ch.toNat t s =
      (s.updChan ch.toNat fun c => { c with waker := some t }).setPhase t 2 := by
  rw [dpollRegister, setCell_dmaCellId ch.isLt]

/-- Settles O33: the three outcomes of the first micro-step, then one case per micro-step. -/
theorem dpollMicroSteps : Obligations.DpollMicroSteps := by
  unfold Obligations.DpollMicroSteps
  intro s t rd ch ho
  have ⟨hch, _⟩ := ho
  refine ⟨fun h hs => ?notStarted, fun h hs hi => ?ready, fun h hs hi => ?wait, fun h => ?register,
    fun h => ?rearm, fun h => ?recheck⟩
  all_goals have ⟨_, hc, ht, hp⟩ := h
  case notStarted =>
    exact (exec_dpoll_phase0 h rd ch).trans (hostResult_error hc (dpollCheck_notStarted ho hs))
  case ready =>
    refine ⟨finishWith s t rd 1, ?_, finishWith_sameExcept s t rd _, finishWith_onlyRegCp ht hp rd _⟩
    rw [exec_dpoll_phase0 h, dpollCheck_ready ho hs hi]
    rfl
  case wait =>
    refine ⟨s.setPhase t 1, ?_, sameExcept_updTask (sameExcept_refl _ s) (by simp) t _,
      setPhase_frame ht rfl 1⟩
    rw [exec_dpoll_phase0 h, dpollCheck_wait ho hs hi]
    rfl
  case register =>
    obtain ⟨hparts, htasks, htask, hphase, hchans, hchan, hself⟩ := updChan_setPhase_spec ht hch _ 2
      (channelSame_waker _ (some t)) (dpollRegister_eq s t ch)
    exact ⟨_, exec_dpoll_phase1 h rd ch, hparts, htasks, htask, hphase, hchans, hchan,
      congrArg Channel.waker hself⟩
  case rearm =>
    obtain ⟨hparts, htasks, htask, hphase, hchans, hchan, hself⟩ := updChan_setPhase_spec ht hch
      (fun c => { c with inten := true }) 3 (channelSame_inten _ true) rfl
    exact ⟨_, exec_dpoll_phase2 h rd ch, hparts, htasks, htask, hphase, hchans, hchan,
      congrArg Channel.inten hself⟩
  case recheck =>
    exact ⟨_, exec_dpoll_phase3 h rd ch, finishWith_sameExcept s t rd _,
      finishWith_otherTasks s t rd _, finishWith_taskSame ht rd _, finishWith_reg ht rd _,
      fun q hq => finishWith_reg_ne ht _ hq, by rw [dpollRecheck, ← finishWith, finishWith_task ht],
      by rw [dpollRecheck, ← finishWith, finishWith_task ht]⟩

/-! ### O18: Ready means complete -/

/-- A started channel whose INTEN is clear has completed its transfer. -/
theorem channelOk_complete {maxXfer : Nat} {c : Channel} (h : ChannelOk maxXfer c)
    (hs : c.started = true) (hi : c.inten = false) :
    c.active = false ∧ c.done = true ∧ c.xfer.rem = 0 := by
  obtain ⟨-, hexcl, hint, hrem, -⟩ := h
  have hdone := hint hs hi
  have hactive : c.active = false := by
    by_contra ha
    simp [hexcl (by simpa using ha)] at hdone
  refine ⟨hactive, hdone, ?_⟩
  rw [hactive] at hrem
  simpa using hrem

theorem finishWith_chan (s : State) (t : Nat) (rd : RegNum) (v : Word) (c : Nat) :
    (finishWith s t rd v).chan c = s.chan c :=
  chan_congr c rfl

/-- What DPOLL's first micro-step can leave: it waits where INTEN is set, and is Ready where it is clear. -/
theorem dpollCheck_ok (h : dpollCheck rd ch.toNat t s = .ok x) :
    PollsOwn s t ch.toNat ∧
      (x = s.setPhase t 1 ∨
        (s.chan ch.toNat).inten = false ∧ x = finishWith s t rd resultReady) := by
  unfold dpollCheck at h
  split at h
  · cases h
  · rename_i hchk
    split at h
    · cases h
    · rename_i hs
      refine ⟨⟨(chkFault_none_iff s _ t).1 hchk, by simpa using hs⟩, ?_⟩
      split at h <;> cases h
      · exact .inl rfl
      · rename_i hi
        exact .inr ⟨by simpa using hi, rfl⟩

/-- DPOLL's last micro-step answers Ready where INTEN is clear. -/
theorem dpollRecheck_ready {c : Nat} (ht : t < s.ntasks)
    (h : RegHolds (dpollRecheck rd c t s) t rd 1) : (s.chan c).inten = false := by
  have hval := (finishWith_reg ht rd _).symm.trans h
  simp only [Reg.mk.injEq, and_true] at hval
  by_contra hi
  rw [Bool.not_eq_false] at hi
  rw [if_pos hi] at hval
  exact absurd hval (by decide)

/-- DPOLL ends with Ready only where its channel is the task's, started, and has INTEN clear; it changes no channel
then. -/
theorem exec_dpoll_ready (hc : s.current = some t) (ht : t < s.ntasks)
    (hpoll : (s.task t).phase ≠ 0 → PollsOwn s t ch.toNat)
    (h : exec (.dpoll rd ch) s = .next s') (hf : s'.fault = none) (hp : (s'.task t).phase = 0)
    (hr : RegHolds s' t rd 1) :
    PollsOwn s t ch.toNat ∧ (s.chan ch.toNat).inten = false ∧
      s'.chan ch.toNat = s.chan ch.toNat := by
  obtain ⟨_, hfault, -⟩ := hostCommand_next _ _ _ h
  have goesOn : ∀ {x : State} {p : Fin 4}, x.tasks = s.tasks → p ≠ 0 →
      ((x.setPhase t p).task t).phase ≠ 0 := fun hx hp0 => by
    obtain ⟨-, -, hphase⟩ := setPhase_frame ht hx _
    rwa [hphase]
  obtain hphase | hphase | hphase | hphase :
      (s.task t).phase = 0 ∨ (s.task t).phase = 1 ∨ (s.task t).phase = 2 ∨ (s.task t).phase = 3 := by
    omega
  · rw [exec_dpoll_phase0 ⟨hfault, hc, ht, hphase⟩] at h
    obtain hok | ⟨f, -, rfl⟩ := hostResult_next _ _ _ h
    · obtain ⟨hown, rfl | ⟨hi, rfl⟩⟩ := dpollCheck_ok hok
      · exact absurd hp (goesOn rfl (by decide))
      · exact ⟨hown, hi, finishWith_chan s t rd _ _⟩
    · cases hf
  · rw [exec_dpoll_phase1 ⟨hfault, hc, ht, hphase⟩] at h
    cases h
    obtain ⟨-, htasks, -⟩ := setCell_other s (dmaCellId ch.toNat) (some t)
    exact absurd hp (goesOn htasks (by decide))
  · rw [exec_dpoll_phase2 ⟨hfault, hc, ht, hphase⟩] at h
    cases h
    exact absurd hp (goesOn (x := s.updChan ch.toNat _) rfl (by decide))
  · rw [exec_dpoll_phase3 ⟨hfault, hc, ht, hphase⟩] at h
    cases h
    exact ⟨hpoll (by simp [hphase]), dpollRecheck_ready ht hr, finishWith_chan s t rd _ _⟩

/-- A host step of the running task is the command at its CP. -/
theorem agentStep_host {i : Instr} (hfault : s.fault = none) (hc : s.current = some t)
    (hf : s.fetch t = .ok i) : s.agentStep .host = exec i s := by
  have hen : s.enabled .host = true := by simp [State.enabled, hfault, hc]
  simp only [State.agentStep, hen, if_true, State.perform, hc, State.hostStep, hf]

/-- Settles O18: DPOLL answers Ready where INTEN is clear, and the channel's flags then say that the transfer is
complete. -/
theorem readyMeansComplete : Obligations.ReadyMeansComplete := by
  unfold Obligations.ReadyMeansComplete
  intro s s' t rd ch hchans hphase ht hn hc hfetch h hf hp hr
  obtain ⟨hfault, -, hx⟩ := step_next s s' h
  obtain ⟨cs, n, e⟩ := dropChoice_eq s
  rw [hn, e, agentStep_host (s := { s with choices := cs, choiceIndex := n }) hfault hc hfetch] at hx
  obtain ⟨⟨⟨hch, -⟩, hstarted⟩, hinten, hsame⟩ :=
    exec_dpoll_ready (s := { s with choices := cs, choiceIndex := n }) hc ht
      (fun hp0 => pollsOwn_of_phaseOk hphase ht hp0 hfetch) hx hf hp hr
  rw [hsame]
  exact channelOk_complete ((forall_chans_iff s _).1 hchans ch.toNat hch) hstarted hinten

end Sys2Proof.Machine.Proofs

/-! SUPPORT. O27 and O28: DCFG (42_dma.md R170 to R177). A descriptor in RAM is written and read word by word; DCFG
has one equation per outcome of its checks. -/

namespace Sys2Proof.Machine.Proofs

open Sys2Proof.Machine.Laws

variable {s s' : State} {t : Nat} {rd : RegNum} {ch : BitVec 6}

/-! ### Descriptors in RAM (10_state.md R47) -/

theorem allKind_sub {a b m n : Nat} {k : RegionKind} (h : AllKind s a n k) (ha : a ≤ b)
    (hb : b + m ≤ a + n) : AllKind s b m k := by
  intro i hi
  have := h (b - a + i) (by omega)
  rwa [show a + (b - a + i) = b + i by omega] at this

theorem writeRam_eq {a n : Nat} (hn : 0 < n) (h : AllKind s a n .ram) (v : Nat) :
    s.writeRam a n v = .ok (s.setMem (memWrite s.mem a n v)) :=
  if_pos ((accessKind_some_iff _ _ _ _ hn).2 h)

theorem readRam_eq {a n : Nat} (hn : 0 < n) (h : AllKind s a n .ram) :
    s.readRam a n = .ok (memRead s.mem a n) :=
  if_pos ((accessKind_some_iff _ _ _ _ hn).2 h)

/-- RAM after the four words of a descriptor at d are written. -/
def descriptorWritten (m : Memory) (d se de : Nat) : Memory :=
  memWrite (memWrite (memWrite (memWrite m d 4 0) (d + 4) 4 se) (d + 8) 4 de) (d + 12) 4 0

theorem writeDescriptor_eq {ch : Nat} (h : AllKind s (s.desc ch) 16 .ram) (se de : Nat) :
    s.writeDescriptor ch se de = .ok (s.setMem (descriptorWritten s.mem (s.desc ch) se de)) := by
  have hword : ∀ m k v, k + 4 ≤ 16 → (s.setMem m).writeRam (s.desc ch + k) 4 v =
      .ok (s.setMem (memWrite m (s.desc ch + k) 4 v)) := fun m k v hk =>
    writeRam_eq (s := s.setMem m) (by omega) (allKind_sub h (by omega) (by omega)) v
  have hfirst : s.writeRam (s.desc ch) 4 0 = .ok (s.setMem (memWrite s.mem (s.desc ch) 4 0)) :=
    hword s.mem 0 0 (by omega)
  simp only [State.writeDescriptor, hfirst, hword _ 4 _ (by omega), hword _ 8 _ (by omega),
    hword _ 12 _ (by omega), descriptorWritten]

theorem readDescriptor_eq {ch : Nat} (h : AllKind s (s.desc ch + 4) 12 .ram) :
    s.readDescriptor ch = .ok (memRead s.mem (s.desc ch + 4) 4, memRead s.mem (s.desc ch + 8) 4,
      memRead s.mem (s.desc ch + 12) 4) := by
  have hword : ∀ k, 4 ≤ k → k + 4 ≤ 16 →
      s.readRam (s.desc ch + k) 4 = .ok (memRead s.mem (s.desc ch + k) 4) := fun k hlo hhi =>
    readRam_eq (by omega) (allKind_sub h (by omega) (by omega))
  simp only [State.readDescriptor, hword 4 (by omega) (by omega), hword 8 (by omega) (by omega),
    hword 12 (by omega) (by omega)]

/-- A value reads back as it was written, modulo its width. -/
theorem memRead_memWrite_same {m : Memory} (hw : m.wf = true) (a n v : Nat) :
    memRead (memWrite m a n v) a n = v % 2 ^ (8 * n) :=
  memRead_of_digits fun _ => read_memWrite_covered hw a v

theorem memRead_memWrite_disjoint {m : Memory} (hw : m.wf = true) (v : Nat) {a n b k : Nat}
    (h : a + n ≤ b ∨ b + k ≤ a) : memRead (memWrite m b k v) a n = memRead m a n :=
  memRead_congr n m _ a fun _ _ => read_memWrite_outside hw v (by omega)

/-- The four words a descriptor write leaves, and the bytes it leaves alone. -/
theorem descriptorWritten_spec {m : Memory} (hw : m.wf = true) (d : Nat) {se de : Nat}
    (hse : se < 2 ^ 32) (hde : de < 2 ^ 32) :
    memRead (descriptorWritten m d se de) d 4 = 0 ∧
      memRead (descriptorWritten m d se de) (d + 4) 4 = se ∧
      memRead (descriptorWritten m d se de) (d + 8) 4 = de ∧
      memRead (descriptorWritten m d se de) (d + 12) 4 = 0 ∧
      ∀ b, (b < d ∨ d + 16 ≤ b) → (descriptorWritten m d se de).read b = m.read b := by
  have w1 := wf_memWrite 4 m d 0 hw
  have w2 := wf_memWrite 4 _ (d + 4) se w1
  have w3 := wf_memWrite 4 _ (d + 8) de w2
  unfold descriptorWritten
  refine ⟨?_, ?_, ?_, ?_, fun b hb => ?_⟩
  · rw [memRead_memWrite_disjoint w3 _ (by omega), memRead_memWrite_disjoint w2 _ (by omega),
      memRead_memWrite_disjoint w1 _ (by omega), memRead_memWrite_same hw]
    rfl
  · rw [memRead_memWrite_disjoint w3 _ (by omega), memRead_memWrite_disjoint w2 _ (by omega),
      memRead_memWrite_same w1]
    exact Nat.mod_eq_of_lt hse
  · rw [memRead_memWrite_disjoint w3 _ (by omega), memRead_memWrite_same w2]
    exact Nat.mod_eq_of_lt hde
  · rw [memRead_memWrite_same w3]
    rfl
  · rw [read_memWrite_outside w3 _ (by omega), read_memWrite_outside w2 _ (by omega),
      read_memWrite_outside w1 _ (by omega), read_memWrite_outside hw _ (by omega)]

/-! ### Directions and end addresses (42_dma.md R172, R176) -/

theorem srcAdvances_eq {dir : BitVec 2} (h : dir ≠ 3) : srcAdvances dir = decide (dir ≠ 2) := by
  revert dir
  decide

theorem dstAdvances_eq {dir : BitVec 2} (h : dir ≠ 3) : dstAdvances dir = decide (dir ≠ 1) := by
  revert dir
  decide

theorem endAddr_src {dir : BitVec 2} (h : dir ≠ 3) (base n w : Nat) :
    endAddr base n w (srcAdvances dir) = if dir = 2 then base else base + (n - 1) * w := by
  rw [srcAdvances_eq h, endAddr]
  by_cases hd : dir = 2 <;> simp [hd]

theorem endAddr_dst {dir : BitVec 2} (h : dir ≠ 3) (base n w : Nat) :
    endAddr base n w (dstAdvances dir) = if dir = 1 then base else base + (n - 1) * w := by
  rw [dstAdvances_eq h, endAddr]
  by_cases hd : dir = 1 <;> simp [hd]

/-! ### DCFG: one equation per outcome of its checks (42_dma.md R171) -/

section Dcfg

variable {dir wc : BitVec 2} {src dst count opts : Word32}

theorem exec_dcfg_busy (h : HostReady s t) (ho : Owns s t ch.toNat)
    (ha : (s.chan ch.toNat).active = true) :
    exec (.dcfg rd ch dir wc src dst count opts) s = hostFaults s t (.channelBusy ch.toNat) :=
  atomicCommand_error h (by simp only [chkFault_owns ho, ha, if_true])

theorem exec_dcfg_typedError {e : Word} (h : HostReady s t) (ho : Owns s t ch.toNat)
    (ha : (s.chan ch.toNat).active = false)
    (he : dcfgTypedError s.params.dmaMaxXfer dir wc count = some e) :
    exec (.dcfg rd ch dir wc src dst count opts) s = .next ((s.setReg t rd e).advance t 5) :=
  atomicCommand_ok h (by simp only [chkFault_owns ho, ha, Bool.false_eq_true, if_false, he])

theorem exec_dcfg_baseFault {f : BlockFault} (h : HostReady s t) (ho : Owns s t ch.toNat)
    (ha : (s.chan ch.toNat).active = false)
    (he : dcfgTypedError s.params.dmaMaxXfer dir wc count = none)
    (hf : dcfgBaseFault ch.toNat dir wc src dst count opts = some f) :
    exec (.dcfg rd ch dir wc src dst count opts) s = hostFaults s t f :=
  atomicCommand_error h (by simp only [chkFault_owns ho, ha, Bool.false_eq_true, if_false, he, hf])

/-- The state a DCFG that passes its checks leaves: RAM, the configuration, status 0 and CP. -/
def dcfgDone (s : State) (t : Nat) (rd : RegNum) (ch : BitVec 6) (dir wc : BitVec 2)
    (count : Word32) (m : Memory) : State :=
  (((s.setMem m).updChan ch.toNat fun c => c.configured dir wc count).setReg t rd
    statusOk).advance t 5

section DcfgDone

variable (s : State) (rd : RegNum) (ch : BitVec 6) (dir wc : BitVec 2) (count : Word32) (m : Memory)

theorem dcfgDone_fault (t : Nat) : (dcfgDone s t rd ch dir wc count m).fault = s.fault := rfl

theorem dcfgDone_onlyRegCp (ht : t < s.ntasks) :
    OnlyRegCp s (dcfgDone s t rd ch dir wc count m) t rd 0 5 :=
  onlyRegCp_setReg_advance ((s.setMem m).updChan ch.toNat fun c => c.configured dir wc count) s t rd
    statusOk 5 ht rfl

theorem dcfgDone_sameExcept (t : Nat) :
    SameExcept [.tasks, .chans, .mem] s (dcfgDone s t rd ch dir wc count m) :=
  sameExcept_updTask (sameExcept_updTask (sameExcept_updChan
    (sameExcept_setMem (sameExcept_refl _ s) (by simp) m) (by simp) _ _) (by simp) t _) (by simp) t _

theorem dcfgDone_otherChans (t : Nat) :
    OtherChansSame s (dcfgDone s t rd ch dir wc count m) ch.toNat :=
  otherChansSame_of_updChan (f := fun c => c.configured dir wc count) rfl

theorem dcfgDone_chan (t : Nat) (hch : ch.toNat < s.nch) :
    (dcfgDone s t rd ch dir wc count m).chan ch.toNat =
      (s.chan ch.toNat).configured dir wc count :=
  chan_updChan_self (s.setMem m) ch.toNat _ hch

end DcfgDone

theorem exec_dcfg_done (h : HostReady s t) (ho : Owns s t ch.toNat)
    (ha : (s.chan ch.toNat).active = false)
    (he : dcfgTypedError s.params.dmaMaxXfer dir wc count = none)
    (hb : dcfgBaseFault ch.toNat dir wc src dst count opts = none)
    (hram : AllKind s (s.desc ch.toNat) 16 .ram) :
    exec (.dcfg rd ch dir wc src dst count opts) s =
      .next (dcfgDone s t rd ch dir wc count (descriptorWritten s.mem (s.desc ch.toNat)
        (endAddr src.toNat count.toNat (widthBytes wc) (srcAdvances dir))
        (endAddr dst.toNat count.toNat (widthBytes wc) (dstAdvances dir)))) :=
  atomicCommand_ok h (by
    simp only [chkFault_owns ho, ha, Bool.false_eq_true, if_false, he, hb, writeDescriptor_eq hram,
      dcfgDone])

/-- The last of DCFG's checks, of the address space: the source's base is named where both sides wrap (log 9). -/
theorem dcfgBaseFault_aligned {ch : Nat} (hdir : dir ≠ 3) (hopts : opts = 0)
    (hal : ¬ (src.toNat % 2 ^ wc.toNat ≠ 0 ∨ dst.toNat % 2 ^ wc.toNat ≠ 0)) :
    dcfgBaseFault ch dir wc src dst count opts =
      if 2 ^ 32 < (if dir = 2 then src.toNat else src.toNat + (count.toNat - 1) * 2 ^ wc.toNat) +
          2 ^ wc.toNat then
        some (.addrWrapTransfer ch src.toNat count.toNat (2 ^ wc.toNat))
      else if 2 ^ 32 < (if dir = 1 then dst.toNat else
          dst.toNat + (count.toNat - 1) * 2 ^ wc.toNat) + 2 ^ wc.toNat then
        some (.addrWrapTransfer ch dst.toNat count.toNat (2 ^ wc.toNat))
      else none := by
  rw [← endAddr_src hdir, ← endAddr_dst hdir]
  unfold dcfgBaseFault
  rw [if_neg (not_not.2 hopts)]
  exact if_neg hal

/-- A DCFG that ends in a fault changes nothing but FAULT (42_dma.md R177). -/
theorem exec_dcfg_fault_only (h : HostReady s t)
    (hx : exec (.dcfg rd ch dir wc src dst count opts) s = .next s') {f : FaultRecord}
    (hf : s'.fault = some f) : s' = { s with fault := some f } := by
  have ⟨hnone, _⟩ := h
  obtain ⟨_, -, -, hn⟩ := execDcfg_hostNext hx
  have hno : s.fault = some f → False := fun hs => by simp [hnone] at hs
  cases hn with
  | fault _ g =>
    rw [← hf]
    rfl
  | atomic _ hat => cases hat <;> exact (hno hf).elim
  | stop | finish => exact (hno hf).elim

end Dcfg

/-- Settles O28: the chain of checks is followed in its order, each by its own equation. -/
theorem dcfgRefusals : Obligations.DcfgRefusals := by
  unfold Obligations.DcfgRefusals
  rintro s t rd ch dir wc src dst count opts _ _ _ _ h rfl rfl rfl rfl
  have ⟨hnone, _, ht, _⟩ := h
  refine ⟨?_, fun s' f hx => exec_dcfg_fault_only h hx⟩
  have hchk : ChecksOwner (.dcfg rd ch dir wc src dst count opts) ch :=
    .inl ⟨rd, dir, wc, src, dst, count, opts, rfl⟩
  by_cases hch : s.nch ≤ ch.toNat
  · rw [if_pos hch]
    exact exec_chkFault hchk h (chkFault_badChannel hch)
  rw [if_neg hch]
  by_cases hres : (s.chan ch.toNat).res ≠ some t
  · rw [if_pos hres]
    exact exec_chkFault hchk h (chkFault_notOwner (Nat.not_le.1 hch) hres)
  rw [if_neg hres]
  have ho : Owns s t ch.toNat := ⟨Nat.not_le.1 hch, not_not.1 hres⟩
  by_cases ha : (s.chan ch.toNat).active = true
  · rw [if_pos ha]
    exact exec_dcfg_busy h ho ha
  rw [if_neg ha]
  rw [Bool.not_eq_true] at ha
  have typed : ∀ e, dcfgTypedError s.params.dmaMaxXfer dir wc count = some e →
      ∃ s', exec (.dcfg rd ch dir wc src dst count opts) s = .next s' ∧ SameExcept [.tasks] s s' ∧
        OnlyRegCp s s' t rd e 5 := fun e he =>
    ⟨_, exec_dcfg_typedError h ho ha he, sameExcept_setReg_advance s t rd e 5,
      onlyRegCp_setReg_advance s s t rd e 5 ht rfl⟩
  by_cases hdir : dir = 3
  · rw [if_pos hdir]
    exact typed _ (if_pos hdir)
  rw [if_neg hdir]
  by_cases hwc : wc = 3
  · rw [if_pos hwc]
    exact typed _ ((if_neg hdir).trans (if_pos hwc))
  rw [if_neg hwc]
  by_cases hcount : count = 0 ∨ s.params.dmaMaxXfer < count.toNat
  · rw [if_pos hcount]
    exact typed _ ((if_neg hdir).trans ((if_neg hwc).trans (if_pos hcount)))
  rw [if_neg hcount]
  have he : dcfgTypedError s.params.dmaMaxXfer dir wc count = none :=
    (if_neg hdir).trans ((if_neg hwc).trans (if_neg hcount))
  by_cases hopts : opts ≠ 0
  · rw [if_pos hopts]
    exact exec_dcfg_baseFault h ho ha he (if_pos hopts)
  rw [if_neg hopts]
  by_cases hal : src.toNat % 2 ^ wc.toNat ≠ 0 ∨ dst.toNat % 2 ^ wc.toNat ≠ 0
  · rw [if_pos hal]
    exact exec_dcfg_baseFault h ho ha he ((if_neg hopts).trans (if_pos hal))
  rw [if_neg hal]
  have hbase := dcfgBaseFault_aligned (ch := ch.toNat) (count := count) hdir (not_not.1 hopts) hal
  generalize (if dir = 2 then src.toNat else src.toNat + (count.toNat - 1) * 2 ^ wc.toNat) = se
    at hbase ⊢
  generalize (if dir = 1 then dst.toNat else dst.toNat + (count.toNat - 1) * 2 ^ wc.toNat) = de
    at hbase ⊢
  by_cases hsrc : 2 ^ 32 < se + 2 ^ wc.toNat
  · rw [if_pos (.inl hsrc)]
    exact ⟨_, .inl ⟨rfl, hsrc⟩, exec_dcfg_baseFault h ho ha he (hbase.trans (if_pos hsrc))⟩
  by_cases hdst : 2 ^ 32 < de + 2 ^ wc.toNat
  · rw [if_pos (.inr hdst)]
    exact ⟨_, .inr ⟨rfl, hdst⟩,
      exec_dcfg_baseFault h ho ha he (hbase.trans ((if_neg hsrc).trans (if_pos hdst)))⟩
  rw [if_neg (not_or.2 ⟨hsrc, hdst⟩)]
  intro hram
  obtain ⟨-, -, hreg, -⟩ := dcfgDone_onlyRegCp s rd ch dir wc count _ ht
  exact ⟨_, exec_dcfg_done h ho ha he (hbase.trans ((if_neg hsrc).trans (if_neg hdst))) hram,
    (dcfgDone_fault ..).trans hnone, hreg⟩

/-- Settles O27: with every check passed, DCFG writes the descriptor of the end addresses R176 gives. -/
theorem dcfgConfigures : Obligations.DcfgConfigures := by
  unfold Obligations.DcfgConfigures
  rintro s t rd ch dir wc src dst count _ se de _ h hm ho ha hdir hwc hpos hmax rfl hse hde hsrc hdst
    hsespace hdespace rfl hram
  have ⟨_, _, ht, _⟩ := h
  have ⟨hch, _⟩ := ho
  have hw : 0 < 2 ^ wc.toNat := Nat.two_pow_pos _
  have hcount : ¬ (count = 0 ∨ s.params.dmaMaxXfer < count.toNat) := by
    rw [not_or]
    exact ⟨fun e => by simp [e] at hpos, Nat.not_lt.2 hmax⟩
  have he : dcfgTypedError s.params.dmaMaxXfer dir wc count = none :=
    (if_neg hdir).trans ((if_neg hwc).trans (if_neg hcount))
  have hbase : dcfgBaseFault ch.toNat dir wc src dst count 0 = none := by
    rw [dcfgBaseFault_aligned hdir rfl (by simp [hsrc, hdst]), ← hse, ← hde,
      if_neg (Nat.not_lt.2 hsespace), if_neg (Nat.not_lt.2 hdespace)]
  have hdone := exec_dcfg_done (rd := rd) h ho ha he hbase hram
  rw [endAddr_src hdir, endAddr_dst hdir, widthBytes, ← hse, ← hde] at hdone
  obtain ⟨hres, hsrcWord, hdstWord, hlink, hbytes⟩ := descriptorWritten_spec (se := se) (de := de) hm
    (s.desc ch.toNat) (by omega) (by omega)
  generalize descriptorWritten s.mem (s.desc ch.toNat) se de = m at *
  refine ⟨_, hdone, dcfgDone_sameExcept s rd ch dir wc count m t,
    dcfgDone_onlyRegCp s rd ch dir wc count m ht, dcfgDone_otherChans s rd ch dir wc count m t, ?frame, ?cfg, ?done, ?started, hres, hsrcWord, hdstWord, hlink, hbytes⟩
  all_goals rw [dcfgDone_chan _ _ _ _ _ _ _ _ hch]
  case frame =>
    intro p hp
    cases p with
    | cfg | done | started => exact absurd (by simp) hp
    | _ => rfl
  case cfg => rw [Channel.configured, srcAdvances_eq hdir, dstAdvances_eq hdir]
  case done | started => rfl

end Sys2Proof.Machine.Proofs

/-! SUPPORT. O31 and O32: DTRG (42_dma.md R179). Its checks of a transfer are those of `triggerFault_eq`, in natural
numbers; the command has one equation per outcome. -/

namespace Sys2Proof.Machine.Proofs

open Sys2Proof.Machine.Laws

variable {s : State} {t : Nat} {ch : BitVec 6}

/-- A range within the address space, in natural numbers. -/
theorem byteRange_inSpace_iff (e n w : Nat) (inc : Bool) :
    (byteRange e n w inc).inSpace = true ↔ (inc = true → (n - 1) * w ≤ e) ∧ e + w ≤ 2 ^ 32 := by
  have hbelow : ((n : Int) - 1) * w ≤ e ↔ (n - 1) * w ≤ e := by
    cases n with
    | zero => simp
    | succ n =>
      push_cast
      rw [add_sub_cancel_right]
      norm_cast
  have habove : (e : Int) + w - 1 < (Config.addrSpace : Int) ↔ e + w ≤ 2 ^ 32 := by
    simp only [Config.addrSpace]
    omega
  cases inc with
  | false => simp [byteRange, ByteRange.inSpace, habove]
  | true => simp [byteRange, ByteRange.inSpace, habove, hbelow]

theorem exec_dtrg_busy (h : HostReady s t) (ho : Owns s t ch.toNat)
    (ha : (s.chan ch.toNat).active = true) :
    exec (.dtrg ch) s = hostFaults s t (.channelBusy ch.toNat) :=
  atomicCommand_error h (by simp only [chkFault_owns ho, ha, if_true])

section Idle

variable (h : HostReady s t) (ho : Owns s t ch.toNat) (ha : (s.chan ch.toNat).active = false)
include h ho ha

theorem exec_dtrg_notReady
    (hr : ((s.chan ch.toNat).cfg.valid && (s.chan ch.toNat).enable && (s.chan ch.toNat).inten) =
      false) :
    exec (.dtrg ch) s = hostFaults s t (.triggerNotReady ch.toNat (s.chan ch.toNat).cfg.valid
      (s.chan ch.toNat).enable (s.chan ch.toNat).inten) :=
  atomicCommand_error h (by
    simp only [chkFault_owns ho, ha, Bool.false_eq_true, if_false, hr, Bool.not_false, if_true])

variable {se de lk : Nat}
  (hr : ((s.chan ch.toNat).cfg.valid && (s.chan ch.toNat).enable && (s.chan ch.toNat).inten) = true)
  (hd : s.readDescriptor ch.toNat = .ok (se, de, lk))
include hr hd

theorem exec_dtrg_triggerFault {f : BlockFault}
    (hf : s.triggerFault ch.toNat (s.chan ch.toNat).cfg se de lk = some f) :
    exec (.dtrg ch) s = hostFaults s t f :=
  atomicCommand_error h (by
    simp only [chkFault_owns ho, ha, Bool.false_eq_true, if_false, hr, Bool.not_true, hd, hf])

theorem exec_dtrg_triggered (hf : s.triggerFault ch.toNat (s.chan ch.toNat).cfg se de lk = none) :
    exec (.dtrg ch) s =
      .next ((s.updChan ch.toNat fun c => c.triggered se de).advance t 1) :=
  atomicCommand_ok h (by
    simp only [chkFault_owns ho, ha, Bool.false_eq_true, if_false, hr, Bool.not_true, hd, hf])

end Idle

/-- The checks of the transfer in their order, each in natural numbers. -/
theorem triggerFault_eq (s : State) (ch : Nat) (g : ChannelConfig) (se de lk : Nat) :
    s.triggerFault ch g se de lk =
      if lk ≠ 0 then some (.linkUnsupported ch lk)
      else if se % 2 ^ g.wcode.toNat ≠ 0 ∨ de % 2 ^ g.wcode.toNat ≠ 0 then
        some (.misalignedTransfer ch se de (2 ^ g.wcode.toNat))
      else if (g.srcInc = true ∧ se < (g.count.toNat - 1) * 2 ^ g.wcode.toNat) ∨
          (g.dstInc = true ∧ de < (g.count.toNat - 1) * 2 ^ g.wcode.toNat) ∨
          2 ^ 32 < se + 2 ^ g.wcode.toNat ∨ 2 ^ 32 < de + 2 ^ g.wcode.toNat then
        some (.addrWrapTransfer ch se g.count.toNat (2 ^ g.wcode.toNat))
      else s.raceFault ch (byteRange se g.count.toNat (2 ^ g.wcode.toNat) g.srcInc)
        (byteRange de g.count.toNat (2 ^ g.wcode.toNat) g.dstInc) := by
  have hspace : (!((byteRange se g.count.toNat (2 ^ g.wcode.toNat) g.srcInc).inSpace &&
        (byteRange de g.count.toNat (2 ^ g.wcode.toNat) g.dstInc).inSpace)) = true ↔
      (g.srcInc = true ∧ se < (g.count.toNat - 1) * 2 ^ g.wcode.toNat) ∨
        (g.dstInc = true ∧ de < (g.count.toNat - 1) * 2 ^ g.wcode.toNat) ∨
        2 ^ 32 < se + 2 ^ g.wcode.toNat ∨ 2 ^ 32 < de + 2 ^ g.wcode.toNat := by
    rw [Bool.not_eq_true', ← Bool.not_eq_true, Bool.and_eq_true, byteRange_inSpace_iff,
      byteRange_inSpace_iff]
    simp only [not_and_or, Classical.not_imp, Nat.not_le]
    tauto
  simp only [State.triggerFault, widthBytes, hspace]

/-- Settles O32: the chain of checks is followed in its order. -/
theorem dtrgRefusals : Obligations.DtrgRefusals := by
  unfold Obligations.DtrgRefusals
  rintro s t ch _ _ _ _ se de lk _ h ho rfl rfl rfl rfl hram hse hde hlk rfl
  have hd : s.readDescriptor ch.toNat = .ok (se, de, lk) := by
    rw [readDescriptor_eq hram, hse, hde, hlk]
    rfl
  by_cases ha : (s.chan ch.toNat).active = true
  · rw [if_pos ha]
    exact exec_dtrg_busy h ho ha
  rw [if_neg ha]
  rw [Bool.not_eq_true] at ha
  by_cases hr : (s.chan ch.toNat).cfg.valid = true ∧ (s.chan ch.toNat).enable = true ∧
      (s.chan ch.toNat).inten = true
  case neg =>
    rw [if_pos hr]
    exact exec_dtrg_notReady h ho ha (by simpa [and_assoc] using hr)
  rw [if_neg (not_not.2 hr)]
  have hready : ((s.chan ch.toNat).cfg.valid && (s.chan ch.toNat).enable &&
      (s.chan ch.toNat).inten) = true := by simp [hr]
  have hfault := triggerFault_eq s ch.toNat (s.chan ch.toNat).cfg se de lk
  have refuses : ∀ f, s.triggerFault ch.toNat (s.chan ch.toNat).cfg se de lk = some f →
      exec (.dtrg ch) s = hostFaults s t f := fun f hf =>
    exec_dtrg_triggerFault h ho ha hready hd hf
  rw [hfault] at refuses
  split
  · exact refuses _ (if_pos ‹_›)
  rename_i hlink
  rw [if_neg hlink] at refuses
  split
  · exact refuses _ (if_pos ‹_›)
  rename_i hal
  rw [if_neg hal] at refuses
  split
  · exact refuses _ (if_pos ‹_›)
  rename_i hspace
  rw [if_neg hspace] at refuses
  exact refuses

/-- Settles O31: with every check passed DTRG latches the transfer of the descriptor's words. -/
theorem dtrgTriggers : Obligations.DtrgTriggers := by
  unfold Obligations.DtrgTriggers
  rintro s t ch _ _ _ _ se de h ho ha rfl hv hen hi rfl rfl rfl hram hse hde hlk hsal hdal hslo hdlo
    hshi hdhi hrace
  have ⟨_, _, ht, _⟩ := h
  have ⟨hch, _⟩ := ho
  have hd : s.readDescriptor ch.toNat = .ok (se, de, 0) := by
    rw [readDescriptor_eq hram, hse, hde, ← hlk]
    rfl
  have hspace : ¬ (((s.chan ch.toNat).cfg.srcInc = true ∧
        se < ((s.chan ch.toNat).cfg.count.toNat - 1) * 2 ^ (s.chan ch.toNat).cfg.wcode.toNat) ∨
      ((s.chan ch.toNat).cfg.dstInc = true ∧
        de < ((s.chan ch.toNat).cfg.count.toNat - 1) * 2 ^ (s.chan ch.toNat).cfg.wcode.toNat) ∨
      2 ^ 32 < se + 2 ^ (s.chan ch.toNat).cfg.wcode.toNat ∨
      2 ^ 32 < de + 2 ^ (s.chan ch.toNat).cfg.wcode.toNat) := by
    rintro (⟨hinc, hlt⟩ | ⟨hinc, hlt⟩ | hlt | hlt)
    · exact absurd (hslo hinc) (Nat.not_le.2 hlt)
    · exact absurd (hdlo hinc) (Nat.not_le.2 hlt)
    · exact absurd hshi (Nat.not_le.2 hlt)
    · exact absurd hdhi (Nat.not_le.2 hlt)
  have hf : s.triggerFault ch.toNat (s.chan ch.toNat).cfg se de 0 = none := by
    rw [triggerFault_eq, if_neg (by simp), if_neg (by simp [hsal, hdal]), if_neg hspace, hrace]
  refine ⟨_, exec_dtrg_triggered h ho ha (by simp [hv, hen, hi]) hd hf,
    sameExcept_updChan_updTask s _ t _ _, onlyCp_advance _ s t 1 ht rfl,
    otherChansSame_of_updChan rfl, ?frame, ?cfg, ?active, ?started, ?xfer⟩
  all_goals rw [advance_chan, chan_updChan_self _ _ _ hch]
  case frame =>
    intro p hp
    cases p with
    | cfg | active | started | xfer => exact absurd (by simp) hp
    | _ => rfl
  case cfg | active | started | xfer => rfl

end Sys2Proof.Machine.Proofs

/-! SUPPORT. O39: RACECHK byte by byte (42_dma.md R195). Two ranges meet exactly where they share a byte, so a conflict of
two transfers is a byte that one of them writes, or a PERIPH byte that both read. -/

namespace Sys2Proof.Machine.Proofs

open Sys2Proof.Machine.Laws

/-- The byte is in the range. -/
def ByteRange.Holds (r : ByteRange) (b : Int) : Prop := r.lo ≤ b ∧ b ≤ r.hi

theorem inter_holds_iff (r q : ByteRange) (b : Int) :
    ByteRange.Holds (r.inter q) b ↔ ByteRange.Holds r b ∧ ByteRange.Holds q b := by
  unfold ByteRange.Holds ByteRange.inter
  rw [max_le_iff, le_min_iff]
  tauto

theorem meets_iff (r q : ByteRange) :
    r.meets q = true ↔ ∃ b, ByteRange.Holds r b ∧ ByteRange.Holds q b := by
  simp only [← inter_holds_iff]
  simp only [ByteRange.meets, ByteRange.isEmpty, Bool.not_eq_true', decide_eq_false_iff_not, not_lt,
    ByteRange.Holds]
  exact ⟨fun h => ⟨_, le_rfl, h⟩, fun ⟨_, hlo, hhi⟩ => hlo.trans hhi⟩

theorem hasPeriph_iff (rs : List Region) (r : ByteRange) :
    r.hasPeriph rs = true ↔ ∃ b, ByteRange.Holds r b ∧ regionKind rs b.toNat = .periph := by
  simp only [ByteRange.hasPeriph, List.any_eq_true, List.mem_range, beq_iff_eq, ByteRange.Holds]
  constructor
  · rintro ⟨i, hi, hk⟩
    exact ⟨r.lo + i, ⟨by omega, by omega⟩, hk⟩
  · rintro ⟨b, ⟨hlo, hhi⟩, hk⟩
    refine ⟨(b - r.lo).toNat, by omega, ?_⟩
    rwa [Int.toNat_of_nonneg (by omega), add_sub_cancel]

theorem transferConflict_iff (s : State) (sr dr : ByteRange) (c : Nat) :
    s.transferConflict sr dr c = true ↔ ∃ b,
      (ByteRange.Holds dr b ∧ (ByteRange.Holds (s.chan c).xfer.srcRange b ∨
        ByteRange.Holds (s.chan c).xfer.dstRange b)) ∨
      (ByteRange.Holds sr b ∧ (ByteRange.Holds (s.chan c).xfer.dstRange b ∨
        ByteRange.Holds (s.chan c).xfer.srcRange b ∧
          regionKind s.params.regions b.toNat = .periph)) := by
  simp only [State.transferConflict, Bool.or_eq_true, meets_iff, hasPeriph_iff, inter_holds_iff,
    ← exists_or]
  exact exists_congr fun b => by tauto

/-- The descriptor table's bytes, as 10_state.md R47 places them. -/
theorem tableRange_holds_iff (s : State) (b : Int) :
    ByteRange.Holds s.tableRange b ↔
      (s.params.descBase : Int) ≤ b ∧ b < (s.params.descBase : Int) + 16 * s.nch := by
  simp only [ByteRange.Holds, State.tableRange, accessRange, Config.descSize]
  omega

/-- The channel is another, active one, and its transfer conflicts. -/
def RacesWith (s : State) (ch : Nat) (sr dr : ByteRange) (c : Nat) : Prop :=
  c < s.nch ∧ c ≠ ch ∧ (s.chan c).active = true ∧ s.transferConflict sr dr c = true

section RaceFault

variable {s : State} {ch : Nat} {sr dr : ByteRange}

theorem racesWith_iff {c : Nat} : RacesWith s ch sr dr c ↔ c < s.nch ∧
    (decide (c ≠ ch) && (s.chan c).active && s.transferConflict sr dr c) = true := by
  simp only [RacesWith, Bool.and_eq_true, decide_eq_true_eq, and_assoc]

theorem raceFault_table (h : dr.meets s.tableRange = true) :
    s.raceFault ch sr dr = some (.raceWithTable ch) :=
  if_pos h

/-- Past the table check, the lowest channel that races is named. -/
theorem raceFault_channel (h : ¬ dr.meets s.tableRange = true) {c : Nat}
    (hc : RacesWith s ch sr dr c) (hlow : ∀ c', c' < c → ¬ RacesWith s ch sr dr c') :
    s.raceFault ch sr dr = some (.raceWithChannel ch c) := by
  obtain ⟨hlt, hp⟩ := racesWith_iff.1 hc
  have hfind : (List.range s.nch).find? (fun c =>
      decide (c ≠ ch) && (s.chan c).active && s.transferConflict sr dr c) = some c := by
    refine List.find?_range_eq_some.2 ⟨hp, List.mem_range.2 hlt, fun c' hc' => ?_⟩
    rw [Bool.not_eq_true', ← Bool.not_eq_true]
    exact fun hp' => hlow c' hc' (racesWith_iff.2 ⟨hc'.trans hlt, hp'⟩)
  unfold State.raceFault
  rw [if_neg h, hfind]

theorem raceFault_none (h : ¬ dr.meets s.tableRange = true)
    (hno : ∀ c, ¬ RacesWith s ch sr dr c) : s.raceFault ch sr dr = none := by
  have hfind : (List.range s.nch).find? (fun c =>
      decide (c ≠ ch) && (s.chan c).active && s.transferConflict sr dr c) = none :=
    List.find?_eq_none.2 fun c hc hp => hno c (racesWith_iff.2 ⟨List.mem_range.1 hc, hp⟩)
  unfold State.raceFault
  rw [if_neg h, hfind]

end RaceFault

/-- The first and the last byte of a range (42_dma.md R179). -/
theorem byteRange_bounds (e n w : Nat) (inc : Bool) :
    (byteRange e n w inc).lo = (if inc = true then (e : Int) - ((n : Int) - 1) * w else e) ∧
      (byteRange e n w inc).hi = (e : Int) + w - 1 := by
  cases inc <;> exact ⟨rfl, rfl⟩

/-- Settles O39: the bounds of the ranges, then the check with its conditions turned into bytes. -/
theorem transferRaces : Obligations.TransferRaces := by
  unfold Obligations.TransferRaces
  refine ⟨byteRange_bounds, fun x => ?_, fun s ch sr dr conflict hconflict => ?_⟩
  · obtain ⟨hslo, hshi⟩ := byteRange_bounds x.srcEnd.toNat x.count.toNat x.width x.srcInc
    exact ⟨hslo, hshi, byteRange_bounds x.dstEnd.toNat x.count.toNat x.width x.dstInc⟩
  · have hraces : ∀ c, RacesWith s ch sr dr c ↔ conflict c := fun c => by
      rw [hconflict, RacesWith, transferConflict_iff]
      simp only [ByteRange.Holds, and_assoc]
    have htable : dr.meets s.tableRange = true ↔ ∃ b : Int, dr.lo ≤ b ∧ b ≤ dr.hi ∧
        (s.params.descBase : Int) ≤ b ∧ b < (s.params.descBase : Int) + 16 * s.nch := by
      simp only [meets_iff, tableRange_holds_iff]
      simp only [ByteRange.Holds, and_assoc]
    simp only [← hraces, ← htable]
    exact ⟨raceFault_table, fun h => ⟨fun c hc hlow => raceFault_channel h hc hlow,
      fun hno => raceFault_none h hno⟩⟩

end Sys2Proof.Machine.Proofs

/-! SUPPORT. O35 and O36: the DMA engine (42_dma.md R190 to R192). One step moves one element, whose bytes are the digits
of the value moved; a transfer between disjoint buffers is these moves one after the other. -/

namespace Sys2Proof.Machine.Proofs

open Sys2Proof.Machine.Laws

variable {s x y : State} {ch : Nat}

/-! ### The bytes of a value -/

/-- Each byte that MemRead covers is a digit of the value it answers. -/
theorem memRead_digit {m : Memory} {n : Nat} : ∀ {a i : Nat}, i < n →
    memRead m a n / 2 ^ (8 * i) % 2 ^ 8 = (m.read (a + i)).toNat := by
  induction n with
  | zero => exact fun hi => absurd hi (Nat.not_lt_zero _)
  | succ n ih =>
    intro a i hi
    have hlow : (m.read a).toNat < 2 ^ 8 := (m.read a).isLt
    rw [memRead]
    cases i with
    | zero => rw [Nat.mul_zero, pow_zero, Nat.div_one, Nat.add_mul_mod_self_left,
        Nat.mod_eq_of_lt hlow, Nat.add_zero]
    | succ i =>
      rw [two_pow_byte_succ, ← Nat.div_div_eq_div_mul, Nat.add_mul_div_left _ _ (by omega),
        Nat.div_eq_of_lt hlow, Nat.zero_add, ih (by omega), Nat.add_assoc, Nat.add_comm 1]

theorem memRead_lt (m : Memory) (a n : Nat) : memRead m a n < 2 ^ (8 * n) := by
  rw [memRead_of_digits (m := m) (a := a) (n := n) fun _ hi => (memRead_digit hi).symm]
  exact Nat.mod_lt _ (Nat.two_pow_pos _)

/-- MemWrite of what MemRead answers copies the bytes. -/
theorem read_memWrite_memRead {m : Memory} (hw : m.wf = true) (a b : Nat) {n i : Nat} (hi : i < n) :
    (memWrite m b n (memRead m a n)).read (b + i) = m.read (a + i) := by
  apply BitVec.eq_of_toNat_eq
  rw [read_memWrite_covered hw b _ hi, memRead_digit hi]

/-! ### The two sides of an element (20_memory.md R83, R84) -/

section Access

variable {a n : Nat} (hn : 0 < n) (agent : Agent)
include hn

theorem readValue_ram (h : AllKind s a n .ram) :
    s.readValue agent a n = .ok (memRead s.mem a n) := by
  simp only [State.readValue, (accessKind_some_iff _ _ _ _ hn).2 h]

theorem readValue_periph (h : AllKind s a n .periph) :
    s.readValue agent a n = .ok (Config.periphRead s.hist agent a n % 2 ^ (8 * n)) := by
  simp only [State.readValue, (accessKind_some_iff _ _ _ _ hn).2 h]

theorem writeValue_ram (h : AllKind s a n .ram) (v : Nat) :
    s.writeValue agent a n v = .ok (s.setMem (memWrite s.mem a n v)) := by
  simp only [State.writeValue, (accessKind_some_iff _ _ _ _ hn).2 h]

theorem writeValue_periph (h : AllKind s a n .periph) (v : Nat) :
    s.writeValue agent a n v = .ok (s.setMem s.mem) := by
  simp only [State.writeValue, (accessKind_some_iff _ _ _ _ hn).2 h]
  rfl

/-- The two kinds of byte exclude each other, so a write on the bus has one outcome. -/
theorem writeValue_onBus (h : AllKind s a n .ram ∨ AllKind s a n .periph) (v : Nat) :
    ∃ m, s.writeValue agent a n v = .ok (s.setMem m) ∧
      (AllKind s a n .ram → m = memWrite s.mem a n v) ∧ (AllKind s a n .periph → m = s.mem) := by
  have hexcl : AllKind s a n .ram → AllKind s a n .periph → False := fun hram hperiph =>
    absurd ((hram 0 hn).symm.trans (hperiph 0 hn)) (by decide)
  obtain hk | hk := h
  · exact ⟨_, writeValue_ram hn agent hk v, fun _ => rfl, fun hp => (hexcl hk hp).elim⟩
  · exact ⟨_, writeValue_periph hn agent hk v, fun hr => (hexcl hr hk).elim, fun _ => rfl⟩

end Access

/-! ### One element (42_dma.md R190, R192) -/

/-- What moving an element makes of the channel: XREM counted down; the last element ends the transfer. -/
theorem elementMoved_spec {c : Channel} (ha : c.active = true) (hr : 0 < c.xfer.rem) :
    ChannelSameExcept [.xfer, .active, .done] c c.elementMoved ∧
      c.elementMoved.xfer = { c.xfer with rem := c.xfer.rem - 1 } ∧
      (c.elementMoved.active = true ↔ c.xfer.rem ≠ 1) ∧
      (c.elementMoved.done = true ↔ c.done = true ∨ c.xfer.rem = 1) := by
  have hframe : ChannelSameExcept [.xfer, .active, .done] c c.elementMoved := by
    intro p hp
    unfold Channel.elementMoved
    cases p with
    | xfer | active | done => exact absurd (by simp) hp
    | _ => split <;> rfl
  refine ⟨hframe, ?_⟩
  unfold Channel.elementMoved
  split
  · rename_i hlast
    have h1 : c.xfer.rem = 1 := by omega
    simp [h1]
  · rename_i hlast
    have h1 : c.xfer.rem ≠ 1 := by omega
    simp [h1, ha]

/-- The state after an element of value v is moved from sa to da, with RAM m: two events and the channel's count. -/
def elementDone (s : State) (ch : Nat) (m : Memory) (sa da w v : Nat) : State :=
  (((s.setMem m).record ⟨.engine ch, .read, sa, w, v⟩).record ⟨.engine ch, .write, da, w, v⟩).updChan
    ch Channel.elementMoved

section ElementDone

variable (s : State) (ch : Nat) (m : Memory) (sa da w v : Nat)

theorem elementDone_mem : (elementDone s ch m sa da w v).mem = m := rfl

theorem elementDone_params : (elementDone s ch m sa da w v).params = s.params := rfl

theorem elementDone_hist : (elementDone s ch m sa da w v).hist =
    s.hist ++ [⟨.engine ch, .read, sa, w, v⟩, ⟨.engine ch, .write, da, w, v⟩] := by
  simp [elementDone]

theorem elementDone_sameExcept :
    SameExcept [.mem, .chans, .hist] s (elementDone s ch m sa da w v) :=
  sameExcept_updChan (sameExcept_record (sameExcept_record
    (sameExcept_setMem (sameExcept_refl _ s) (by simp) m) (by simp) _) (by simp) _) (by simp) _ _

theorem elementDone_otherChans : OtherChansSame s (elementDone s ch m sa da w v) ch :=
  otherChansSame_of_updChan (f := Channel.elementMoved) rfl

theorem elementDone_chan (hch : ch < s.nch) :
    (elementDone s ch m sa da w v).chan ch = (s.chan ch).elementMoved :=
  chan_updChan_self (((s.setMem m).record _).record _) ch _ hch

end ElementDone

/-- Where the next element of channel ch is read. -/
def srcAddr (s : State) (ch : Nat) : Nat :=
  elementAddr (s.chan ch).xfer.srcEnd (s.chan ch).xfer.rem (s.chan ch).xfer.width
    (s.chan ch).xfer.srcInc

/-- Where the next element of channel ch is written. -/
def dstAddr (s : State) (ch : Nat) : Nat :=
  elementAddr (s.chan ch).xfer.dstEnd (s.chan ch).xfer.rem (s.chan ch).xfer.width
    (s.chan ch).xfer.dstInc

theorem engineStep_readFault {f : BlockFault}
    (hr : s.readValue (.engine ch) (srcAddr s ch) (s.chan ch).xfer.width = .error f) :
    s.engineStep ch = { s with fault := some ⟨f, .engine ch, none, none⟩ } := by
  have he : s.engineElement ch = .error f := by
    unfold srcAddr at hr
    simp only [State.engineElement, hr]
  simp only [State.engineStep, he, State.takeFault, reduceCtorEq, if_false]

section Read

variable {v : Nat} (hr : s.readValue (.engine ch) (srcAddr s ch) (s.chan ch).xfer.width = .ok v)
include hr

theorem engineStep_writeFault {f : BlockFault}
    (hw : s.writeValue (.engine ch) (dstAddr s ch) (s.chan ch).xfer.width v = .error f) :
    s.engineStep ch = { s with fault := some ⟨f, .engine ch, none, none⟩ } := by
  have he : s.engineElement ch = .error f := by
    unfold srcAddr at hr
    unfold dstAddr at hw
    simp only [State.engineElement, hr, hw]
  simp only [State.engineStep, he, State.takeFault, reduceCtorEq, if_false]

theorem engineStep_moves {m : Memory}
    (hw : s.writeValue (.engine ch) (dstAddr s ch) (s.chan ch).xfer.width v = .ok (s.setMem m)) :
    s.engineStep ch =
      elementDone s ch m (srcAddr s ch) (dstAddr s ch) (s.chan ch).xfer.width v := by
  have he : s.engineElement ch =
      .ok (elementDone s ch m (srcAddr s ch) (dstAddr s ch) (s.chan ch).xfer.width v) := by
    unfold srcAddr at hr
    unfold dstAddr at hw
    simp only [State.engineElement, hr, hw, elementDone, srcAddr, dstAddr]
  simp only [State.engineStep, he]

end Read

/-! ### O35: an engine step as a choice -/

theorem needsGrant_iff (dir : BitVec 2) : needsGrant dir = true ↔ dir = 1 ∨ dir = 2 := by
  simp [needsGrant]

/-- A choice of an active channel is its engine's step where the transfer needs no grant or has it. -/
theorem agentStep_engine (hf : s.fault = none) (hch : ch < s.nch)
    (ha : (s.chan ch).active = true) (hr : 0 < (s.chan ch).xfer.rem) (granted : Bool) :
    s.agentStep (.engine ch granted) =
      if granted = false ∧ ((s.chan ch).xfer.dir = 1 ∨ (s.chan ch).xfer.dir = 2) then .next s
      else .next (s.engineStep ch) := by
  have hen : s.enabled (.engine ch granted) = true ↔
      ¬ (granted = false ∧ ((s.chan ch).xfer.dir = 1 ∨ (s.chan ch).xfer.dir = 2)) := by
    rw [← needsGrant_iff]
    cases granted <;> simp [State.enabled, hf, hch, ha, hr]
  unfold State.agentStep State.perform
  by_cases hg : granted = false ∧ ((s.chan ch).xfer.dir = 1 ∨ (s.chan ch).xfer.dir = 2)
  · rw [if_pos hg, if_neg (fun he => hen.1 he hg)]
  · rw [if_neg hg, if_pos (hen.2 hg)]

/-- Settles O35: the grant, the read side, the write side, and then what the element leaves. -/
theorem engineMovesElement : Obligations.EngineMovesElement := by
  unfold Obligations.EngineMovesElement
  rintro s ch _ _ granted _ hf hm hch ha rfl hr hw rfl rfl
  have hstep := agentStep_engine hf hch ha hr granted
  split
  · rename_i hg
    rw [hstep, if_pos hg]
  rename_i hg
  rw [if_neg hg] at hstep
  rw [hstep]
  refine ⟨fun hram hperiph =>
    congrArg _ (engineStep_readFault (readValue_off_bus hw hram hperiph _)), fun v hv => ?_⟩
  have hread : s.readValue (.engine ch) (srcAddr s ch) (s.chan ch).xfer.width = .ok v := by
    obtain ⟨hk, rfl⟩ | ⟨hk, rfl⟩ := hv
    · exact readValue_ram hw _ hk
    · exact readValue_periph hw _ hk
  have hlt : v < 2 ^ (8 * (s.chan ch).xfer.width) := by
    obtain ⟨-, rfl⟩ | ⟨-, rfl⟩ := hv
    · exact memRead_lt _ _ _
    · exact Nat.mod_lt _ (Nat.two_pow_pos _)
  obtain ⟨hsame, hxfer, hactive, hdone⟩ := elementMoved_spec ha hr
  refine ⟨fun hram hperiph =>
    congrArg _ (engineStep_writeFault hread (writeValue_off_bus hw hram hperiph _ v)), fun hk => ?_⟩
  obtain ⟨m, hwrite, hram, hperiph⟩ := writeValue_onBus hw (.engine ch) hk v
  refine ⟨_, congrArg _ (engineStep_moves hread hwrite), elementDone_sameExcept s ch m _ _ _ v,
    elementDone_hist .., elementDone_otherChans s ch m _ _ _ v, ?frame, ?xfer, ?active, ?done,
    fun hk => ?ram, fun hk => (elementDone_mem ..).trans (hperiph hk)⟩
  case frame | xfer | active | done =>
    rw [elementDone_chan _ _ _ _ _ _ _ hch]
    assumption
  case ram =>
    unfold BytesSameOutside
    rw [elementDone_mem, hram hk]
    exact ⟨(memRead_memWrite_same hm _ _ v).trans (Nat.mod_eq_of_lt hlt),
      fun b hb => read_memWrite_outside hm v hb⟩

/-! ### O36: a whole transfer -/

theorem sameExcept_trans {ps : List Part} (h1 : SameExcept ps s x) (h2 : SameExcept ps x y) :
    SameExcept ps s y := by
  intro p hp
  have e1 := h1 p hp
  have e2 := h2 p hp
  cases p with
  | cells | clock | alarm | choices =>
    simp only [Part.same] at e1 e2 ⊢
    simp only [e1, e2, and_self]
  | _ => exact Eq.trans e2 e1

theorem channelSame_trans {ps : List ChannelPart} {c c1 c2 : Channel}
    (h1 : ChannelSameExcept ps c c1) (h2 : ChannelSameExcept ps c1 c2) :
    ChannelSameExcept ps c c2 := by
  intro p hp
  have e1 := h1 p hp
  have e2 := h2 p hp
  cases p <;> exact Eq.trans e2 e1

/-- Channel ch's transfer has n elements of w bytes left, to be copied upwards from slo to dlo between disjoint buffers
in RAM. -/
structure Copying (s : State) (ch n w slo dlo : Nat) : Prop where
  memOk : s.MemOk
  exist : ch < s.nch
  active : (s.chan ch).active = true
  rem : (s.chan ch).xfer.rem = n
  width : (s.chan ch).xfer.width = w
  pos : 0 < w
  srcInc : (s.chan ch).xfer.srcInc = true
  dstInc : (s.chan ch).xfer.dstInc = true
  srcEnd : (s.chan ch).xfer.srcEnd.toNat = slo + (n - 1) * w
  dstEnd : (s.chan ch).xfer.dstEnd.toNat = dlo + (n - 1) * w
  srcRam : AllKind s slo (n * w) .ram
  dstRam : AllKind s dlo (n * w) .ram
  disjoint : slo + n * w ≤ dlo ∨ dlo + n * w ≤ slo

/-- The second state has the n bytes that were at slo copied to dlo, and differs besides in channel ch's transfer and in
HIST only. -/
structure CopiedBytes (s s' : State) (ch slo dlo n : Nat) : Prop where
  parts : SameExcept [.mem, .chans, .hist] s s'
  others : OtherChansSame s s' ch
  copied : ∀ j, j < n → s'.mem.read (dlo + j) = s.mem.read (slo + j)
  outside : BytesSameOutside s s' dlo n
  chan : ChannelSameExcept [.xfer, .active, .done] (s.chan ch) (s'.chan ch)

section Copy

variable {n k w slo dlo : Nat}

/-- Two copies that follow one another are one copy. -/
theorem CopiedBytes.append (h1 : CopiedBytes s x ch slo dlo n)
    (h2 : CopiedBytes x y ch (slo + n) (dlo + n) k)
    (hd : slo + (n + k) ≤ dlo ∨ dlo + (n + k) ≤ slo) : CopiedBytes s y ch slo dlo (n + k) where
  parts := sameExcept_trans h1.parts h2.parts
  others := by
    obtain ⟨hn1, hc1⟩ := h1.others
    obtain ⟨hn2, hc2⟩ := h2.others
    exact ⟨hn2.trans hn1, fun c hc => (hc2 c hc).trans (hc1 c hc)⟩
  copied j hj := by
    by_cases hjn : j < n
    · rw [h2.outside _ (by omega), h1.copied j hjn]
    · have hrest := h2.copied (j - n) (by omega)
      rw [show dlo + n + (j - n) = dlo + j by omega, show slo + n + (j - n) = slo + j by omega]
        at hrest
      rw [hrest, h1.outside _ (by omega)]
  outside b hb := by rw [h2.outside b (by omega), h1.outside b (by omega)]
  chan := channelSame_trans h1.chan h2.chan

theorem Copying.srcAddr_eq (h : Copying s ch (n + 1) w slo dlo) : srcAddr s ch = slo := by
  rw [srcAddr, elementAddr, if_pos h.srcInc, h.srcEnd, h.rem, h.width, Nat.add_sub_cancel]

theorem Copying.dstAddr_eq (h : Copying s ch (n + 1) w slo dlo) : dstAddr s ch = dlo := by
  rw [dstAddr, elementAddr, if_pos h.dstInc, h.dstEnd, h.rem, h.width, Nat.add_sub_cancel]

/-- The next step of the transfer moves the lowest element left. -/
theorem Copying.engineStep_eq (h : Copying s ch (n + 1) w slo dlo) :
    s.engineStep ch = elementDone s ch (memWrite s.mem dlo w (memRead s.mem slo w)) slo dlo w
      (memRead s.mem slo w) := by
  have hle : w ≤ (n + 1) * w := Nat.le_mul_of_pos_left w n.succ_pos
  have hread := readValue_ram h.pos (.engine ch) (allKind_sub h.srcRam le_rfl (m := w) (by omega))
  have hwrite := writeValue_ram h.pos (.engine ch) (allKind_sub h.dstRam le_rfl (m := w) (by omega))
    (memRead s.mem slo w)
  have hstep := engineStep_moves (s := s) (ch := ch)
    (by rw [h.srcAddr_eq, h.width]; exact hread) (by rw [h.dstAddr_eq, h.width]; exact hwrite)
  rwa [h.srcAddr_eq, h.dstAddr_eq, h.width] at hstep

theorem Copying.copiedBytes (h : Copying s ch (n + 1) w slo dlo) :
    CopiedBytes s (s.engineStep ch) ch slo dlo w := by
  obtain ⟨hsame, -⟩ := elementMoved_spec h.active (h.rem ▸ n.succ_pos)
  rw [h.engineStep_eq]
  refine ⟨elementDone_sameExcept s ch _ _ _ _ _, elementDone_otherChans s ch _ _ _ _ _,
    fun j hj => ?_, fun b hb => ?_, ?_⟩
  · rw [elementDone_mem, read_memWrite_memRead h.memOk _ _ hj]
  · rw [elementDone_mem, read_memWrite_outside h.memOk _ hb]
  · rwa [elementDone_chan _ _ _ _ _ _ _ h.exist]

/-- While elements are left the transfer goes on one element further up. -/
theorem Copying.next (h : Copying s ch (n + 2) w slo dlo) :
    Copying (s.engineStep ch) ch (n + 1) w (slo + w) (dlo + w) := by
  have hrem := h.rem
  obtain ⟨-, hxfer, hactive, -⟩ := elementMoved_spec h.active (by omega)
  have hchan : (s.engineStep ch).chan ch = (s.chan ch).elementMoved := by
    rw [h.engineStep_eq, elementDone_chan _ _ _ _ _ _ _ h.exist]
  have hparams : (s.engineStep ch).params = s.params := by rw [h.engineStep_eq, elementDone_params]
  have hsplit : (n + 2) * w = w + (n + 1) * w := by ring
  have hsplit' : (n + 1) * w = w + n * w := by ring
  obtain ⟨hnch, -⟩ := h.copiedBytes.others
  have hsrcEnd : (s.chan ch).xfer.srcEnd.toNat = slo + (n + 1) * w := h.srcEnd
  have hdstEnd : (s.chan ch).xfer.dstEnd.toNat = dlo + (n + 1) * w := h.dstEnd
  have hdisjoint := h.disjoint
  refine ⟨engineStep_memOk h.memOk ch, hnch ▸ h.exist, ?_, ?_, ?_, h.pos, ?_, ?_, ?_, ?_, ?_, ?_,
    by omega⟩
  · rw [hchan, hactive]
    omega
  · rw [hchan, hxfer]
    simp only
    omega
  · rw [hchan, hxfer]
    exact h.width
  · rw [hchan, hxfer]
    exact h.srcInc
  · rw [hchan, hxfer]
    exact h.dstInc
  · rw [hchan, hxfer]
    simp only [Nat.add_sub_cancel]
    omega
  · rw [hchan, hxfer]
    simp only [Nat.add_sub_cancel]
    omega
  · rw [AllKind, hparams]
    exact allKind_sub h.srcRam (by omega) (by omega)
  · rw [AllKind, hparams]
    exact allKind_sub h.dstRam (by omega) (by omega)

/-- The steps of a whole transfer copy every element and complete the channel. -/
theorem Copying.complete : ∀ {n : Nat} {s : State} {slo dlo : Nat},
    Copying s ch (n + 1) w slo dlo →
      CopiedBytes s ((fun s => State.engineStep s ch)^[n + 1] s) ch slo dlo ((n + 1) * w) ∧
      (((fun s => State.engineStep s ch)^[n + 1] s).chan ch).active = false ∧
      (((fun s => State.engineStep s ch)^[n + 1] s).chan ch).done = true ∧
      (((fun s => State.engineStep s ch)^[n + 1] s).chan ch).xfer.rem = 0 := by
  intro n
  induction n with
  | zero =>
    intro s slo dlo h
    have hrem := h.rem
    obtain ⟨-, hxfer, hactive, hdone⟩ := elementMoved_spec h.active (by omega)
    rw [Function.iterate_one, Nat.zero_add, Nat.one_mul]
    refine ⟨h.copiedBytes, ?_⟩
    rw [h.engineStep_eq, elementDone_chan _ _ _ _ _ _ _ h.exist, hdone, hxfer, ← Bool.not_eq_true,
      hactive, hrem]
    simp
  | succ n ih =>
    intro s slo dlo h
    have hsplit : (n + 1 + 1) * w = w + (n + 1) * w := by ring
    obtain ⟨hcopied, hflags⟩ := ih h.next
    have hd := h.disjoint
    rw [hsplit] at hd ⊢
    rw [Function.iterate_succ_apply]
    exact ⟨h.copiedBytes.append hcopied hd, hflags⟩

end Copy

/-- Settles O36, by induction on the elements left: each step moves the lowest one. -/
theorem wholeTransferCopies : Obligations.WholeTransferCopies := by
  unfold Obligations.WholeTransferCopies
  rintro s _ ch _ _ slo dlo _ - hm hch ha rfl rfl hpos rfl hw hsi hdi hse hde hsr hdr hdis rfl
  obtain ⟨n, hn⟩ := Nat.exists_eq_succ_of_ne_zero hpos.ne'
  have h : Copying s ch (n + 1) (s.chan ch).xfer.width slo dlo := by
    rw [hn] at hse hde hsr hdr hdis
    exact ⟨hm, hch, ha, hn, rfl, hw, hsi, hdi, hse, hde, hsr, hdr, hdis⟩
  rw [hn]
  obtain ⟨⟨hparts, hothers, hcopied, houtside, hchan⟩, hflags⟩ := h.complete
  exact ⟨hparts, hothers, hcopied, houtside, hchan, hflags⟩

end Sys2Proof.Machine.Proofs

/-! SUPPORT. O37: the DMA interrupt shim (42_dma.md R193). Its loop has served the channels below some number; one
more channel served is the step of the induction. -/

namespace Sys2Proof.Machine.Proofs

open Sys2Proof.Machine.Laws

variable {s x : State} {ch m : Nat}

/-! ### One channel -/

theorem cell_dmaCellId (hch : ch < s.nch) (h : ch < 64) :
    s.cell (dmaCellId ch) = some (s.chan ch).waker := by
  unfold State.cell
  rw [dmaCellId_class ch h, dmaCellId_instance ch h, chan_eq_getElem s ch hch]
  simp only [List.getElem?_eq_getElem (show ch < s.chans.length from hch)]
  rfl

/-- Waking the cell of a channel empties it and readies the task it held. -/
theorem wakeCell_dmaCellId (hch : ch < s.nch) (h : ch < 64) :
    SameExcept [.tasks, .chans] s (s.wakeCell (dmaCellId ch)) ∧
      (s.wakeCell (dmaCellId ch)).chan ch = { s.chan ch with waker := none } ∧
      (∀ c, c ≠ ch → (s.wakeCell (dmaCellId ch)).chan c = s.chan c) ∧
      ∀ u, u < s.ntasks → (((s.wakeCell (dmaCellId ch)).task u).ready = true ↔
        (s.task u).ready = true ∨ (s.chan ch).waker = some u) := by
  have hcell := cell_dmaCellId hch h
  have hready := fun u (hu : u < s.ntasks) => wakeCell_task_ready_iff hu hcell
  obtain ⟨hd, -, e⟩ | ⟨hnone, e⟩ := wakeCell_cases s (dmaCellId ch)
  · rw [setCell_dmaCellId h] at e
    have hparts := sameExcept_updChan_updTask s ch hd (fun c => { c with waker := none })
      fun k => { k with ready := true }
    have hself := chan_updChan_self s ch (fun c => { c with waker := none }) hch
    have hne := fun c => chan_updChan_ne s ch c fun c => { c with waker := none }
    rw [e] at hready ⊢
    exact ⟨hparts, hself, hne, hready⟩
  · have hw : (s.chan ch).waker = none := by
      rw [hcell] at hnone
      exact Option.eq_none_iff_forall_ne_some.2 fun hd hs => hnone hd (congrArg some hs)
    rw [e] at hready ⊢
    exact ⟨sameExcept_refl _ s, by rw [← hw], fun _ _ => rfl, hready⟩

/-- A channel the shim has served. -/
def servedChannel (c : Channel) : Channel := { c with inten := false, waker := none }

/-- What serving a completed channel changes: its INTEN and cell, and READY of the task the cell held. -/
theorem serveChannel_irq (hch : ch < s.nch) (h : ch < 64) (hirq : (s.chan ch).irq = true) :
    SameExcept [.tasks, .chans] s (s.serveChannel ch) ∧
      (s.serveChannel ch).chan ch = servedChannel (s.chan ch) ∧
      (∀ c, c ≠ ch → (s.serveChannel ch).chan c = s.chan c) ∧
      ∀ u, u < s.ntasks → (((s.serveChannel ch).task u).ready = true ↔
        (s.task u).ready = true ∨ (s.chan ch).waker = some u) := by
  have hserve : s.serveChannel ch =
      (s.updChan ch fun c => { c with inten := false }).wakeCell (dmaCellId ch) := if_pos hirq
  obtain ⟨hparts, hself, hne, hready⟩ := wakeCell_dmaCellId
    (s := s.updChan ch fun c => { c with inten := false }) ((updChan_nch s ch _).symm ▸ hch) h
  rw [chan_updChan_self s ch _ hch] at hself hready
  rw [hserve]
  exact ⟨sameExcept_trans (sameExcept_updChan (sameExcept_refl _ s) (by simp) ch _) hparts, hself,
    fun c hc => (hne c hc).trans (chan_updChan_ne s ch c _ hc), hready⟩

/-! ### The loop -/

/-- The shim has served the channels below m of state s: x differs from s in their INTEN and cells, and in READY of the
tasks that the cells of the completed ones held. -/
structure ServedBelow (s x : State) (m : Nat) : Prop where
  parts : SameExcept [.tasks, .chans] s x
  frame : Frame readyOnly s x
  chan : ∀ c, x.chan c =
    if c < m ∧ (s.chan c).irq = true then servedChannel (s.chan c) else s.chan c
  ready : ∀ u, u < s.ntasks → ((x.task u).ready = true ↔ (s.task u).ready = true ∨
    ∃ c, c < m ∧ (s.chan c).irq = true ∧ (s.chan c).waker = some u)

theorem servedBelow_zero (s : State) : ServedBelow s s 0 :=
  ⟨sameExcept_refl _ s, Frame.refl _ s, fun c => by simp, fun u _ => by simp⟩

theorem frame_serveChannel (h : Frame readyOnly s x) (ch : Nat) :
    Frame readyOnly s (x.serveChannel ch) := by
  obtain e | ⟨-, e⟩ := serveChannel_cases x ch <;> rw [e]
  · exact h
  · exact (h.updChan ch _).wakeCell ready_mem_readyOnly _

/-- The next channel is not yet served. -/
theorem ServedBelow.chan_self (h : ServedBelow s x m) : x.chan m = s.chan m := by
  rw [h.chan, if_neg (fun ⟨hlt, _⟩ => absurd hlt (lt_irrefl m))]

/-- A channel that does not raise DMA_IRQ is passed by. -/
theorem ServedBelow.pass (h : ServedBelow s x m) (hirq : ¬ (s.chan m).irq = true) :
    ServedBelow s (x.serveChannel m) (m + 1) := by
  have hchan := h.chan_self
  have e : x.serveChannel m = x := if_neg (by rwa [hchan])
  have hstep : ∀ c, c < m + 1 ∧ (s.chan c).irq = true ↔ c < m ∧ (s.chan c).irq = true := fun c => by
    constructor
    · rintro ⟨hlt, hc⟩
      have hne : c ≠ m := by
        rintro rfl
        exact hirq hc
      exact ⟨by omega, hc⟩
    · exact fun ⟨hlt, hc⟩ => ⟨by omega, hc⟩
  rw [e]
  refine ⟨h.parts, h.frame, fun c => ?_, fun u hu => ?_⟩
  · simp only [h.chan, hstep]
  · simp only [h.ready u hu, ← and_assoc, hstep]

/-- A completed channel is served. -/
theorem ServedBelow.serve (h : ServedBelow s x m) (hm : m < s.nch) (h64 : m < 64)
    (hirq : (s.chan m).irq = true) : ServedBelow s (x.serveChannel m) (m + 1) := by
  have hchan := h.chan_self
  obtain ⟨hparts, hself, hne, hready⟩ :=
    serveChannel_irq (s := x) (h.frame.nch ▸ hm) h64 (by rwa [hchan])
  refine ⟨sameExcept_trans h.parts hparts, frame_serveChannel h.frame m, fun c => ?_,
    fun u hu => ?_⟩
  · by_cases hc : c = m
    · subst hc
      rw [hself, hchan, if_pos ⟨Nat.lt_succ_self c, hirq⟩]
    · rw [hne c hc, h.chan]
      simp only [show c < m + 1 ↔ c < m by omega]
  · rw [hready u (h.frame.ntasks ▸ hu), h.ready u hu, hchan, or_assoc]
    refine or_congr_right ⟨?_, ?_⟩
    · rintro (⟨c, hlt, hc⟩ | hw)
      · exact ⟨c, by omega, hc⟩
      · exact ⟨m, by omega, hirq, hw⟩
    · rintro ⟨c, hlt, hc, hw⟩
      obtain hlt | rfl := Nat.lt_succ_iff_lt_or_eq.1 hlt
      · exact .inl ⟨c, hlt, hc, hw⟩
      · exact .inr hw

theorem servedBelow_foldl (h64 : s.nch ≤ 64) : ∀ m, m ≤ s.nch →
    ServedBelow s ((List.range m).foldl State.serveChannel s) m := by
  intro m
  induction m with
  | zero => exact fun _ => servedBelow_zero s
  | succ m ih =>
    intro hm
    have h := ih (by omega)
    rw [List.range_succ, List.foldl_append]
    by_cases hirq : (s.chan m).irq = true
    · exact h.serve (by omega) (by omega) hirq
    · exact h.pass hirq

theorem servedBelow_dmaShim (h64 : s.nch ≤ 64) : ServedBelow s s.dmaShim s.nch :=
  servedBelow_foldl h64 s.nch le_rfl

/-- No channel the shim has served, or passed by, raises DMA_IRQ. -/
theorem ServedBelow.dmaIrq (h : ServedBelow s x s.nch) : x.dmaIrq = false := by
  rw [← Bool.not_eq_true, dmaIrq_iff]
  rintro ⟨c, hc, hdone, hinten⟩
  rw [h.chan] at hdone hinten
  split at hinten
  · cases hinten
  · rename_i hno
    rw [if_neg hno] at hdone
    exact hno ⟨h.frame.nch ▸ hc, by simp [Channel.irq, hdone, hinten]⟩

theorem irq_iff (c : Channel) : c.irq = true ↔ c.done = true ∧ c.inten = true := by
  simp [Channel.irq]

theorem channelSame_served (c : Channel) : ChannelSameExcept [.inten, .waker] c (servedChannel c) := by
  intro p hp
  cases p with
  | inten | waker => exact absurd (by simp) hp
  | _ => rfl

/-- Settles O37: after its loop the shim has served every channel. -/
theorem shimServesAllChannels : Obligations.ShimServesAllChannels := by
  unfold Obligations.ShimServesAllChannels
  intro s hf h64 hirq
  have h := servedBelow_dmaShim h64
  have hstep : s.agentStep .dmaShim = .next s.dmaShim := by
    simp [State.agentStep, State.enabled, State.perform, hf, hirq]
  refine ⟨_, hstep, h.parts, h.frame.counts, h.dmaIrq, fun ch hch => ?_,
    fun u hu => ⟨h.frame.tasks u, ?_⟩⟩
  · rw [h.chan ch]
    by_cases hc : (s.chan ch).done = true ∧ (s.chan ch).inten = true
    · rw [if_pos ⟨hch, (irq_iff _).2 hc⟩, if_pos hc]
      exact ⟨channelSame_served _, rfl, rfl⟩
    · rw [if_neg (fun ⟨_, hi⟩ => hc ((irq_iff _).1 hi)), if_neg hc]
      exact ⟨fun p _ => by cases p <;> rfl, rfl⟩
  · simp only [h.ready u hu, irq_iff, and_assoc]

end Sys2Proof.Machine.Proofs

/-! SUPPORT. O41, O42 and O44: the logical time (43_time.md R220, R221), and the alarm procedures POP_EXPIRED,
SET_ALARM and REARM (R222 to R224) in closed form: REARM pops what has expired and then looks at the queue once. -/

namespace Sys2Proof.Machine.Proofs

open Sys2Proof.Machine.Laws

variable {s x : State} {n : Nat}

/-! ### The logical time -/

/-- The counter read at period p has bit 31 flipped exactly when p is odd. -/
theorem logicalTime_eq_xor (p c : Word32) :
    logicalTime p c = p.toNat * 2 ^ 31 + (c.toNat ^^^ (p.toNat % 2) * 2 ^ 31) := by
  have hbit : (((p.extractLsb' 0 1).setWidth 32) <<< 31).toNat = p.toNat % 2 * 2 ^ 31 := by
    simp only [BitVec.toNat_shiftLeft, BitVec.toNat_setWidth, BitVec.extractLsb'_toNat,
      Nat.shiftLeft_eq, Nat.shiftRight_zero]
    omega
  rw [logicalTime, BitVec.toNat_xor, hbit, periodLength]

theorem bit_xor_bit {a b : Nat} (ha : a < 2) (hb : b < 2) :
    a ^^^ b = if a = b then 0 else 1 := by
  obtain rfl | rfl : a = 0 ∨ a = 1 := by omega
  all_goals obtain rfl | rfl : b = 0 ∨ b = 1 := by omega
  all_goals rfl

/-- Flipping bit 31 of a 32-bit number leaves the bits below it. -/
theorem xor_bit31 {c b : Nat} (hc : c < 2 ^ 32) (hb : b < 2) :
    c ^^^ b * 2 ^ 31 = (if c / 2 ^ 31 = b then 0 else 1) * 2 ^ 31 + c % 2 ^ 31 := by
  have hlow : (c ^^^ b * 2 ^ 31) % 2 ^ 31 = c % 2 ^ 31 := by
    rw [Nat.xor_mod_two_pow, Nat.mul_mod_left, Nat.xor_zero]
  have hhigh : (c ^^^ b * 2 ^ 31) / 2 ^ 31 = if c / 2 ^ 31 = b then 0 else 1 := by
    rw [Nat.xor_div_two_pow, Nat.mul_div_cancel _ (Nat.two_pow_pos 31),
      bit_xor_bit (by omega) hb]
  rw [← hlow, ← hhigh, Nat.div_add_mod']

/-- The time a counter stands for, by the side of the wrap it belongs to (43_time.md R220). -/
theorem logicalTime_eq (p c : Word32) :
    logicalTime p c =
      (if c.toNat / 2 ^ 31 = p.toNat % 2 then p.toNat else p.toNat + 1) * 2 ^ 31 +
        c.toNat % 2 ^ 31 := by
  rw [logicalTime_eq_xor, xor_bit31 c.isLt (Nat.mod_lt _ Nat.two_pos)]
  split
  · omega
  · omega

theorem subCount_eq (s : State) : s.subCount = s.count.toNat % 2 ^ 31 := by
  simp [State.subCount, BitVec.extractLsb'_toNat]

theorem nowi_eq (s : State) : s.nowi = s.period.toNat * 2 ^ 31 + s.count.toNat % 2 ^ 31 := by
  rw [State.nowi, subCount_eq, periodLength]

theorem nowi_lt_nextWrap (s : State) : s.nowi < (s.period.toNat + 1) * 2 ^ 31 := by
  rw [nowi_eq]
  omega

theorem parityOk_iff (s : State) :
    s.ParityOk ↔ s.count.toNat / 2 ^ 31 = s.period.toNat % 2 := by
  have hc := s.count.isLt
  rw [State.ParityOk, ← BitVec.toNat_inj]
  simp only [BitVec.extractLsb'_toNat, Nat.shiftRight_eq_div_pow]
  omega

/-- A counter on PERIOD's own side of the wrap reads as NOWI. -/
theorem logicalTime_period (h : s.ParityOk) : logicalTime s.period s.count = s.nowi := by
  rw [logicalTime_eq, if_pos ((parityOk_iff s).1 h), nowi_eq]

/-- Settles O41: flipping bit 31 moves the counter to the period it belongs to. -/
theorem logicalTimeExact : Obligations.LogicalTimeExact := by
  unfold Obligations.LogicalTimeExact
  refine ⟨fun p c => ⟨logicalTime_eq_xor p c, logicalTime_eq p c, ?_⟩,
    fun s => ⟨nowi_eq s, logicalTime_period⟩⟩
  have hp := p.isLt
  rw [logicalTime_eq]
  split
  · omega
  · omega

/-- Settles O42: the counter's bit 31 tells an even number of wraps since the period was read from an odd one. -/
theorem tornReadCorrected : Obligations.TornReadCorrected := by
  unfold Obligations.TornReadCorrected
  intro s p w hpar hw
  rw [logicalTime_eq, nowi_eq, (parityOk_iff s).1 hpar, hw]
  split
  · omega
  · omega

/-! ### POP_EXPIRED (43_time.md R222) -/

theorem expired_iff (e : QueueEntry) (n : Nat) : e.expired n = true ↔ e.ts.toNat ≤ n := by
  simp [QueueEntry.expired]

theorem not_expired_eq (n : Nat) :
    (fun e : QueueEntry => !e.expired n) = fun e => decide (n < e.ts.toNat) := by
  funext e
  simp only [QueueEntry.expired, ← decide_not, Nat.not_le]

theorem popExpired_queue (s : State) (n : Nat) :
    (s.popExpired n).queue = s.queue.filter fun e => decide (n < e.ts.toNat) := by
  obtain ⟨ts, e, -⟩ := popExpired_other s n
  rw [e, not_expired_eq]

theorem popExpired_nowi (s : State) (n : Nat) : (s.popExpired n).nowi = s.nowi := by
  obtain ⟨ts, e, -⟩ := popExpired_other s n
  rw [e]
  rfl

theorem popExpired_compare (s : State) (n : Nat) : (s.popExpired n).compare = s.compare := by
  obtain ⟨ts, e, -⟩ := popExpired_other s n
  rw [e]

/-- What POP_EXPIRED leaves has not expired. -/
theorem popExpired_later (s : State) (n : Nat) : ∀ e ∈ (s.popExpired n).queue, n < e.ts.toNat := by
  intro e he
  rw [popExpired_queue] at he
  simpa using List.of_mem_filter he

theorem filter_later_eq {q : List QueueEntry} (h : ∀ e ∈ q, n < e.ts.toNat) :
    q.filter (fun e => decide (n < e.ts.toNat)) = q :=
  List.filter_eq_self.2 fun e he => decide_eq_true (h e he)

/-- Where nothing has expired, POP_EXPIRED changes nothing. -/
theorem popExpired_of_later (h : ∀ e ∈ s.queue, n < e.ts.toNat) : s.popExpired n = s := by
  have hnone : (s.queue.filter fun e => e.expired n) = [] := by
    simpa [expired_iff] using h
  rw [State.popExpired, hnone, not_expired_eq, filter_later_eq h]
  rfl

theorem readyAll_setAlarmRegs (es : List QueueEntry) (en : Bool) (ts : Option Word) : ∀ s : State,
    (s.setAlarmRegs en ts).readyAll es = (s.readyAll es).setAlarmRegs en ts := by
  induction es with
  | nil => exact fun _ => rfl
  | cons e es ih => exact fun s => ih (s.ready e.handle)

theorem popExpired_setAlarmRegs (s : State) (n : Nat) (en : Bool) (ts : Option Word) :
    (s.setAlarmRegs en ts).popExpired n = (s.popExpired n).setAlarmRegs en ts :=
  readyAll_setAlarmRegs _ en ts (s.setQueue _)

/-- POP_EXPIRED does what its rule says. -/
theorem poppedExpired_popExpired (s : State) (n : Nat) : PoppedExpired s (s.popExpired n) n := by
  refine ⟨List.Perm.of_eq (popExpired_queue s n), fun u hu => ?_⟩
  rw [popExpired_task s n u hu]
  refine ⟨taskSame_ready (by simp) _ _, ?_⟩
  simp [expired_iff, and_comm]

/-- Only the queue and the tasks enter into what has been popped. -/
theorem poppedExpired_congr {s1 x1 : State} (h : PoppedExpired s x n) (hq : s1.queue = s.queue)
    (ht : s1.tasks = s.tasks) (hxq : x1.queue = x.queue) (hxt : x1.tasks = x.tasks) :
    PoppedExpired s1 x1 n := by
  unfold PoppedExpired at h ⊢
  simpa only [hq, hxq, ntasks_congr ht, task_congr _ ht, task_congr _ hxt] using h

/-- Where nothing has expired, leaving queue and tasks alone is popping what has. -/
theorem poppedExpired_of_later (h : ∀ e ∈ s.queue, n < e.ts.toNat) : PoppedExpired s s n := by
  have hpop := poppedExpired_popExpired s n
  rwa [popExpired_of_later h] at hpop

/-! ### SET_ALARM (43_time.md R223) -/

theorem setAlarm_overdue {ts : Word} (h : ts.toNat ≤ s.nowi) :
    s.setAlarm ts = s.setAlarmRegs false none :=
  if_pos h

theorem setAlarm_later {ts : Word} (h : s.nowi < ts.toNat) :
    s.setAlarm ts =
      (s.setCompare (ts.extractLsb' 0 31)).setAlarmRegs (s.beforeWrap ts) (some ts) :=
  if_neg (Nat.not_le.2 h)

theorem beforeWrap_iff (s : State) (ts : Word) :
    s.beforeWrap ts = true ↔ ts.toNat < (s.period.toNat + 1) * 2 ^ 31 := by
  rw [State.beforeWrap, periodLength, decide_eq_true_eq]

/-- The alarm stands for `ts`: COMPARE holds its low bits, and it is armed exactly if it comes before the next wrap. -/
structure AlarmSetFor (s : State) (ts : Word) : Prop where
  alarmTs : s.alarmTs = some ts
  compare : s.compare.toNat = ts.toNat % 2 ^ 31
  armed : s.alarmEn = true ↔ ts.toNat < (s.period.toNat + 1) * 2 ^ 31

theorem alarmSetFor_setAlarm {ts : Word} (h : s.nowi < ts.toNat) :
    AlarmSetFor (s.setAlarm ts) ts := by
  rw [setAlarm_later h]
  exact ⟨rfl, BitVec.extractLsb'_toNat .., beforeWrap_iff s ts⟩

theorem setAlarm_setAlarmRegs (s : State) (en : Bool) (a : Option Word) (ts : Word) :
    (s.setAlarmRegs en a).setAlarm ts = s.setAlarm ts :=
  rfl

/-! ### REARM (43_time.md R224) -/

/-- REARM of a queue with no expired entry: the alarm for the earliest deadline, or none. -/
def armNext (s : State) : State :=
  match queueMin s.queue with
  | none => s.setAlarmRegs false none
  | some m => s.setAlarm m

theorem armNext_none (h : queueMin s.queue = none) : armNext s = s.setAlarmRegs false none := by
  simp only [armNext, h]

theorem armNext_some {m : Word} (h : queueMin s.queue = some m) : armNext s = s.setAlarm m := by
  simp only [armNext, h]

theorem armNext_setAlarmRegs (s : State) (en : Bool) (ts : Option Word) :
    armNext (s.setAlarmRegs en ts) = armNext s := by
  cases h : queueMin s.queue with
  | none => rw [armNext_none h, armNext_none (s := s.setAlarmRegs en ts) h]; rfl
  | some m => rw [armNext_some h, armNext_some (s := s.setAlarmRegs en ts) h, setAlarm_setAlarmRegs]

theorem armNext_eq (s : State) :
    ∃ c en a, armNext s = { s with compare := c, alarmEn := en, alarmTs := a } := by
  cases h : queueMin s.queue with
  | none => exact ⟨s.compare, false, none, armNext_none h⟩
  | some m => rw [armNext_some h]; exact setAlarm_other s m

/-- A queue that holds an entry has a QMIN, and not above the entry's timestamp. -/
theorem exists_queueMin {q : List QueueEntry} {e : QueueEntry} (he : e ∈ q) :
    ∃ m, queueMin q = some m ∧ m.toNat ≤ e.ts.toNat := by
  cases hm : queueMin q with
  | none => simp [(queueMin_none_iff q).1 hm] at he
  | some m =>
    obtain ⟨-, hmin⟩ := queueMin_some q m hm
    exact ⟨m, rfl, hmin e he⟩

theorem queueMin_later {m : Word} (h : ∀ e ∈ s.queue, n < e.ts.toNat)
    (hm : queueMin s.queue = some m) : n < m.toNat := by
  obtain ⟨⟨e, he, rfl⟩, -⟩ := queueMin_some _ _ hm
  exact h e he

theorem rearmLoop_of_later (k : Nat) (h : ∀ e ∈ s.queue, s.nowi < e.ts.toNat) :
    s.rearmLoop (k + 1) = armNext s := by
  rw [State.rearmLoop]
  cases hm : queueMin s.queue with
  | none => exact (armNext_none hm).symm
  | some m =>
    rw [armNext_some hm]
    exact if_pos (decide_eq_true (queueMin_later h hm))

theorem rearmLoop_of_expired {k : Nat} {m : Word} (hm : queueMin s.queue = some m)
    (h : m.toNat ≤ s.nowi) :
    s.rearmLoop (k + 1) = ((s.popExpired s.nowi).setAlarmRegs false none).rearmLoop k := by
  have hset : s.setAlarmResult m = false := decide_eq_false (Nat.not_lt.2 h)
  simp only [State.rearmLoop, hm, hset, Bool.false_eq_true, if_false, setAlarm_overdue h,
    popExpired_setAlarmRegs]

/-- REARM pops what has expired, and then looks at the queue once: its second pass finds no expired entry. -/
theorem rearm_eq (s : State) : s.rearm = armNext (s.popExpired s.nowi) := by
  by_cases h : ∀ e ∈ s.queue, s.nowi < e.ts.toNat
  · rw [popExpired_of_later h]
    exact rearmLoop_of_later _ h
  · simp only [not_forall, Nat.not_lt] at h
    obtain ⟨e, he, hexp⟩ := h
    obtain ⟨m, hm, hmin⟩ := exists_queueMin he
    obtain ⟨k, hk⟩ := Nat.exists_eq_add_one.2 (List.length_pos_of_mem he)
    have hlater : ∀ e ∈ ((s.popExpired s.nowi).setAlarmRegs false none).queue,
        ((s.popExpired s.nowi).setAlarmRegs false none).nowi < e.ts.toNat := by
      have hnowi : ((s.popExpired s.nowi).setAlarmRegs false none).nowi = s.nowi :=
        popExpired_nowi s s.nowi
      rw [hnowi]
      exact popExpired_later s s.nowi
    rw [State.rearm, rearmLoop_of_expired hm (hmin.trans hexp), hk,
      rearmLoop_of_later k hlater, armNext_setAlarmRegs]

theorem rearm_queue (s : State) :
    s.rearm.queue = s.queue.filter fun e => decide (s.nowi < e.ts.toNat) := by
  obtain ⟨c, en, a, e⟩ := armNext_eq (s.popExpired s.nowi)
  rw [rearm_eq, e, ← popExpired_queue]

theorem rearm_period (s : State) : s.rearm.period = s.period := by
  obtain ⟨c, en, a, ts, q, e, -⟩ := rearm_other s
  rw [e]

theorem rearm_ntasks (s : State) : s.rearm.ntasks = s.ntasks := by
  obtain ⟨c, en, a, ts, q, e, hlen, -⟩ := rearm_other s
  rw [e]
  exact hlen

theorem poppedExpired_rearm (s : State) : PoppedExpired s s.rearm s.nowi := by
  obtain ⟨c, en, a, e⟩ := armNext_eq (s.popExpired s.nowi)
  refine poppedExpired_congr (poppedExpired_popExpired s s.nowi) rfl rfl ?_ ?_
  · rw [rearm_eq, e]
  · rw [rearm_eq, e]

/-- REARM that leaves nothing queued disarms the alarm. -/
theorem rearm_idle (h : s.rearm.queue = []) :
    s.rearm.alarmEn = false ∧ s.rearm.alarmTs = none ∧ s.rearm.compare = s.compare := by
  rw [rearm_queue, ← popExpired_queue] at h
  rw [rearm_eq, armNext_none ((queueMin_none_iff _).2 h)]
  exact ⟨rfl, rfl, popExpired_compare s s.nowi⟩

/-- REARM that leaves deadlines queued sets the alarm for the earliest, which is in the future. -/
theorem rearm_armed {m : Word} (h : queueMin s.rearm.queue = some m) :
    s.nowi < m.toNat ∧ AlarmSetFor s.rearm m := by
  rw [rearm_queue, ← popExpired_queue] at h
  have hlater := queueMin_later (popExpired_later s s.nowi) h
  rw [rearm_eq, armNext_some h]
  exact ⟨hlater, alarmSetFor_setAlarm (by rwa [popExpired_nowi])⟩

/-! ### The parts of the state -/

theorem sameExcept_setAlarmRegs {ps : List Part} (h : SameExcept ps s x) (ha : .alarm ∈ ps)
    (en : Bool) (ts : Option Word) : SameExcept ps s (x.setAlarmRegs en ts) := by
  intro p hp
  cases p with
  | alarm => exact absurd ha hp
  | _ => exact h _ hp

theorem sameExcept_setCompare {ps : List Part} (h : SameExcept ps s x) (ha : .alarm ∈ ps)
    (v : BitVec 31) : SameExcept ps s (x.setCompare v) := by
  intro p hp
  cases p with
  | alarm => exact absurd ha hp
  | _ => exact h _ hp

theorem sameExcept_setQueue {ps : List Part} (h : SameExcept ps s x) (hq : .queue ∈ ps)
    (q : List QueueEntry) : SameExcept ps s (x.setQueue q) := by
  intro p hp
  cases p with
  | queue => exact absurd hq hp
  | _ => exact h _ hp

/-- The alarm procedures change tasks, alarm and queue only. -/
theorem sameExcept_keptByTimers {ps : List Part} (ht : .tasks ∈ ps) (ha : .alarm ∈ ps)
    (hq : .queue ∈ ps) (s : State) : KeptByTimers (SameExcept ps s) where
  alarmRegs _ _ _ h := sameExcept_setAlarmRegs h ha _ _
  compare _ _ h := sameExcept_setCompare h ha _
  shrinkQueue _ _ h := sameExcept_setQueue h hq _
  ready _ hd h := sameExcept_updTask h ht hd _

theorem rearm_sameExcept (s : State) : SameExcept [.tasks, .alarm, .queue] s s.rearm :=
  (sameExcept_keptByTimers (by simp) (by simp) (by simp) s).rearm s (sameExcept_refl _ s)

/-- Settles O44: REARM is POP_EXPIRED and then the alarm for the earliest deadline left. -/
theorem rearmFindsNextDeadline : Obligations.RearmFindsNextDeadline := by
  unfold Obligations.RearmFindsNextDeadline
  intro s
  refine ⟨rearm_sameExcept s, poppedExpired_rearm s, fun hidle => ?_, rearm_ntasks s,
    fun m hm => ?_⟩
  · obtain ⟨hen, hts, -⟩ := rearm_idle hidle
    exact ⟨hen, hts⟩
  · obtain ⟨hfuture, hset⟩ := rearm_armed hm
    exact ⟨hfuture, hset.alarmTs, hset.compare, rearm_period s ▸ hset.armed⟩

end Sys2Proof.Machine.Proofs

/-! SUPPORT. O43 and O46: the tick source and the tick handler (43_time.md R225, R226, R240 to R245). The handler first
advances the clock, arming a deferred alarm on a wrap; then ALARM_FIRE, which is REARM, runs where the alarm is due. -/

namespace Sys2Proof.Machine.Proofs

open Sys2Proof.Machine.Laws

variable {s x : State} {n : Nat}

/-! ### Setting the clock -/

theorem setClock_nowi (s : State) (p : Word32) (c : Nat) :
    (s.setClock p c).nowi = p.toNat * 2 ^ 31 + c % 2 ^ 31 := by
  have hsub : (s.setClock p c).subCount = c % 2 ^ 31 :=
    (congrArg BitVec.toNat BitVec.extractLsb'_append_eq_right).trans (BitVec.toNat_ofNat c 31)
  rw [State.nowi, hsub, periodLength]
  rfl

/-- The alarm after NEXT_PERIOD: armed if it was, or if it lies in the period now begun (43_time.md R225). -/
theorem nextPeriod_eq (s : State) :
    ∃ en, s.nextPeriod = { s with alarmEn := en } ∧
      (en = true ↔ s.alarmEn = true ∨
        ∃ ts, s.alarmTs = some ts ∧ ts.toNat < (s.period.toNat + 1) * 2 ^ 31) := by
  unfold State.nextPeriod
  split
  · rename_i ts hts
    split
    · rename_i hw
      refine ⟨true, ?_, iff_of_true rfl (.inr ⟨ts, hts, (beforeWrap_iff s ts).1 hw⟩)⟩
      rw [← hts]
      rfl
    · rename_i hw
      refine ⟨s.alarmEn, rfl, (or_iff_left ?_).symm⟩
      rintro ⟨ts', hts', hlt⟩
      obtain rfl : ts = ts' := Option.some.inj (hts.symm.trans hts')
      exact hw ((beforeWrap_iff s ts).2 hlt)
  · rename_i hts
    exact ⟨s.alarmEn, rfl, by simp [hts]⟩

/-- The sub-counter reaches the end of the period with this tick (43_time.md R241). -/
def WrapsNow (s : State) : Prop := 2 ^ 31 ≤ s.count.toNat % 2 ^ 31 + s.params.tickInc

theorem wrapsNow_iff (s : State) : periodLength ≤ s.subCount + s.params.tickInc ↔ WrapsNow s := by
  rw [subCount_eq, WrapsNow, periodLength]

theorem advanceClock_wrap (h : WrapsNow s) :
    s.advanceClock =
      (s.setClock (s.period + 1) (s.subCount + s.params.tickInc - periodLength)).nextPeriod :=
  if_pos ((wrapsNow_iff s).2 h)

theorem advanceClock_noWrap (h : ¬ WrapsNow s) :
    s.advanceClock = s.setClock s.period (s.subCount + s.params.tickInc) :=
  if_neg (fun hc => h ((wrapsNow_iff s).1 hc))

/-! ### The handler's first part: TICK_PEND cleared, the clock advanced -/

/-- The tick handler before it looks at the alarm. -/
def ticked (s : State) : State := (s.setTickPend false).advanceClock

theorem ticked_wrap (h : WrapsNow s) :
    ticked s = ((s.setTickPend false).setClock (s.period + 1)
      (s.subCount + s.params.tickInc - periodLength)).nextPeriod :=
  advanceClock_wrap (s := s.setTickPend false) h

theorem ticked_noWrap (h : ¬ WrapsNow s) :
    ticked s = (s.setTickPend false).setClock s.period (s.subCount + s.params.tickInc) :=
  advanceClock_noWrap (s := s.setTickPend false) h

/-- Of the alarm, the first part of the handler changes ALARM_EN only, and of the rest TICK_PEND and the clock. -/
theorem ticked_eq (s : State) :
    ∃ p c en, ticked s = { s with period := p, count := c, alarmEn := en, tickPend := false } ∧
      (en = true ↔ s.alarmEn = true ∨
        WrapsNow s ∧ ∃ ts, s.alarmTs = some ts ∧ ts.toNat < (p.toNat + 1) * 2 ^ 31) := by
  by_cases h : WrapsNow s
  · obtain ⟨en, e, hen⟩ := nextPeriod_eq ((s.setTickPend false).setClock (s.period + 1)
      (s.subCount + s.params.tickInc - periodLength))
    exact ⟨_, _, en, (ticked_wrap h).trans e, by simpa [h] using hen⟩
  · exact ⟨_, _, s.alarmEn, ticked_noWrap h, by simp [h]⟩

theorem nextPeriod_nowi (s : State) : s.nextPeriod.nowi = s.nowi := by
  obtain ⟨en, e, -⟩ := nextPeriod_eq s
  rw [e]
  rfl

theorem nextPeriod_parityOk (h : s.ParityOk) : s.nextPeriod.ParityOk := by
  obtain ⟨en, e, -⟩ := nextPeriod_eq s
  rw [e]
  exact h

theorem ticked_parityOk (s : State) : (ticked s).ParityOk := by
  by_cases h : WrapsNow s
  · rw [ticked_wrap h]
    exact nextPeriod_parityOk (setClock_parityOk _ _ _)
  · rw [ticked_noWrap h]
    exact setClock_parityOk _ _ _

/-- A tick adds TICK_INC to NOWI, modulo 2^63; on a wrap of PERIOD itself NOWI starts over (43_time.md R242, R245). -/
theorem ticked_nowi (hinc : s.params.tickInc < 2 ^ 31) :
    (ticked s).nowi % 2 ^ 63 = (s.nowi + s.params.tickInc) % 2 ^ 63 ∧
      (s.period.toNat < 2 ^ 32 - 1 → (ticked s).nowi = s.nowi + s.params.tickInc) := by
  have hp := s.period.isLt
  have hsub := subCount_eq s
  have hnowi := nowi_eq s
  by_cases h : WrapsNow s
  · have hnext : (s.period + 1).toNat = (s.period.toNat + 1) % 2 ^ 32 := by simp
    rw [ticked_wrap h, nextPeriod_nowi, setClock_nowi, hnext]
    unfold WrapsNow at h
    unfold periodLength
    omega
  · rw [ticked_noWrap h, setClock_nowi]
    unfold WrapsNow at h
    omega

theorem ticked_sameExcept (s : State) : SameExcept [.clock, .alarm, .tickPend] s (ticked s) := by
  obtain ⟨p, c, en, e, -⟩ := ticked_eq s
  rw [e]
  intro q hq
  cases q with
  | clock | alarm | tickPend => exact absurd (by simp) hq
  | cells => exact ⟨rfl, rfl, rfl, rfl⟩
  | choices => exact ⟨rfl, rfl⟩
  | _ => rfl

/-! ### The handler -/

/-- ALARM_FIRE is REARM: what it pops first REARM would pop, and REARM sets the alarm whatever it was. -/
theorem alarmFire_eq_rearm (s : State) : s.alarmFire = s.rearm := by
  have hnowi : ((s.popExpired s.nowi).setAlarmRegs false none).nowi = s.nowi :=
    popExpired_nowi s s.nowi
  rw [State.alarmFire, popExpired_setAlarmRegs, rearm_eq, hnowi, popExpired_setAlarmRegs,
    popExpired_of_later (popExpired_later s s.nowi), armNext_setAlarmRegs, ← rearm_eq]

theorem alarmDue_iff (s : State) :
    s.alarmDue = true ↔ s.alarmEn = true ∧ ∃ ts, s.alarmTs = some ts ∧ ts.toNat ≤ s.nowi := by
  unfold State.alarmDue
  split
  · rename_i ts hts
    simp [hts]
  · rename_i hts
    simp [hts]

theorem tickHandler_due (h : (ticked s).alarmDue = true) : s.tickHandler = (ticked s).rearm :=
  (if_pos h).trans (alarmFire_eq_rearm _)

theorem tickHandler_notDue (h : ¬ (ticked s).alarmDue = true) : s.tickHandler = ticked s :=
  if_neg h

/-- Whether the alarm fires or not, the clock is as the first part of the handler leaves it. -/
theorem tickHandler_clock (s : State) :
    s.tickHandler.period = (ticked s).period ∧ s.tickHandler.count = (ticked s).count ∧
      s.tickHandler.tickPend = false := by
  have hpend : (ticked s).tickPend = false := by
    obtain ⟨p, c, en, e, -⟩ := ticked_eq s
    rw [e]
  by_cases h : (ticked s).alarmDue = true
  · obtain ⟨c, en, a, ts, q, e, -⟩ := rearm_other (ticked s)
    rw [tickHandler_due h, e]
    exact ⟨rfl, rfl, hpend⟩
  · rw [tickHandler_notDue h]
    exact ⟨rfl, rfl, hpend⟩

theorem tickHandler_nowi (s : State) : s.tickHandler.nowi = (ticked s).nowi := by
  obtain ⟨hp, hc, -⟩ := tickHandler_clock s
  rw [nowi_eq, nowi_eq, hp, hc]

theorem tickHandler_parityOk (s : State) : s.tickHandler.ParityOk := by
  obtain ⟨hp, hc, -⟩ := tickHandler_clock s
  unfold State.ParityOk
  rw [hp, hc]
  exact ticked_parityOk s

theorem sameExcept_mono {ps qs : List Part} (h : SameExcept ps s x) (hsub : ps ⊆ qs) :
    SameExcept qs s x :=
  fun p hp => h p fun hq => hp (hsub hq)

theorem tickHandler_sameExcept (s : State) :
    SameExcept [.tasks, .clock, .alarm, .tickPend, .queue] s s.tickHandler := by
  have hfirst : SameExcept [.tasks, .clock, .alarm, .tickPend, .queue] s (ticked s) :=
    sameExcept_mono (ticked_sameExcept s) (by simp)
  by_cases h : (ticked s).alarmDue = true
  · rw [tickHandler_due h]
    exact sameExcept_trans hfirst (sameExcept_mono (rearm_sameExcept _) (by simp))
  · rw [tickHandler_notDue h]
    exact hfirst

theorem agentStep_tickHandler (hf : s.fault = none) (hp : s.tickPend = true) :
    s.agentStep .tickHandler = .next s.tickHandler := by
  have hen : s.enabled .tickHandler = true := by simp [State.enabled, hf, hp]
  exact if_pos hen

theorem sameExcept_setTickPend {ps : List Part} (h : SameExcept ps s x) (ht : .tickPend ∈ ps)
    (v : Bool) : SameExcept ps s (x.setTickPend v) := by
  intro p hp
  cases p with
  | tickPend => exact absurd ht hp
  | _ => exact h _ hp

theorem agentStep_tickSource (hf : s.fault = none) :
    s.agentStep .tickSource = .next s.tickSource := by
  have hen : s.enabled .tickSource = true := by simp [State.enabled, hf]
  exact if_pos hen

/-- Settles O43, by the clock that the handler's first part leaves. -/
theorem tickAdvancesClock : Obligations.TickAdvancesClock := by
  unfold Obligations.TickAdvancesClock
  refine ⟨fun s hf => ⟨_, agentStep_tickSource hf,
    sameExcept_setTickPend (sameExcept_refl _ s) (by simp) true, rfl⟩, fun s hf hp hinc => ?_⟩
  obtain ⟨-, -, hpend⟩ := tickHandler_clock s
  have hnowi := ticked_nowi hinc
  rw [← tickHandler_nowi] at hnowi
  obtain ⟨hmod, hexact⟩ := hnowi
  have hframe := frame_tickHandler s
  exact ⟨_, agentStep_tickHandler hf hp, tickHandler_sameExcept s, hpend, tickHandler_parityOk s,
    hmod, hexact, hframe.ntasks, hframe.tasks⟩

/-! ### The alarm invariant (43_time.md R244) -/

theorem alarmOk_idle (h : queueMin s.queue = none) :
    s.AlarmOk ↔ s.alarmTs = none ∧ s.alarmEn = false := by
  rw [State.AlarmOk, h]

theorem alarmOk_queued {m : Word} (h : queueMin s.queue = some m) :
    s.AlarmOk ↔ s.alarmTs = some m ∧ (s.beforeWrap m = true → s.alarmEn = true) := by
  rw [State.AlarmOk, h]

theorem rearm_alarmOk (s : State) : s.rearm.AlarmOk := by
  cases h : queueMin s.rearm.queue with
  | none =>
    obtain ⟨hen, hts, -⟩ := rearm_idle ((queueMin_none_iff _).1 h)
    exact (alarmOk_idle h).2 ⟨hts, hen⟩
  | some m =>
    obtain ⟨-, hset⟩ := rearm_armed h
    exact (alarmOk_queued h).2 ⟨hset.alarmTs, fun hw => hset.armed.2 ((beforeWrap_iff _ m).1 hw)⟩

/-- NEXT_PERIOD arms the alarm that is set for the earliest deadline, if that lies in the period now begun. -/
theorem nextPeriod_alarmOk
    (hidle : queueMin s.queue = none → s.alarmTs = none ∧ s.alarmEn = false)
    (hqueued : ∀ m, queueMin s.queue = some m → s.alarmTs = some m) : s.nextPeriod.AlarmOk := by
  obtain ⟨en, e, hen⟩ := nextPeriod_eq s
  have hqueue : s.nextPeriod.queue = s.queue := by rw [e]
  have hts : s.nextPeriod.alarmTs = s.alarmTs := by rw [e]
  have hperiod : s.nextPeriod.period = s.period := by rw [e]
  have harm : s.nextPeriod.alarmEn = en := by rw [e]
  cases hm : queueMin s.queue with
  | none =>
    obtain ⟨hnone, hoff⟩ := hidle hm
    refine (alarmOk_idle (hqueue ▸ hm)).2 ⟨hts.trans hnone, ?_⟩
    simpa [harm, hnone, hoff] using hen
  | some m =>
    have hm' := hqueued m hm
    refine (alarmOk_queued (hqueue ▸ hm)).2 ⟨hts.trans hm', fun hw => ?_⟩
    rw [beforeWrap_iff, hperiod] at hw
    exact harm.trans (hen.2 (.inr ⟨m, hm', hw⟩))

/-- Advancing the clock keeps the alarm set: within a period the next wrap stays where it is, and a wrap runs
NEXT_PERIOD. -/
theorem ticked_alarmOk (h : s.AlarmOk) : (ticked s).AlarmOk := by
  by_cases hw : WrapsNow s
  · rw [ticked_wrap hw]
    refine nextPeriod_alarmOk (alarmOk_idle (s := s) · |>.1 h) fun m hm => ?_
    obtain ⟨hts, -⟩ := (alarmOk_queued (s := s) hm).1 h
    exact hts
  · rw [ticked_noWrap hw]
    exact h

theorem tickHandler_alarmOk (h : s.AlarmOk) : s.tickHandler.AlarmOk := by
  by_cases hd : (ticked s).alarmDue = true
  · rw [tickHandler_due hd]
    exact rearm_alarmOk _
  · rw [tickHandler_notDue hd]
    exact ticked_alarmOk h

/-- With the alarm set, an alarm that is not due means that nothing queued has expired. -/
theorem later_of_notDue (h : s.AlarmOk) (hd : ¬ s.alarmDue = true) :
    ∀ e ∈ s.queue, s.nowi < e.ts.toNat := by
  intro e he
  by_contra hexp
  obtain ⟨m, hm, hmin⟩ := exists_queueMin he
  have hle : m.toNat ≤ s.nowi := hmin.trans (Nat.not_lt.1 hexp)
  obtain ⟨hts, harm⟩ := (alarmOk_queued hm).1 h
  have hwrap : s.beforeWrap m = true :=
    (beforeWrap_iff s m).2 (hle.trans_lt (nowi_lt_nextWrap s))
  exact hd ((alarmDue_iff s).2 ⟨harm hwrap, m, hts, hle⟩)

/-- Settles O46: the handler's alarm is due exactly where the statement says, and then the handler ends with REARM. -/
theorem tickPopsExpired : Obligations.TickPopsExpired := by
  unfold Obligations.TickPopsExpired
  rintro s s' armed due left hf hp hs' harmed hdue rfl
  obtain rfl : s.tickHandler = s' :=
    Host.Outcome.next.inj ((agentStep_tickHandler hf hp).symm.trans hs')
  obtain ⟨p, c, en, hticked, hen⟩ := ticked_eq s
  obtain ⟨hperiod, -, -⟩ := tickHandler_clock s
  have hnowi := tickHandler_nowi s
  have hqueue : (ticked s).queue = s.queue := by rw [hticked]
  have htasks : (ticked s).tasks = s.tasks := by rw [hticked]
  have hts : (ticked s).alarmTs = s.alarmTs := by rw [hticked]
  have hcompare : (ticked s).compare = s.compare := by rw [hticked]
  have harmed' : armed ↔ (ticked s).alarmEn = true := by
    rw [harmed, hperiod, hticked]
    exact hen.symm
  have hdue' : due ↔ (ticked s).alarmDue = true := by
    rw [hdue, alarmDue_iff, harmed', hts, hnowi]
  have hpopped : due → PoppedExpired s s.tickHandler s.tickHandler.nowi := by
    intro h
    rw [hnowi, tickHandler_due (hdue'.1 h)]
    exact poppedExpired_congr (poppedExpired_rearm _) hqueue.symm htasks.symm rfl rfl
  refine ⟨fun h => ?kept, fun h => ⟨hpopped h, ?rearmed⟩, fun hok => ?invariant⟩
  case kept =>
    rw [tickHandler_notDue (mt hdue'.2 h)]
    exact ⟨ticked_sameExcept s, hcompare, hts, harmed'.symm⟩
  case rearmed =>
    rw [hnowi, hperiod, tickHandler_due (hdue'.1 h), ← hqueue, ← rearm_queue]
    refine ⟨fun hidle => ?_, fun m hm => ?_⟩
    · obtain ⟨hen, hnone, hsame⟩ := rearm_idle hidle
      exact ⟨hen, hnone, hsame.trans hcompare⟩
    · obtain ⟨-, hset⟩ := rearm_armed hm
      exact ⟨hset.alarmTs, hset.compare, rearm_period (ticked s) ▸ hset.armed⟩
  case invariant =>
    by_cases h : due
    · exact hpopped h
    · have hd := mt hdue'.2 h
      have hlater := later_of_notDue (ticked_alarmOk hok) hd
      rw [tickHandler_notDue hd]
      exact poppedExpired_congr (poppedExpired_of_later hlater) hqueue.symm htasks.symm rfl rfl

end Sys2Proof.Machine.Proofs

/-! SUPPORT. O45: the alarm stands for the earliest deadline (43_time.md R244). The clock, TSCHED and REARM keep it;
every other step but a TALARM leaves alone all that it speaks of. -/

namespace Sys2Proof.Machine.Proofs

open Sys2Proof.Machine.Laws

variable {s s' x : State} {t : Nat} {i : Instr} {ts m : Word}

/-! ### QMIN of a longer queue -/

theorem queueMin_of_least {q : List QueueEntry} {e : QueueEntry} (he : e ∈ q)
    (hle : ∀ f ∈ q, e.ts.toNat ≤ f.ts.toNat) : queueMin q = some e.ts := by
  obtain ⟨m, hm, hmin⟩ := exists_queueMin he
  obtain ⟨⟨f, hf, rfl⟩, -⟩ := queueMin_some q m hm
  rw [hm, BitVec.eq_of_toNat_eq (Nat.le_antisymm hmin (hle f hf))]

/-- No entry of the queue is as early as `ts`. -/
def EarliestYet (q : List QueueEntry) (ts : Word) : Prop :=
  ∀ m, queueMin q = some m → ts.toNat < m.toNat

theorem EarliestYet.lt {q : List QueueEntry} (h : EarliestYet q ts) :
    ∀ e ∈ q, ts.toNat < e.ts.toNat := by
  intro e he
  obtain ⟨m, hm, hmin⟩ := exists_queueMin he
  exact (h m hm).trans_le hmin

theorem not_earliestYet_iff (q : List QueueEntry) (ts : Word) :
    ¬ EarliestYet q ts ↔ ∃ m, queueMin q = some m ∧ m.toNat ≤ ts.toNat := by
  simp [EarliestYet]

theorem queueMin_insert_first {q : List QueueEntry} (h : EarliestYet q ts) (t : Nat) :
    queueMin (queueInsert ⟨ts, t⟩ q) = some ts := by
  refine queueMin_of_least (e := ⟨ts, t⟩) ((mem_queueInsert _ _ _).2 (.inl rfl)) fun f hf => ?_
  obtain rfl | hf := (mem_queueInsert _ _ _).1 hf
  · exact le_rfl
  · exact (h.lt f hf).le

theorem queueMin_insert_later {q : List QueueEntry} (hm : queueMin q = some m)
    (hle : m.toNat ≤ ts.toNat) (t : Nat) : queueMin (queueInsert ⟨ts, t⟩ q) = some m := by
  obtain ⟨⟨e, he, rfl⟩, hmin⟩ := queueMin_some q m hm
  refine queueMin_of_least ((mem_queueInsert _ _ _).2 (.inr he)) fun f hf => ?_
  obtain rfl | hf := (mem_queueInsert _ _ _).1 hf
  · exact hle
  · exact hmin f hf

/-! ### TSCHED's critical section (43_time.md R232) -/

/-- The state with one more deadline queued. -/
def queued (s : State) (ts : Word) (t : Nat) : State := s.setQueue (queueInsert ⟨ts, t⟩ s.queue)

theorem schedule_full (h : s.params.queueCap ≤ s.queue.length) (ts : Word) (t : Nat) :
    s.schedule ts t = .error (.queueFull ts t) :=
  if_pos h

theorem schedule_later (hroom : ¬ s.params.queueCap ≤ s.queue.length)
    (hm : queueMin s.queue = some m) (hle : m.toNat ≤ ts.toNat) (t : Nat) :
    s.schedule ts t = .ok (queued s ts t) := by
  simp only [State.schedule, if_neg hroom, hm, if_neg (Nat.not_lt.2 hle), queued]

theorem schedule_first (hroom : ¬ s.params.queueCap ≤ s.queue.length)
    (h : EarliestYet s.queue ts) (t : Nat) : s.schedule ts t = .ok (queued s ts t).rearm := by
  cases hm : queueMin s.queue with
  | none => simp only [State.schedule, if_neg hroom, hm, queued]
  | some m => simp only [State.schedule, if_neg hroom, hm, if_pos (h m hm), queued]

/-- A deadline that is not the earliest leaves the alarm's one the earliest; else REARM sets the alarm. -/
theorem schedule_alarmOk (h : s.AlarmOk) (hs : s.schedule ts t = .ok x) : x.AlarmOk := by
  by_cases hroom : s.params.queueCap ≤ s.queue.length
  · rw [schedule_full hroom] at hs
    cases hs
  · by_cases hfirst : EarliestYet s.queue ts
    · rw [schedule_first hroom hfirst] at hs
      cases hs
      exact rearm_alarmOk _
    · obtain ⟨m, hm, hle⟩ := (not_earliestYet_iff _ _).1 hfirst
      rw [schedule_later hroom hm hle] at hs
      cases hs
      exact (alarmOk_queued (queueMin_insert_later hm hle t)).2 ((alarmOk_queued hm).1 h)

/-! ### Steps that leave the alarm alone -/

/-- What the alarm invariant speaks of. -/
def alarmView (s : State) : List QueueEntry × Option Word × Bool × BitVec 32 :=
  (s.queue, s.alarmTs, s.alarmEn, s.period)

theorem alarmOk_congr (hv : alarmView s' = alarmView s) (h : s.AlarmOk) : s'.AlarmOk := by
  simp only [alarmView, Prod.mk.injEq] at hv
  obtain ⟨hqueue, hts, hen, hperiod⟩ := hv
  have hwrap : ∀ m, s'.beforeWrap m = s.beforeWrap m := by
    intro m
    rw [State.beforeWrap, State.beforeWrap, hperiod]
  cases hm : queueMin s.queue with
  | none =>
    rw [alarmOk_idle (hqueue ▸ hm), hts, hen]
    exact (alarmOk_idle hm).1 h
  | some m =>
    rw [alarmOk_queued (hqueue ▸ hm), hts, hen, hwrap]
    exact (alarmOk_queued hm).1 h

theorem setCell_alarmView (s : State) (id : BitVec 16) (v : Option Handle) :
    alarmView (s.setCell id v) = alarmView s := by
  obtain ⟨-, -, -, -, -, hperiod, -, -, hen, hts, -, hqueue, -⟩ := setCell_other s id v
  rw [alarmView, hperiod, hen, hts, hqueue, alarmView]

theorem wakeCell_alarmView (s : State) (id : BitVec 16) :
    alarmView (s.wakeCell id) = alarmView s := by
  obtain ⟨hd, -, e⟩ | ⟨-, e⟩ := wakeCell_cases s id <;> rw [e]
  exact setCell_alarmView s id none

theorem recordPeriph_alarmView (s : State) (e : Event) :
    alarmView (s.recordPeriph e) = alarmView s := by
  obtain r | r := recordPeriph_cases s e <;> rw [r]
  rfl

theorem dmaShim_alarmView (s : State) : alarmView s.dmaShim = alarmView s := by
  refine dmaShim_keeps (P := fun x => alarmView x = alarmView s) (fun x ch hx => ?_) s rfl
  obtain e | ⟨-, e⟩ := serveChannel_cases x ch <;> rw [e]
  · exact hx
  · exact (wakeCell_alarmView _ _).trans hx

/-- Of the commands that complete at once, only TSCHED and TALARM touch the queue or the alarm. -/
theorem atomicNext_alarmView (hsched : ∀ rs, i ≠ .tsched rs) (halarm : ∀ rd rs, i ≠ .talarm rd rs)
    (h : AtomicNext s t i s') : alarmView s' = alarmView s := by
  cases h with
  | goto | write | signal | dres | dcfg | den | dtrg => rfl
  | wreg id => exact setCell_alarmView s id _
  | wake id hd => exact setCell_alarmView s id none
  | tschedLater rs | tschedFirst rs => exact absurd rfl (hsched rs)
  | talarm rd rs => exact absurd rfl (halarm rd rs)
  | ld rd wc a v => exact recordPeriph_alarmView s _
  | st rs wc a v m => exact recordPeriph_alarmView (s.setMem m) _

theorem hostNext_alarmView (hsched : ∀ rs, i ≠ .tsched rs) (halarm : ∀ rd rs, i ≠ .talarm rd rs)
    (h : HostNext s t i s') : alarmView s' = alarmView s := by
  cases h with
  | fault | stop | pollWait | pollRearm | timeRead | finish => rfl
  | atomic _ h => exact atomicNext_alarmView hsched halarm h
  | pollRegister rd ch => exact setCell_alarmView s (dmaCellId ch.toNat) (some t)

/-- Of the other agents, only the tick handler touches the queue, the alarm or PERIOD. -/
theorem stepNext_alarmView {c : Choice} (hhost : c ≠ .host) (htick : c ≠ .tickHandler)
    (h : StepNext s c s') : alarmView s' = alarmView s := by
  cases h with
  | idle | fault | start | resume | engine | tickSource => rfl
  | host => exact absurd rfl hhost
  | shim => exact dmaShim_alarmView s
  | tickHandler => exact absurd rfl htick

/-! ### Every step -/

theorem exec_tsched_alarmOk {rs : RegNum} (h : s.AlarmOk) (hx : exec (.tsched rs) s = .next s') :
    s'.AlarmOk := by
  obtain ⟨t, -, hok | ⟨f, -, rfl⟩⟩ := atomicCommand_next _ _ _ hx
  · split at hok
    · cases hok
    · split at hok
      · cases hok
      · rename_i x hs
        cases hok
        have hx : x.AlarmOk := schedule_alarmOk h hs
        exact hx
  · exact h

theorem exec_alarmOk (halarm : ∀ rd rs, i ≠ .talarm rd rs) (h : s.AlarmOk)
    (hx : exec i s = .next s') : s'.AlarmOk := by
  by_cases hsched : ∃ rs, i = .tsched rs
  · obtain ⟨rs, rfl⟩ := hsched
    exact exec_tsched_alarmOk h hx
  · obtain ⟨t, -, -, hnext⟩ := exec_next hx
    exact alarmOk_congr (hostNext_alarmView (not_exists.1 hsched) halarm hnext) h

/-- A host step that runs no TALARM keeps the alarm set. -/
theorem agentStep_host_alarmOk (h : s.AlarmOk) (hx : s.agentStep .host = .next s')
    (halarm : ∀ t rd rs, s.current = some t → s.fetch t ≠ .ok (.talarm rd rs)) : s'.AlarmOk := by
  obtain ⟨-, hperform⟩ | ⟨-, rfl⟩ := agentStep_next _ _ _ hx
  · cases hc : s.current with
    | none =>
      simp only [State.perform, hc] at hperform
      cases hperform
    | some t =>
      simp only [State.perform, hc] at hperform
      obtain ⟨i, hfetch, hi⟩ | ⟨f, -, rfl⟩ := hostStep_next _ _ _ hperform
      · refine exec_alarmOk (fun rd rs => ?_) h hi
        rintro rfl
        exact halarm t rd rs hc hfetch
      · exact h
  · exact h

/-- Settles O45: the host's TSCHED and the tick handler keep the alarm set, and no other step but a TALARM touches what
the invariant speaks of. -/
theorem stepKeepsAlarm : Obligations.StepKeepsAlarm := by
  unfold Obligations.StepKeepsAlarm
  intro s s' h hstep halarm
  obtain ⟨-, -, hagent⟩ := step_next s s' hstep
  have hnext := step_stepNext hstep
  obtain ⟨cs, n, e⟩ := dropChoice_eq s
  have hdrop : s.dropChoice.AlarmOk := e ▸ h
  by_cases hhost : s.nextChoice = .host
  · rw [hhost] at hagent
    refine agentStep_host_alarmOk hdrop hagent ?_
    rw [e]
    exact halarm hhost
  · by_cases htick : s.nextChoice = .tickHandler
    · obtain ⟨-, hperform⟩ | ⟨-, rfl⟩ := agentStep_next _ _ _ hagent
      · rw [htick] at hperform
        cases hperform
        exact tickHandler_alarmOk hdrop
      · exact hdrop
    · exact alarmOk_congr (stepNext_alarmView hhost htick hnext) hdrop

end Sys2Proof.Machine.Proofs

/-! SUPPORT. O47 to O50: the time commands (43_time.md R230 to R233). -/

namespace Sys2Proof.Machine.Proofs

open Sys2Proof.Machine.Laws

variable {s x : State} {t : Nat} {ts m : Word} {rs : RegNum}

/-! ### TNOW (43_time.md R230) -/

theorem exec_tnow_phase0 (h : HostAtPhase s t 0) (rd : RegNum) :
    exec (.tnow rd) s = .next (tnowPeriod t s) := by
  obtain ⟨hf, hc, ht, hp⟩ := h
  exact (hostCommand_eq s t _ hf hc ht).trans (by rw [hp])

theorem exec_tnow_phase1 (h : HostAtPhase s t 1) (rd : RegNum) :
    exec (.tnow rd) s =
      .next (finishWith s t rd (BitVec.ofNat 64 (logicalTime (s.task t).latch s.count))) := by
  obtain ⟨hf, hc, ht, hp⟩ := h
  exact (hostCommand_eq s t _ hf hc ht).trans (by rw [hp]; rfl)

theorem tnowPeriod_task (ht : t < s.ntasks) :
    (tnowPeriod t s).task t = { s.task t with latch := s.period, phase := 1 } := by
  unfold tnowPeriod State.setPhase State.setLatch
  rw [task_updTask_self _ _ _ (by simpa using ht), task_updTask_self _ _ _ ht]

theorem tnowPeriod_otherTasks (s : State) (t : Nat) : OtherTasksSame s (tnowPeriod t s) t := by
  unfold tnowPeriod State.setPhase State.setLatch
  refine ⟨by simp, fun u hu => ?_⟩
  rw [task_updTask_ne _ _ _ _ hu, task_updTask_ne _ _ _ _ hu]

theorem tnowPeriod_sameExcept (s : State) (t : Nat) : SameExcept [.tasks] s (tnowPeriod t s) :=
  sameExcept_updTask (sameExcept_updTask (sameExcept_refl _ s) (by simp) t _) (by simp) t _

/-- Settles O47: the first micro-step latches PERIOD, the second ends the command with the combined time. -/
theorem tnowMicroSteps : Obligations.TnowMicroSteps := by
  unfold Obligations.TnowMicroSteps
  refine fun s t rd => ⟨fun h => ?first, fun h => ?second⟩
  all_goals have ⟨_, _, ht, _⟩ := h
  case first =>
    refine ⟨_, exec_tnow_phase0 h rd, tnowPeriod_sameExcept s t, tnowPeriod_otherTasks s t, ?_⟩
    rw [tnowPeriod_task ht]
    exact ⟨taskSame_trans (taskSame_latch (by simp) _ s.period) (taskSame_phase (by simp) _ 1), rfl,
      rfl⟩
  case second =>
    exact ⟨_, exec_tnow_phase1 h rd, finishWith_sameExcept s t rd _,
      finishWith_otherTasks s t rd _, finishWith_taskSame ht rd _, finishWith_reg ht rd _,
      fun q hq => finishWith_reg_ne ht _ hq, by rw [finishWith_task ht], by rw [finishWith_task ht]⟩

/-! ### TSCHED (43_time.md R232) -/

theorem exec_tsched_ok (h : HostReady s t) (hr : RegHolds s t rs ts)
    (hs : s.schedule ts t = .ok x) : exec (.tsched rs) s = .next (x.advance t 1) :=
  atomicCommand_ok h (by simp only [readReg_ok s t rs ts hr, hs])

theorem exec_tsched_error {f : BlockFault} (h : HostReady s t) (hr : RegHolds s t rs ts)
    (hs : s.schedule ts t = .error f) : exec (.tsched rs) s = hostFaults s t f :=
  atomicCommand_error h (by simp only [readReg_ok s t rs ts hr, hs])

theorem queueInsert_perm (e : QueueEntry) (q : List QueueEntry) :
    (queueInsert e q).Perm (e :: q) := by
  induction q with
  | nil => exact .refl _
  | cons f q ih =>
    unfold queueInsert
    split
    · exact .refl _
    · exact (ih.cons f).trans (.swap e f q)

theorem queued_sameExcept {ps : List Part} (hq : .queue ∈ ps) (s : State) (ts : Word) (t : Nat) :
    SameExcept ps s (queued s ts t) :=
  sameExcept_setQueue (sameExcept_refl _ s) hq _

/-- TSCHED of an earliest deadline in the future sets the alarm for it: nothing else has expired either. -/
theorem rearm_queued_future (hfirst : EarliestYet s.queue ts) (h : s.nowi < ts.toNat) (t : Nat) :
    (queued s ts t).rearm = (queued s ts t).setAlarm ts := by
  have hmin := queueMin_insert_first hfirst t
  have hlater : ∀ e ∈ (queued s ts t).queue, (queued s ts t).nowi < e.ts.toNat := by
    obtain ⟨-, hle⟩ := queueMin_some _ _ hmin
    exact fun e he => h.trans_le (hle e he)
  rw [rearm_eq, popExpired_of_later hlater, armNext_some hmin]

/-- TSCHED of an overdue deadline pops it at once, and every other expired entry with it. -/
theorem rearm_queued_overdue (h : ts.toNat ≤ s.nowi) (t : Nat) :
    (queued s ts t).rearm.queue.Perm (s.queue.filter fun e => decide (s.nowi < e.ts.toNat)) ∧
      ∀ u, u < s.ntasks → (((queued s ts t).rearm.task u).ready = true ↔
        (s.task u).ready = true ∨ u = t ∨ ∃ e ∈ s.queue, e.handle = u ∧ e.ts.toNat ≤ s.nowi) := by
  have hnowi : (queued s ts t).nowi = s.nowi := rfl
  have hpopped := poppedExpired_rearm (queued s ts t)
  rw [hnowi] at hpopped
  obtain ⟨hperm, htasks⟩ := hpopped
  refine ⟨?_, fun u hu => ?_⟩
  · refine hperm.trans (((queueInsert_perm ⟨ts, t⟩ s.queue).filter _).trans (.of_eq ?_))
    exact List.filter_cons_of_neg (by simpa using h)
  · obtain ⟨-, hready⟩ := htasks u hu
    have hentry : (∃ e ∈ (queued s ts t).queue, e.handle = u ∧ e.ts.toNat ≤ s.nowi) ↔
        u = t ∨ ∃ e ∈ s.queue, e.handle = u ∧ e.ts.toNat ≤ s.nowi := by
      simp [queued, State.setQueue, mem_queueInsert, or_and_right, exists_or, h, eq_comm]
    exact hready.trans (or_congr_right hentry)

/-- Settles O48, by the outcomes of the critical section: full, later than another deadline, the earliest. -/
theorem tschedSchedules : Obligations.TschedSchedules := by
  unfold Obligations.TschedSchedules
  intro s t rs ts h hr
  have ⟨_, _, ht, _⟩ := h
  split
  · rename_i hfull
    exact exec_tsched_error h hr (schedule_full hfull ts t)
  · rename_i hroom
    by_cases hfirst : EarliestYet s.queue ts
    · have hparts : SameExcept [.tasks, .alarm, .queue] s (queued s ts t).rearm :=
        sameExcept_trans (queued_sameExcept (by simp) s ts t) (rearm_sameExcept _)
      refine ⟨_, exec_tsched_ok h hr (schedule_first hroom hfirst t),
        sameExcept_updTask hparts (by simp) t _, fun hlater => ?_, fun _ hfuture => ?_,
        fun _ hoverdue => ?_⟩
      · exact absurd hfirst ((not_earliestYet_iff _ _).2 hlater)
      · rw [rearm_queued_future hfirst hfuture]
        obtain ⟨c, en, a, e⟩ := setAlarm_other (queued s ts t) ts
        have hset := alarmSetFor_setAlarm (s := queued s ts t) hfuture
        refine ⟨onlyCp_advance _ s t 1 ht (by rw [e]; rfl), ?_, hset.compare, hset.alarmTs, ?_⟩
        · rw [e]
          exact queueInsert_perm _ _
        · rw [e] at hset ⊢
          exact hset.armed
      · obtain ⟨hperm, hready⟩ := rearm_queued_overdue hoverdue t
        have hframe : Frame readyOnly s (queued s ts t).rearm :=
          (frame_keptByTimers ready_mem_readyOnly s).rearm _ ((Frame.refl _ s).setQueue _)
        refine ⟨hperm, rearm_alarmOk (queued s ts t), (advance_ntasks ..).trans hframe.ntasks,
          fun u hu => ?_⟩
        obtain ⟨hsame, hcp, hrdy⟩ := readied_advance hframe ht u 1
        exact ⟨hsame, hcp, hrdy ▸ hready u hu⟩
    · obtain ⟨m, hm, hle⟩ := (not_earliestYet_iff _ _).1 hfirst
      exact ⟨_, exec_tsched_ok h hr (schedule_later hroom hm hle t),
        sameExcept_updTask (queued_sameExcept (by simp) s ts t) (by simp) t _,
        fun _ => ⟨onlyCp_advance _ s t 1 ht rfl, queueInsert_perm _ _, rfl, rfl, rfl⟩,
        fun hearly => absurd hearly hfirst, fun hearly => absurd hearly hfirst⟩

/-! ### TALARM (43_time.md R233) -/

theorem exec_talarm_eq (h : HostReady s t) (hr : RegHolds s t rs ts) (rd : RegNum) :
    exec (.talarm rd rs) s =
      .next (((s.setAlarm ts).setReg t rd (bitWord (s.setAlarmResult ts))).advance t 1) :=
  atomicCommand_ok h (by simp only [readReg_ok s t rs ts hr])

theorem setAlarm_tasks (s : State) (ts : Word) : (s.setAlarm ts).tasks = s.tasks := by
  obtain ⟨c, en, a, e⟩ := setAlarm_other s ts
  rw [e]

theorem setAlarm_period (s : State) (ts : Word) : (s.setAlarm ts).period = s.period := by
  obtain ⟨c, en, a, e⟩ := setAlarm_other s ts
  rw [e]

theorem setAlarm_sameExcept {ps : List Part} (ha : .alarm ∈ ps) (s : State) (ts : Word) :
    SameExcept ps s (s.setAlarm ts) := by
  unfold State.setAlarm
  split
  · exact sameExcept_setAlarmRegs (sameExcept_refl _ s) ha _ _
  · exact sameExcept_setAlarmRegs (sameExcept_setCompare (sameExcept_refl _ s) ha _) ha _ _

/-- TALARM returns 1 exactly where it sets the alarm. -/
theorem talarm_result (s : State) (ts : Word) :
    bitWord (s.setAlarmResult ts) = if s.nowi < ts.toNat then 1 else 0 := by
  simp [bitWord, State.setAlarmResult]

/-- Settles O49: SET_ALARM, and its result. -/
theorem talarmSetsAlarm : Obligations.TalarmSetsAlarm := by
  unfold Obligations.TalarmSetsAlarm
  intro s t rd rs ts h hr
  have ⟨_, _, ht, _⟩ := h
  have hreg := onlyRegCp_setReg_advance (s.setAlarm ts) s t rd
    (bitWord (s.setAlarmResult ts)) 1 ht (setAlarm_tasks s ts)
  have hparts : SameExcept [.tasks, .alarm] s (s.setAlarm ts) :=
    setAlarm_sameExcept (by simp) s ts
  refine ⟨_, exec_talarm_eq h hr rd,
    sameExcept_updTask (sameExcept_updTask hparts (by simp) t _) (by simp) t _,
    fun hoverdue => ?_, fun hfuture => ?_⟩
  · have hsame := setAlarm_overdue hoverdue
    rw [talarm_result, if_neg (Nat.not_lt.2 hoverdue)] at hreg ⊢
    refine ⟨hreg, ?_⟩
    rw [hsame]
    exact ⟨rfl, rfl, rfl⟩
  · obtain ⟨hts, hcompare, harmed⟩ := alarmSetFor_setAlarm hfuture
    rw [setAlarm_period] at harmed
    rw [talarm_result, if_pos hfuture] at hreg ⊢
    exact ⟨hreg, hcompare, hts, harmed⟩

/-! ### TRD (43_time.md R231) -/

theorem exec_trd_eq {sel : BitVec 4} {v : Word} (h : HostReady s t) (hv : s.timeReg sel = some v)
    (rd : RegNum) : exec (.trd rd sel) s = .next ((s.setReg t rd v).advance t 1) :=
  atomicCommand_ok h (by simp only [hv])

theorem timeReg_eq_none_iff (s : State) (sel : BitVec 4) :
    s.timeReg sel = none ↔ 6 < sel.toNat := by
  unfold State.timeReg
  split
  case h_8 h0 h1 h2 h3 h4 h5 h6 =>
    rw [imp_false] at h0 h1 h2 h3 h4 h5 h6
    exact iff_of_true rfl (by omega)
  all_goals simp [*]

theorem bitWord_toNat (b : Bool) : (bitWord b).toNat = if b = true then 1 else 0 := by
  cases b <;> rfl

/-- Settles O50: the selectors of R231 one by one. -/
theorem trdReadsRegister : Obligations.TrdReadsRegister := by
  unfold Obligations.TrdReadsRegister
  intro s t rd sel h
  have ⟨_, _, ht, _⟩ := h
  split
  · rename_i hsel
    exact atomicCommand_error h (by simp only [(timeReg_eq_none_iff s sel).2 hsel])
  · rename_i hsel
    obtain ⟨v, hv⟩ := Option.ne_none_iff_exists'.1 (mt (timeReg_eq_none_iff s sel).1 hsel)
    have hval : ∀ w, s.timeReg sel = some w → v = w := fun w hw =>
      Option.some.inj (hv.symm.trans hw)
    refine ⟨_, v, exec_trd_eq h hv rd, sameExcept_setReg_advance s t rd v 1,
      onlyRegCp_setReg_advance s s t rd v 1 ht rfl, ?period, ?count, ?compare, ?alarmEn, ?alarmTs,
      ?queue, ?tickPend⟩
    all_goals rintro rfl
    case period => rw [hval _ rfl, BitVec.toNat_setWidth_of_le (by decide)]
    case count => rw [hval _ rfl, BitVec.toNat_setWidth_of_le (by decide)]
    case compare => rw [hval _ rfl, BitVec.toNat_setWidth_of_le (by decide)]
    case alarmEn => rw [hval _ rfl, bitWord_toNat]
    case alarmTs =>
      rw [hval _ rfl]
      refine ⟨fun hnone => ?_, fun ts hts => ?_⟩
      · rw [hnone]
        rfl
      · rw [hts]
        rfl
    case queue =>
      intro hlen
      rw [hval _ rfl, queueLengthWord_of_lt _ hlen, BitVec.toNat_ofNat, Nat.mod_eq_of_lt hlen]
    case tickPend => rw [hval _ rfl, bitWord_toNat]

end Sys2Proof.Machine.Proofs

/-! SUPPORT. O53 to O55, O57 and O58: what the host layer's commands complete with (44_host.md R271 to R280). Each command
has one equation for the state it leaves; the frames of that state come from the rules of the updates it is made of. -/

namespace Sys2Proof.Machine.Proofs

open Sys2Proof.Machine.Laws

variable {s x : State} {t a n : Nat} {v w : Word}

/-! ### LI and ADDI (44_host.md R271, R272) -/

theorem exec_li_eq (h : HostReady s t) (rd : RegNum) (imm : Word) :
    exec (.li rd imm) s = .next ((s.setReg t rd imm).advance t 3) :=
  atomicCommand_ok h rfl

theorem exec_addi_eq {rs : RegNum} (h : HostReady s t) (hr : RegHolds s t rs v) (rd : RegNum)
    (imm : BitVec 16) :
    exec (.addi rd rs imm) s = .next ((s.setReg t rd (v + addiImm imm)).advance t 1) :=
  atomicCommand_ok h (by simp only [readReg_ok s t rs v hr])

/-- ADDI's 64-bit sum is the integer sum modulo 2^64 (30_encoding.md R113). -/
theorem add_addiImm (v : Word) (imm : BitVec 16) :
    v + addiImm imm = BitVec.ofInt 64 ((v.toNat : Int) + imm.toInt) := by
  rw [BitVec.ofInt_add, BitVec.ofInt_natCast, BitVec.ofNat_toNat, BitVec.setWidth_eq]
  rfl

/-- Settles O53: both commands write rd and move CP past their words. -/
theorem liAndAddiWriteRegister : Obligations.LiAndAddiWriteRegister := by
  unfold Obligations.LiAndAddiWriteRegister
  intro s t rd h
  have ⟨_, _, ht, _⟩ := h
  refine ⟨fun imm => ?li, fun rs v imm hr => ?addi⟩
  case li =>
    exact ⟨_, exec_li_eq h rd imm, sameExcept_setReg_advance s t rd imm 3,
      onlyRegCp_setReg_advance s s t rd imm 3 ht rfl⟩
  case addi =>
    rw [← add_addiImm]
    exact ⟨_, exec_addi_eq h hr rd imm, sameExcept_setReg_advance s t rd _ 1,
      onlyRegCp_setReg_advance s s t rd _ 1 ht rfl⟩

/-! ### LD and ST (44_host.md R273, R274) -/

/-- An access to RAM leaves no event (20_memory.md R89). -/
theorem recordPeriph_ram {e : Event} (hn : 0 < e.size) (h : AllKind s e.addr e.size .ram) :
    s.recordPeriph e = s :=
  if_neg (by simp [(accessKind_some_iff _ _ _ _ hn).2 h])

theorem recordPeriph_periph {e : Event} (hn : 0 < e.size) (h : AllKind s e.addr e.size .periph) :
    s.recordPeriph e = s.record e :=
  if_pos ((accessKind_some_iff _ _ _ _ hn).2 h)

section Completion

variable {wc : BitVec 2} {addr : Word32}

theorem exec_ld_eq {v : Nat} (h : HostReady s t)
    (hok : s.accessFault addr.toNat (widthBytes wc) .read = none)
    (hv : s.readValue .host addr.toNat (widthBytes wc) = .ok v) (rd : RegNum) :
    exec (.ld rd wc addr) s =
      .next (((s.recordPeriph ⟨.host, .read, addr.toNat, widthBytes wc, v⟩).setReg t rd
        (BitVec.ofNat 64 v)).advance t 2) :=
  atomicCommand_ok h (by simp only [hok, hv])

theorem exec_st_eq {rs : RegNum} (h : HostReady s t) (hr : RegHolds s t rs v)
    (hok : s.accessFault addr.toNat (widthBytes wc) .write = none)
    (hw : s.writeValue .host addr.toNat (widthBytes wc) (v.toNat % 2 ^ (8 * widthBytes wc)) =
      .ok x) :
    exec (.st rs wc addr) s =
      .next ((x.recordPeriph ⟨.host, .write, addr.toNat, widthBytes wc,
        v.toNat % 2 ^ (8 * widthBytes wc)⟩).advance t 2) :=
  atomicCommand_ok h (by simp only [readReg_ok s t rs v hr, hok, hw])

end Completion

/-- Settles O54: past the checks of the address, the kind of the bytes says what is read and whether it is recorded. -/
theorem loadReads : Obligations.LoadReads := by
  unfold Obligations.LoadReads
  rintro s t rd wc addr _ _ h rfl rfl hal hrace
  have ⟨_, _, ht, _⟩ := h
  have hn : 0 < widthBytes wc := Nat.two_pow_pos _
  have hok := accessFault_aligned hal hrace
  refine ⟨fun hram => ?ram, fun hperiph => ?periph⟩
  case ram =>
    have hx := exec_ld_eq h hok (readValue_ram hn .host hram) rd
    rw [recordPeriph_ram hn hram] at hx
    exact ⟨_, hx, sameExcept_setReg_advance s t rd _ 2,
      onlyRegCp_setReg_advance s s t rd _ 2 ht rfl⟩
  case periph =>
    have hx := exec_ld_eq h hok (readValue_periph hn .host hperiph) rd
    rw [recordPeriph_periph hn hperiph] at hx
    exact ⟨_, _, rfl, hx,
      sameExcept_updTask (sameExcept_updTask
        (sameExcept_record (sameExcept_refl _ s) (by simp) _) (by simp) t _) (by simp) t _,
      rfl, onlyRegCp_setReg_advance _ s t rd _ 2 ht rfl⟩

/-- Settles O55: in RAM MemWrite's rules say what each byte reads, on PERIPH the write is an event of HIST. -/
theorem storeWrites : Obligations.StoreWrites := by
  unfold Obligations.StoreWrites
  rintro s t rs wc addr x _ _ h hmem hr rfl rfl hal hrace
  have ⟨_, _, ht, _⟩ := h
  have hn : 0 < widthBytes wc := Nat.two_pow_pos _
  have hok := accessFault_aligned hal hrace
  refine ⟨fun hram => ?ram, fun hperiph => ?periph⟩
  case ram =>
    have hx := exec_st_eq h hr hok (writeValue_ram hn .host hram _)
    rw [recordPeriph_ram hn hram] at hx
    refine ⟨_, hx, sameExcept_updTask
      (sameExcept_setMem (sameExcept_refl _ s) (by simp) _) (by simp) t _,
      onlyCp_advance _ s t 2 ht rfl, ?_, fun b => read_memWrite_outside hmem _⟩
    exact (memRead_memWrite_same hmem _ _ _).trans (Nat.mod_mod _ _)
  case periph =>
    have hx := exec_st_eq h hr hok (writeValue_periph hn .host hperiph _)
    rw [recordPeriph_periph hn hperiph] at hx
    exact ⟨_, hx, sameExcept_updTask
      (sameExcept_record (sameExcept_refl _ s) (by simp) _) (by simp) t _,
      onlyCp_advance _ s t 2 ht rfl, rfl⟩

/-! ### Branches (44_host.md R275 to R277, R280) -/

section Branches

variable {rs rt : RegNum} (target : Word32)

theorem exec_jmp_eq (h : HostReady s t) : exec (.jmp target) s = .next (s.setCp t target.toNat) :=
  atomicCommand_ok h rfl

theorem exec_beq_eq (h : HostReady s t) (hr : RegHolds s t rs v) (imm : BitVec 16) :
    exec (.beq rs imm target) s = .next (s.branch t (decide (v = branchImm imm)) target) :=
  atomicCommand_ok h (by simp only [readReg_ok s t rs v hr])

theorem exec_bne_eq (h : HostReady s t) (hr : RegHolds s t rs v) (imm : BitVec 16) :
    exec (.bne rs imm target) s = .next (s.branch t (decide (v ≠ branchImm imm)) target) :=
  atomicCommand_ok h (by simp only [readReg_ok s t rs v hr])

theorem exec_bltu_eq (h : HostReady s t) (hr : RegHolds s t rs v) (hq : RegHolds s t rt w) :
    exec (.bltu rs rt target) s = .next (s.branch t (decide (v.toNat < w.toNat)) target) :=
  atomicCommand_ok h (by simp only [readReg_ok s t rs v hr, readReg_ok s t rt w hq])

theorem branch_sameExcept (s : State) (t : Nat) (taken : Bool) :
    SameExcept [.tasks] s (s.branch t taken target) := by
  unfold State.branch
  split <;> exact sameExcept_updTask (sameExcept_refl _ s) (by simp) t _

/-- A branch sets CP to its target where its condition holds, else moves CP past its two words. -/
theorem onlyCp_branch {p : Prop} [Decidable p] {taken : Bool} (ht : t < s.ntasks)
    (hp : taken = true ↔ p) :
    OnlyCp s (s.branch t taken target) t
      (if p then target.toNat else (s.task t).cp + 2) := by
  unfold State.branch
  by_cases h : p
  · rw [if_pos h, if_pos (hp.2 h)]
    exact onlyCp_setCp s s t _ ht rfl
  · rw [if_neg h, if_neg (mt hp.1 h)]
    exact onlyCp_advance s s t 2 ht rfl

/-- A comparison with the zero-extended immediate compares the numbers (30_encoding.md R113). -/
theorem eq_branchImm_iff (v : Word) (imm : BitVec 16) :
    v = branchImm imm ↔ v.toNat = imm.toNat := by
  rw [← BitVec.toNat_inj, branchImm, BitVec.toNat_setWidth_of_le (by decide)]

end Branches

/-- Settles O57: JMP sets CP, and a branch's condition is its comparison of numbers. -/
theorem branchesSetCp : Obligations.BranchesSetCp := by
  unfold Obligations.BranchesSetCp
  intro s t target h
  have ⟨_, _, ht, _⟩ := h
  refine ⟨?jmp, fun rs imm v hr => ⟨?beq, ?bne⟩, fun rs rt v w hr hq => ?bltu⟩
  case jmp =>
    exact ⟨_, exec_jmp_eq target h, sameExcept_updTask (sameExcept_refl _ s) (by simp) t _,
      onlyCp_setCp s s t _ ht rfl⟩
  case beq =>
    exact ⟨_, exec_beq_eq target h hr imm, branch_sameExcept target s t _,
      onlyCp_branch target ht (decide_eq_true_iff.trans (eq_branchImm_iff v imm))⟩
  case bne =>
    rw [← ite_not]
    exact ⟨_, exec_bne_eq target h hr imm, branch_sameExcept target s t _,
      onlyCp_branch target ht (decide_eq_true_iff.trans (eq_branchImm_iff v imm).not)⟩
  case bltu =>
    exact ⟨_, exec_bltu_eq target h hr hq, branch_sameExcept target s t _,
      onlyCp_branch target ht decide_eq_true_iff⟩

/-! ### YIELD and HALT (44_host.md R278, R279) -/

/-- TSTATE[t] and CURRENT set together, as YIELD, HALT, START and RESUME do. -/
def switchTask (s : State) (t : Nat) (v : TaskState) (c : Option Nat) : State :=
  (s.setTstate t v).setCurrent c

theorem exec_yield_eq (h : HostReady s t) : exec .yield s =
    .next (switchTask s t .suspended none) :=
  atomicCommand_ok h rfl

theorem exec_halt_eq (h : HostReady s t) : exec .halt s =
    .next (switchTask s t .halted none) :=
  atomicCommand_ok h rfl

section Switch

variable (v : TaskState) (c : Option Nat)

theorem switchTask_task_self (ht : t < s.ntasks) :
    (switchTask s t v c).task t = { s.task t with tstate := v } :=
  (setTstate_setCurrent_task s t t v c).trans (if_pos ⟨rfl, ht⟩)

theorem sameExcept_switchTask {ps : List Part} (h : SameExcept ps s x) (ht : .tasks ∈ ps)
    (hc : .current ∈ ps) (t : Nat) : SameExcept ps s (switchTask x t v c) := by
  intro p hp
  cases p with
  | tasks => exact absurd ht hp
  | current => exact absurd hc hp
  | _ => exact h _ hp

theorem switchTask_otherTasks (s : State) (t : Nat) : OtherTasksSame s (switchTask s t v c) t :=
  ⟨setTstate_ntasks s t v, fun u hu =>
    (setTstate_setCurrent_task s t u v c).trans (if_neg fun hself => hu hself.1)⟩

/-- What is left and what is set where a task's TSTATE and CURRENT are all that changes. -/
theorem switchTask_spec (ht : t < s.ntasks) :
    SameExcept [.tasks, .current] s (switchTask s t v c) ∧ (switchTask s t v c).current = c ∧
      OtherTasksSame s (switchTask s t v c) t ∧
      TaskSameExcept [.tstate] (s.task t) ((switchTask s t v c).task t) ∧
      ((switchTask s t v c).task t).tstate = v := by
  refine ⟨sameExcept_switchTask v c (sameExcept_refl _ s) (by simp) (by simp) t, rfl,
    switchTask_otherTasks v c s t, ?_⟩
  rw [switchTask_task_self v c ht]
  exact ⟨taskSame_tstate (by simp) _ v, rfl⟩

end Switch

/-- Settles O58: both commands set TSTATE and clear CURRENT, and nothing more. -/
theorem yieldAndHaltStopTask : Obligations.YieldAndHaltStopTask := by
  unfold Obligations.YieldAndHaltStopTask
  intro s t h
  have ⟨_, _, ht, _⟩ := h
  exact ⟨⟨_, exec_yield_eq h, switchTask_spec .suspended none ht⟩,
    ⟨_, exec_halt_eq h, switchTask_spec .halted none ht⟩⟩

end Sys2Proof.Machine.Proofs

/-! SUPPORT. O6 and O59: the steps that choose what runs. A step of the machine is its choice's agent step on the state
with the choice taken; the host's runs the command at CP (44_host.md R290), the executor's START and RESUME set which
task is current (R291, R292). -/

namespace Sys2Proof.Machine.Proofs

open Sys2Proof.Machine.Laws

variable {s : State} {t : Nat}

/-! ### The host's step (44_host.md R290) -/

/-- A step with FAULT clear and an admitted launch is the agent step its choice names. -/
theorem step_eq (hf : s.fault = none) (ha : s.admitted = true) :
    step s = s.dropChoice.agentStep s.nextChoice := by
  simp only [step, hf, ha, if_true]

theorem dropChoice_sameExcept (s : State) : SameExcept [.choices] s s.dropChoice := by
  obtain ⟨cs, n, e⟩ := dropChoice_eq s
  rw [e]
  intro p hp
  cases p with
  | choices => exact absurd (by simp) hp
  | _ => exact sameExcept_refl [.choices] s _ hp

theorem dropChoice_fetch (s : State) (t : Nat) : s.dropChoice.fetch t = s.fetch t := by
  have htask := task_congr t (dropChoice_tasks s)
  exact fetch_congr (by rw [htask]) (by rw [htask])

/-- A host step whose fetch faults enters that fault (30_encoding.md R117). -/
theorem agentStep_host_fetchFault {f : BlockFault} (hfault : s.fault = none)
    (hc : s.current = some t) (hf : s.fetch t = .error f) :
    s.agentStep .host = hostFaults s t f := by
  have hen : s.enabled .host = true := by simp [State.enabled, hfault, hc]
  rw [← takeFault_host s t f hc]
  simp only [State.agentStep, hen, if_true, State.perform, hc, State.hostStep, hf]

/-- Settles O6: taking the choice changes neither what FAULT, CURRENT and the fetch say nor anything else. -/
theorem stepRunsDecodedCommand : Obligations.StepRunsDecodedCommand := by
  unfold Obligations.StepRunsDecodedCommand
  intro s t hf ha hn hc
  have hfault : s.dropChoice.fault = none := (dropChoice_fault s).trans hf
  have hcurrent : s.dropChoice.current = some t := (dropChoice_current s).trans hc
  have hstep : step s = s.dropChoice.agentStep .host := hn ▸ step_eq hf ha
  refine ⟨dropChoice_sameExcept s, fun i hi => ?_, fun f hi => ?_⟩
  · exact hstep.trans (agentStep_host hfault hcurrent ((dropChoice_fetch s t).trans hi))
  · exact hstep.trans (agentStep_host_fetchFault hfault hcurrent ((dropChoice_fetch s t).trans hi))

/-! ### The executor's steps (44_host.md R291, R292) -/

/-- A choice whose step is not enabled changes nothing (log 3). -/
theorem agentStep_disabled {c : Choice} (h : ¬ s.enabled c = true) : s.agentStep c = .next s :=
  if_neg h

theorem enabled_start_iff (hf : s.fault = none) (ht : t < s.ntasks) :
    s.enabled (.start t) = true ↔ s.current = none ∧ (s.task t).tstate = .init := by
  simp [State.enabled, hf, ht]

theorem enabled_resume_iff (hf : s.fault = none) (ht : t < s.ntasks) :
    s.enabled (.resume t) = true ↔
      s.current = none ∧ (s.task t).tstate = .suspended ∧ (s.task t).ready = true := by
  simp [State.enabled, hf, ht, and_assoc]

theorem agentStep_start (h : s.enabled (.start t) = true) :
    s.agentStep (.start t) = .next (switchTask s t .running (some t)) :=
  if_pos h

theorem agentStep_resume (h : s.enabled (.resume t) = true) :
    s.agentStep (.resume t) = .next (s.resumeTask t) :=
  if_pos h

/-- RESUME switches to the task once its READY is consumed and its CP is past the YIELD. -/
theorem resumeTask_eq (s : State) (t : Nat) :
    s.resumeTask t = switchTask ((s.setReady t false).advance t 1) t .running (some t) := rfl

theorem resumeTask_task_self (ht : t < s.ntasks) :
    (s.resumeTask t).task t =
      { s.task t with ready := false, cp := (s.task t).cp + 1, tstate := .running } := by
  rw [resumeTask_eq, switchTask_task_self _ _ (by simpa using ht),
    advance_task_self _ _ _ (by simpa using ht), State.setReady, task_updTask_self s t _ ht]

theorem resumeTask_sameExcept (s : State) (t : Nat) :
    SameExcept [.tasks, .current] s (s.resumeTask t) :=
  sameExcept_switchTask .running (some t) (sameExcept_updTask (sameExcept_updTask
    (sameExcept_refl _ s) (by simp) t _) (by simp) t _) (by simp) (by simp) t

theorem resumeTask_otherTasks (s : State) (t : Nat) : OtherTasksSame s (s.resumeTask t) t := by
  obtain ⟨hn, hothers⟩ :=
    switchTask_otherTasks .running (some t) ((s.setReady t false).advance t 1) t
  refine ⟨hn.trans (by simp), fun u hu => (hothers u hu).trans ?_⟩
  rw [advance_task_ne _ _ _ _ hu, State.setReady, task_updTask_ne s t u _ hu]

/-- Settles O59: an enabled START or RESUME switches to the task, one that is not enabled changes nothing. -/
theorem executorStartsAndResumes : Obligations.ExecutorStartsAndResumes := by
  unfold Obligations.ExecutorStartsAndResumes
  refine fun s t hf ht => ⟨?start, ?resume⟩
  case start =>
    split
    · rename_i hmay
      obtain ⟨-, hinit⟩ := id hmay
      obtain ⟨hparts, hc, hothers, hsame, hrun⟩ := switchTask_spec .running (some t) ht
      refine ⟨_, agentStep_start ((enabled_start_iff hf ht).2 hmay), hparts, hc, hothers, hsame,
        hrun, fun ⟨_, htasks⟩ => ?_⟩
      obtain ⟨-, hfresh⟩ := htasks t ht
      obtain ⟨hcp, hphase⟩ := hfresh hinit
      exact ⟨(hsame .cp (by simp)).trans hcp, (hsame .phase (by simp)).trans hphase⟩
    · rename_i hmay
      exact agentStep_disabled (mt (enabled_start_iff hf ht).1 hmay)
  case resume =>
    split
    · rename_i hmay
      refine ⟨_, agentStep_resume ((enabled_resume_iff hf ht).2 hmay), resumeTask_sameExcept s t,
        rfl, resumeTask_otherTasks s t, ?_⟩
      rw [resumeTask_task_self ht]
      exact ⟨taskSame_trans (taskSame_ready (by simp) _ false) (taskSame_trans
        (taskSame_cp (by simp) _ _) (taskSame_tstate (by simp) _ .running)), rfl, rfl, rfl⟩
    · rename_i hmay
      exact agentStep_disabled (mt (enabled_resume_iff hf ht).1 hmay)

end Sys2Proof.Machine.Proofs

/-! SUPPORT. O7, O8 and O9: faults (60_exceptions.md R300, R302, R309). Every update but the entry of a fault leaves
FAULT alone, so a step that sets FAULT is a host step or an engine step, and the whole of it is that entry. -/

namespace Sys2Proof.Machine.Proofs

open Sys2Proof.Machine.Laws

variable {s s' : State} {t : Nat} {i : Instr}

/-! ### Where FAULT is set (60_exceptions.md R300 item 3) -/

/-- Every command stands in the frame that asks for FAULT = NONE and a running task. -/
theorem exec_eq_hostCommand (i : Instr) (s : State) : ∃ body, exec i s = hostCommand s body := by
  cases i <;> exact ⟨_, rfl⟩

theorem exec_stopped (hf : s.fault ≠ none) (i : Instr) : exec i s = .fault .blockStopped := by
  obtain ⟨body, e⟩ := exec_eq_hostCommand i s
  exact e.trans (if_neg hf)

theorem step_stopped (hf : s.fault ≠ none) : step s = .fault .blockStopped := by
  obtain ⟨r, hr⟩ := Option.ne_none_iff_exists'.1 hf
  simp only [step, hr]

theorem enabled_stopped (hf : s.fault ≠ none) (c : Choice) : s.enabled c = false := by
  have hnone : s.fault.isNone = false := by simpa [Option.isSome_iff_ne_none] using hf
  simp only [State.enabled, hnone, Bool.false_and]

/-- Settles O7: step, the frame of every command and every enabling condition ask for FAULT = NONE. -/
theorem noStepOnceFaulted : Obligations.NoStepOnceFaulted := by
  unfold Obligations.NoStepOnceFaulted
  exact fun _ hf => ⟨step_stopped hf, exec_stopped hf, enabled_stopped hf⟩

/-! ### What sets FAULT -/

/-- No update of tasks, channels, cells, queue or alarm touches FAULT. -/
theorem fault_keptByUpdates (n : Nat) (o : Option FaultRecord) :
    KeptByUpdates n fun x => x.fault = o where
  task _ _ _ h := h
  chan _ _ _ h := h
  cell s id v _ h := by
    obtain ⟨-, -, -, -, -, -, -, -, -, -, -, -, hfault, -⟩ := setCell_other s id v
    exact hfault.trans h
  insert _ _ _ _ _ h := h
  shrinkQueue _ _ h := h
  alarmRegs _ _ _ h := h
  compare _ _ h := h

theorem atomicNext_fault (ht : t < s.ntasks) (h : AtomicNext s t i s') : s'.fault = s.fault :=
  atomicNext_keeps (fault_keptByUpdates s.ntasks s.fault) ht (fun _ _ _ h => h) (fun _ _ _ h => h)
    rfl h

/-- A host step leaves FAULT alone, or is the entry of a host fault and nothing else. -/
theorem hostNext_fault (ht : t < s.ntasks) (h : HostNext s t i s') :
    s'.fault = s.fault ∨ ∃ f, s' = s.takeFault .host f := by
  cases h with
  | fault _ f => exact .inr ⟨f, rfl⟩
  | atomic _ h => exact .inl (atomicNext_fault ht h)
  | pollRegister rd ch =>
    exact .inl ((fault_keptByUpdates s.ntasks s.fault).cell s _ (some t) (by simp [ht]) rfl)
  | stop | pollWait | pollRearm | timeRead | finish => exact .inl rfl

theorem dmaShim_fault (s : State) : s.dmaShim.fault = s.fault :=
  dmaShim_keeps (fault_keptByUpdates 0 s.fault).serveChannel s rfl

theorem tickHandler_fault (s : State) : s.tickHandler.fault = s.fault :=
  (fault_keptByUpdates 0 s.fault).timers.tickHandler (fun _ _ h => h) (fun _ _ _ h => h) s rfl

theorem readValue_error {agent : Agent} {a n : Nat} {f : BlockFault}
    (h : s.readValue agent a n = .error f) : f = .bus agent a n := by
  unfold State.readValue at h
  split at h <;> cases h
  rfl

theorem writeValue_error {agent : Agent} {a n v : Nat} {f : BlockFault}
    (h : s.writeValue agent a n v = .error f) : f = .bus agent a n := by
  unfold State.writeValue at h
  split at h <;> cases h
  rfl

/-- The engine raises F_BUS only, from its read or from its write (60_exceptions.md R302). -/
theorem engineElement_error {ch : Nat} {f : BlockFault} (h : s.engineElement ch = .error f) :
    ∃ a n, f = .bus (.engine ch) a n := by
  unfold State.engineElement at h
  simp only at h
  split at h
  · rename_i hread
    cases h
    exact ⟨_, _, readValue_error hread⟩
  · split at h <;> cases h
    rename_i hwrite
    exact ⟨_, _, writeValue_error hwrite⟩

theorem engineElement_fault {ch : Nat} (h : s.engineElement ch = .ok s') : s'.fault = s.fault := by
  obtain ⟨v, s1, sa, da, -, -, -, hwrite, rfl⟩ := engineElement_ok _ _ _ h
  obtain ⟨-, rfl⟩ | ⟨-, rfl⟩ := writeValue_ok _ _ _ _ _ _ hwrite <;> rfl

theorem engineStep_fault (s : State) (ch : Nat) :
    (s.engineStep ch).fault = s.fault ∨
      ∃ a n, s.engineStep ch = s.takeFault (.engine ch) (.bus (.engine ch) a n) := by
  obtain ⟨s1, hok, e⟩ | ⟨f, herror, e⟩ := engineStep_cases s ch <;> rw [e]
  · exact .inl (engineElement_fault hok)
  · obtain ⟨a, n, rfl⟩ := engineElement_error herror
    exact .inr ⟨a, n, rfl⟩

/-- How a step can end with regard to FAULT: FAULT stays clear, or the step is the host's or an engine's and all it does
is enter its fault; an engine's is F_BUS. -/
inductive FaultNext (s : State) : Choice → State → Prop
  | clear (c : Choice) {s' : State} (h : s'.fault = none) : FaultNext s c s'
  | host (f : BlockFault) : FaultNext s .host (s.takeFault .host f)
  | engine (ch : Nat) (granted : Bool) (a n : Nat) :
      FaultNext s (.engine ch granted) (s.takeFault (.engine ch) (.bus (.engine ch) a n))

/-- Every step of the machine ends in one of the ways of `FaultNext`. -/
theorem step_faultNext (h : step s = .next s') : FaultNext s.dropChoice s.nextChoice s' := by
  obtain ⟨hf, -, rfl | ⟨t, hn, -, ⟨i, -, hx⟩ | ⟨f, -, rfl⟩⟩ | ⟨t, -, -, rfl⟩ | ⟨t, -, -, rfl⟩ |
    ⟨ch, g, hn, -, rfl⟩ | ⟨-, -, rfl⟩ | ⟨-, rfl⟩ | ⟨-, -, rfl⟩⟩ := step_cases s s' h
  all_goals have hd : s.dropChoice.fault = none := (dropChoice_fault s).trans hf
  · exact .clear _ hd
  · obtain ⟨t, -, ht, hnext⟩ := exec_next hx
    obtain e | ⟨f, rfl⟩ := hostNext_fault ht hnext
    · exact .clear _ (e.trans hd)
    · exact hn ▸ .host f
  · exact hn ▸ .host f
  · exact .clear _ hd
  · exact .clear _ hd
  · obtain e | ⟨a, n, e⟩ := engineStep_fault s.dropChoice ch
    · exact .clear _ (e.trans hd)
    · rw [hn, e]
      exact .engine ch g a n
  · exact .clear _ ((dmaShim_fault _).trans hd)
  · exact .clear _ hd
  · exact .clear _ ((tickHandler_fault _).trans hd)

/-! ### The record (60_exceptions.md R300 items 1 and 2) -/

/-- What FAULT records of a fault this agent raises: CURRENT and its CP for the host, neither for another agent. -/
def recordOf (s : State) (agent : Agent) (f : BlockFault) : FaultRecord where
  fault := f
  agent := agent
  task := if agent = .host then s.current else none
  cp := if agent = .host then s.current.map (fun t => (s.task t).cp) else none

theorem takeFault_eq (s : State) (agent : Agent) (f : BlockFault) :
    s.takeFault agent f = { s with fault := some (recordOf s agent f) } := rfl

/-- Taking the choice changes nothing that a record names. -/
theorem recordOf_dropChoice (s : State) (agent : Agent) (f : BlockFault) :
    recordOf s.dropChoice agent f = recordOf s agent f := by
  simp only [recordOf, dropChoice_current, task_congr _ (dropChoice_tasks s)]

/-- A step that sets FAULT is the entry of a fault and nothing else. -/
theorem step_faulted {r : FaultRecord} (h : step s = .next s') (hr : s'.fault = some r) :
    ∃ agent f, r = recordOf s agent f ∧ s' = { s.dropChoice with fault := some r } := by
  have entry : ∀ agent f, s' = s.dropChoice.takeFault agent f →
      ∃ agent f, r = recordOf s agent f ∧ s' = { s.dropChoice with fault := some r } := by
    rintro agent f rfl
    obtain rfl : recordOf s.dropChoice agent f = r := Option.some.inj hr
    exact ⟨agent, f, recordOf_dropChoice s agent f, takeFault_eq _ _ _⟩
  have hnext := step_faultNext h
  generalize s.nextChoice = c at hnext
  cases hnext with
  | clear _ hclear => exact absurd (hclear.symm.trans hr) nofun
  | host f => exact entry .host f rfl
  | engine ch g a n => exact entry (.engine ch) _ rfl

/-- Settles O8: a step that sets FAULT is the entry of a fault, whose record is `recordOf`. -/
theorem faultingStepWritesNothing : Obligations.FaultingStepWritesNothing := by
  unfold Obligations.FaultingStepWritesNothing
  intro s s' r h hr
  obtain ⟨agent, f, rfl, e⟩ := step_faulted h hr
  exact ⟨e, fun hhost => ⟨if_pos hhost, if_pos hhost⟩, fun hother => ⟨if_neg hother, if_neg hother⟩⟩

/-! ### Who can fault (60_exceptions.md R302, R309) -/

/-- The host's choice and the engines' are the only ones whose step can set FAULT. -/
theorem FaultNext.clear_of_other {c : Choice} (h : FaultNext s c s') (hhost : c ≠ .host)
    (hengine : ¬ IsEngine c) : s'.fault = none := by
  cases h with
  | clear _ h => exact h
  | host f => exact absurd rfl hhost
  | engine ch g a n => exact absurd ⟨ch, g, rfl⟩ hengine

theorem FaultNext.engine_bus {ch : Nat} {g : Bool} {r : FaultRecord}
    (h : FaultNext s (.engine ch g) s') (hr : s'.fault = some r) :
    r.agent = .engine ch ∧ ∃ a n, r.fault = .bus (.engine ch) a n := by
  cases h with
  | clear _ hclear => exact absurd (hclear.symm.trans hr) nofun
  | engine ch g a n =>
    obtain rfl : recordOf s (.engine ch) (.bus (.engine ch) a n) = r := Option.some.inj hr
    exact ⟨rfl, a, n, rfl⟩

/-- Settles O9: the choice says which of the ways of `FaultNext` the step can end in. -/
theorem onlyBusFaultsOutsideHost : Obligations.OnlyBusFaultsOutsideHost := by
  unfold Obligations.OnlyBusFaultsOutsideHost
  intro s s' h
  have hnext := step_faultNext h
  refine ⟨?others, ?engine⟩
  case others =>
    rintro c rfl hc
    refine hnext.clear_of_other (fun hhost => ?_) fun ⟨ch, g, hengine⟩ => ?_
    · simp [hhost] at hc
    · simp [hengine] at hc
  case engine =>
    intro ch g r hn hr
    exact (hn ▸ hnext).engine_bus hr

end Sys2Proof.Machine.Proofs

/-! SUPPORT. O40: HOSTRACE byte by byte (70_reset_and_hazards.md R360, R361). A host access conflicts with a transfer in
flight where they share a byte of the channel's slot or of its destination, or of its source where the access writes or
the byte is PERIPH; an aligned LD or ST of such bytes enters F_DMA_RACE (44_host.md R273, R274). -/

namespace Sys2Proof.Machine.Proofs

open Sys2Proof.Machine.Laws

/-! ### The bytes of a conflict -/

theorem accessRange_holds_iff (a n : Nat) (b : Int) :
    ByteRange.Holds (accessRange a n) b ↔ (a : Int) ≤ b ∧ b < (a : Int) + n := by
  simp only [ByteRange.Holds, accessRange]
  omega

/-- A descriptor slot's bytes, as 10_state.md R47 places them. -/
theorem slotRange_holds_iff (s : State) (c : Nat) (b : Int) :
    ByteRange.Holds (s.slotRange c) b ↔ (s.params.descBase : Int) + 16 * c ≤ b ∧
      b < (s.params.descBase : Int) + 16 * c + 16 := by
  simp only [State.slotRange, accessRange_holds_iff, State.desc, Config.descSize]
  omega

theorem hostConflict_iff (s : State) (a n : Nat) (kind : AccessKind) (c : Nat) :
    s.hostConflict a n kind c = true ↔ ∃ b, ByteRange.Holds (accessRange a n) b ∧
      (ByteRange.Holds (s.slotRange c) b ∨ ByteRange.Holds (s.chan c).xfer.dstRange b ∨
        ByteRange.Holds (s.chan c).xfer.srcRange b ∧
          (kind = .write ∨ regionKind s.params.regions b.toNat = .periph)) := by
  simp only [State.hostConflict, Bool.or_eq_true, Bool.and_eq_true, decide_eq_true_eq, meets_iff,
    hasPeriph_iff, inter_holds_iff, ← exists_and_left, ← exists_or]
  exact exists_congr fun b => by tauto

/-! ### The channel HOSTRACE names -/

/-- The channel is active, and its transfer conflicts with the host's access. -/
def RacesWithHost (s : State) (a n : Nat) (kind : AccessKind) (c : Nat) : Prop :=
  c < s.nch ∧ (s.chan c).active = true ∧ s.hostConflict a n kind c = true

section HostRace

variable {s : State} {a n : Nat} {kind : AccessKind}

theorem racesWithHost_iff {c : Nat} : RacesWithHost s a n kind c ↔
    c < s.nch ∧ ((s.chan c).active && s.hostConflict a n kind c) = true := by
  simp only [RacesWithHost, Bool.and_eq_true]

theorem hostRace_none_iff : s.hostRace a n kind = none ↔ ∀ c, ¬ RacesWithHost s a n kind c := by
  simp only [State.hostRace, List.find?_eq_none, List.mem_range, racesWithHost_iff, not_and]

/-- A channel that HOSTRACE names does race. -/
theorem racesWithHost_of_hostRace {c : Nat} (h : s.hostRace a n kind = some c) :
    RacesWithHost s a n kind c := by
  obtain ⟨hp, hlt, -⟩ := List.find?_range_eq_some.1 h
  exact racesWithHost_iff.2 ⟨List.mem_range.1 hlt, hp⟩

/-- An aligned access that races is refused for the race, whatever the bus would answer. -/
theorem accessFault_race {addr : Word32} {wc : BitVec 2} {c : Nat}
    (h : addr.toNat % widthBytes wc = 0)
    (hrace : s.hostRace addr.toNat (widthBytes wc) kind = some c) :
    s.accessFault addr.toNat (widthBytes wc) kind =
      some (.raceWithHost c addr.toNat (widthBytes wc)) := by
  have hspace := aligned_access_in_space h
  unfold State.accessFault
  rw [if_neg (not_not.mpr h), if_neg (Nat.not_lt.mpr hspace), hrace]

end HostRace

/-- Settles O40: HOSTRACE with its conditions turned into bytes; the channel it names is the one LD and ST report. -/
theorem hostRaces : Obligations.HostRaces := by
  unfold Obligations.HostRaces
  intro s a n kind conflict hconflict
  have hraces : ∀ c, RacesWithHost s a n kind c ↔ conflict c := fun c => by
    rw [hconflict, RacesWithHost, hostConflict_iff]
    simp only [accessRange_holds_iff, slotRange_holds_iff, and_assoc]
    simp only [ByteRange.Holds, and_assoc]
  simp only [← hraces]
  refine ⟨hostRace_none_iff.2, fun ⟨c', hc'⟩ => ?_⟩
  obtain ⟨c, hc⟩ := Option.ne_none_iff_exists'.1 fun h => hostRace_none_iff.1 h c' hc'
  refine ⟨c, racesWithHost_of_hostRace hc, hc, ?_⟩
  rintro t wc addr h rfl rfl hal
  refine ⟨?ld, ?st⟩
  case ld =>
    rintro rfl rd
    exact ld_accessFault h rd (accessFault_race hal hc)
  case st =>
    rintro rfl rs v hv
    exact st_accessFault h hv (accessFault_race hal hc)

end Sys2Proof.Machine.Proofs

/-! SUPPORT. O60: the ends of a run that no step leaves (70_reset_and_hazards.md R371). Where no task runs or can, and no
channel is ACTIVE, only the shim, the tick source and the tick handler have steps. They change no TSTATE and no ACTIVE,
and with nothing to serve and nothing queued no READY either. -/

namespace Sys2Proof.Machine.Proofs

open Sys2Proof.Machine.Laws

variable {s s' : State}

/-! ### What the ends say, task by task and channel by channel -/

theorem task_eq_getElem (s : State) (t : Nat) (h : t < s.ntasks) : s.task t = s.tasks[t]'h := by
  unfold State.task
  rw [List.getElem?_eq_getElem h]
  rfl

/-- A fact about every task of the list is a fact about every task by number. -/
theorem forall_tasks_iff (s : State) (Q : Task → Prop) :
    (∀ k ∈ s.tasks, Q k) ↔ ∀ t, t < s.ntasks → Q (s.task t) := by
  rw [List.forall_mem_iff_getElem]
  exact forall₂_congr fun t h => by rw [task_eq_getElem s t h]

/-- No channel is ACTIVE. -/
def NoneActive (s : State) : Prop := ∀ ch, ch < s.nch → (s.chan ch).active = false

theorem noneActive_iff (s : State) : s.chans.all (fun c => !c.active) = true ↔ NoneActive s := by
  rw [List.all_eq_true, forall_chans_iff]
  simp only [Bool.not_eq_true', NoneActive]

/-- Every task is HALTED. -/
def AllHalted (s : State) : Prop := ∀ t, t < s.ntasks → (s.task t).tstate = .halted

theorem isDone_iff (s : State) : s.isDone = true ↔ AllHalted s ∧ NoneActive s := by
  rw [State.isDone, Bool.and_eq_true, noneActive_iff, List.all_eq_true, forall_tasks_iff]
  simp only [decide_eq_true_eq, AllHalted]

theorem runEnd_done_iff (s : State) :
    s.runEnd = .done ↔ s.fault = none ∧ AllHalted s ∧ NoneActive s := by
  rw [← isDone_iff, ← Option.not_isSome_iff_eq_none]
  unfold State.runEnd
  split
  · simp [*]
  · split
    · simp [*]
    · split <;> simp [*]

theorem isStuck_of_runEnd (h : s.runEnd = .stuck) : s.isStuck = true := by
  unfold State.runEnd at h
  split at h
  · cases h
  · split at h
    · cases h
    · split at h
      · assumption
      · cases h

/-- The end depends on tasks, CURRENT, channels, queue and FAULT only. -/
theorem runEnd_congr (htasks : s'.tasks = s.tasks) (hcurrent : s'.current = s.current)
    (hchans : s'.chans = s.chans) (hqueue : s'.queue = s.queue) (hfault : s'.fault = s.fault) :
    s'.runEnd = s.runEnd := by
  have hdone : s'.isDone = s.isDone := by rw [State.isDone, State.isDone, htasks, hchans]
  have hstuck : s'.isStuck = s.isStuck := by
    rw [State.isStuck, State.isStuck, State.dmaIrq, State.dmaIrq, htasks, hcurrent, hchans, hqueue]
  rw [State.runEnd, State.runEnd, hfault, hdone, hstuck]

theorem asleep_iff (k : Task) :
    k.asleep = true ↔ k.tstate = .halted ∨ k.tstate = .suspended ∧ k.ready = false := by
  simp [Task.asleep]

/-- No step of the host, the executor or an engine is enabled. -/
structure Quiet (s : State) : Prop where
  noCurrent : s.current = none
  asleep : ∀ t, t < s.ntasks → (s.task t).asleep = true
  noneActive : NoneActive s

/-- A stuck machine is quiet, and neither the shim nor a deadline can ready a task. -/
theorem quiet_of_stuck (h : s.runEnd = .stuck) : Quiet s ∧ s.dmaIrq = false ∧ s.queue = [] := by
  have hstuck := isStuck_of_runEnd h
  simp only [State.isStuck, Bool.and_eq_true, noneActive_iff, Bool.not_eq_true',
    Option.isNone_iff_eq_none, List.isEmpty_iff] at hstuck
  obtain ⟨⟨⟨⟨⟨hc, hasleep⟩, -⟩, hactive⟩, hirq⟩, hq⟩ := hstuck
  rw [List.all_eq_true, forall_tasks_iff] at hasleep
  exact ⟨⟨hc, hasleep, hactive⟩, hirq, hq⟩

/-- A done machine is quiet: the task CURRENT named would be RUNNING. -/
theorem quiet_of_done (h : s.runEnd = .done) (hcur : s.CurrentOk) : Quiet s := by
  obtain ⟨-, hhalted, hactive⟩ := (runEnd_done_iff s).1 h
  obtain ⟨hbound, hrun⟩ := hcur
  refine ⟨Option.eq_none_iff_forall_ne_some.2 fun t ht => ?_, fun t ht => ?_, hactive⟩
  · obtain ⟨hiff, -⟩ := hrun t (hbound t ht)
    exact absurd ((hiff.2 ht).symm.trans (hhalted t (hbound t ht))) (by decide)
  · exact (asleep_iff _).2 (.inl (hhalted t ht))

/-! ### The steps of a quiet machine -/

/-- The states a quiet machine can step to. -/
inductive QuietNext (s : State) : State → Prop
  | idle : QuietNext s s
  | shim (h : s.dmaIrq = true) : QuietNext s s.dmaShim
  | tickSource : QuietNext s s.tickSource
  | tickHandler : QuietNext s s.tickHandler

theorem Quiet.agentStep {c : Choice} (h : Quiet s) (hs : s.agentStep c = .next s') :
    QuietNext s s' := by
  obtain ⟨he, hp⟩ | ⟨-, rfl⟩ := agentStep_next _ _ _ hs
  · cases c with
    | host => simp [State.enabled, h.noCurrent] at he
    | start t =>
      simp only [State.enabled, Bool.and_eq_true, decide_eq_true_eq] at he
      obtain ⟨-, ⟨-, ht⟩, hinit⟩ := he
      simpa [asleep_iff, hinit] using h.asleep t ht
    | resume t =>
      simp only [State.enabled, Bool.and_eq_true, decide_eq_true_eq] at he
      obtain ⟨-, ⟨⟨-, ht⟩, hsusp⟩, hready⟩ := he
      simpa [asleep_iff, hsusp, hready] using h.asleep t ht
    | engine ch g =>
      simp only [State.enabled, Bool.and_eq_true, decide_eq_true_eq] at he
      obtain ⟨-, ⟨⟨hch, hactive⟩, -⟩, -⟩ := he
      exact absurd ((h.noneActive ch hch).symm.trans hactive) (by decide)
    | dmaShim =>
      cases hp
      obtain ⟨-, hirq⟩ := (Bool.and_eq_true _ _).mp he
      exact .shim hirq
    | tickSource =>
      cases hp
      exact .tickSource
    | tickHandler =>
      cases hp
      exact .tickHandler
  · exact .idle

theorem QuietNext.frame (h : QuietNext s s') : Frame readyOnly s s' := by
  cases h with
  | idle => exact Frame.refl _ s
  | shim => exact frame_dmaShim s
  | tickSource => exact (Frame.refl _ s).of_same rfl rfl rfl
  | tickHandler => exact frame_tickHandler s

theorem QuietNext.fault (h : QuietNext s s') : s'.fault = s.fault := by
  cases h with
  | idle | tickSource => rfl
  | shim => exact dmaShim_fault s
  | tickHandler => exact tickHandler_fault s

/-- The shim starts no transfer. -/
theorem active_shim_next {m n : Nat} {c c' : Channel} (hn : ChannelNext m n .shim c c')
    (h : c.active = false) : c'.active = false := by
  cases hn with
  | waker | serve => exact h

theorem QuietNext.noneActive (h : QuietNext s s') (ha : NoneActive s) : NoneActive s' := by
  intro ch hch
  have hidle := ha ch (h.frame.nch ▸ hch)
  cases h with
  | idle | tickSource => exact hidle
  | shim =>
    exact (dmaShim_chan (m := 0) (n := 0) s ch).keeps (Q := fun c => c.active = false)
      (fun _ _ => active_shim_next) hidle
  | tickHandler => rwa [chan_congr ch (tickHandler_chans s)]

/-- No step of a quiet machine changes a TSTATE, so a done machine stays done. -/
theorem QuietNext.done (h : QuietNext s s') (hd : s.runEnd = .done) : s'.runEnd = .done := by
  rw [runEnd_done_iff] at hd ⊢
  obtain ⟨hf, hhalted, hactive⟩ := hd
  refine ⟨h.fault.trans hf, fun t ht => ?_, h.noneActive hactive⟩
  have htstate : (s'.task t).tstate = (s.task t).tstate :=
    h.frame.tasks t .tstate (by simp [readyOnly])
  exact htstate.trans (hhalted t (h.frame.ntasks ▸ ht))

/-! ### The tick handler with nothing to do -/

/-- With no deadline queued, REARM disarms the alarm and pops nothing. -/
theorem rearm_of_noDeadline (h : s.queue = []) : s.rearm = s.setAlarmRegs false none := by
  have hpop : s.popExpired s.nowi = s := popExpired_of_later (by simp [h])
  rw [rearm_eq, hpop, armNext_none ((queueMin_none_iff _).2 h)]

/-- With no deadline queued, the tick handler readies no task. -/
theorem tickHandler_of_noDeadline (h : s.queue = []) :
    SameExcept [.clock, .alarm, .tickPend] s s.tickHandler := by
  have hticked := ticked_sameExcept s
  by_cases hdue : (ticked s).alarmDue = true
  · have hq : (ticked s).queue = [] := (hticked .queue (by simp)).trans h
    rw [tickHandler_due hdue, rearm_of_noDeadline hq]
    exact sameExcept_setAlarmRegs hticked (by simp) false none
  · rwa [tickHandler_notDue hdue]

/-- With no alarm set, the tick handler changes the clock and TICK_PEND only. -/
theorem tickHandler_of_noAlarm (h : s.alarmTs = none) :
    ∃ p c, s.tickHandler = { s with period := p, count := c, tickPend := false } := by
  obtain ⟨p, c, en, e, hen⟩ := ticked_eq s
  obtain rfl : en = s.alarmEn := Bool.eq_iff_iff.2 (by simpa [h] using hen)
  have hdue : ¬ (ticked s).alarmDue = true := by
    rw [alarmDue_iff, e]
    simp [h]
  exact ⟨p, c, (tickHandler_notDue hdue).trans e⟩

/-! ### What a quiet machine keeps where DMA_IRQ is 0 -/

theorem QuietNext.stuck (h : QuietNext s s') (hirq : s.dmaIrq = false) (hq : s.queue = [])
    (hs : s.runEnd = .stuck) : s'.runEnd = .stuck := by
  cases h with
  | idle | tickSource => exact hs
  | shim hi => exact absurd (hirq.symm.trans hi) (by decide)
  | tickHandler =>
    have hsame := tickHandler_of_noDeadline hq
    have hend : s.tickHandler.runEnd = s.runEnd :=
      runEnd_congr (hsame .tasks (by simp)) (hsame .current (by simp)) (hsame .chans (by simp))
        (hsame .queue (by simp)) (hsame .fault (by simp))
    exact hend.trans hs

theorem QuietNext.observation (h : QuietNext s s') (hirq : s.dmaIrq = false)
    (hts : s.alarmTs = none) : s'.observation = s.observation := by
  cases h with
  | idle | tickSource => rfl
  | shim hi => exact absurd (hirq.symm.trans hi) (by decide)
  | tickHandler =>
    obtain ⟨p, c, e⟩ := tickHandler_of_noAlarm hts
    rw [e]
    rfl

/-! ### O60: the ends stay -/

theorem agentStep_stuck {c : Choice} (h : s.agentStep c = .next s') (hs : s.runEnd = .stuck) :
    s'.runEnd = .stuck := by
  obtain ⟨hquiet, hirq, hq⟩ := quiet_of_stuck hs
  exact (hquiet.agentStep h).stuck hirq hq hs

theorem agentStep_done {c : Choice} (h : s.agentStep c = .next s') (hd : s.runEnd = .done)
    (hcur : s.CurrentOk) : s'.runEnd = .done ∧
      (s.dmaIrq = false → s.queue = [] → s.alarmTs = none → s'.observation = s.observation) := by
  have hnext := (quiet_of_done hd hcur).agentStep h
  exact ⟨hnext.done hd, fun hirq _ hts => hnext.observation hirq hts⟩

/-- Settles O60: a stuck machine and a done one are quiet, and the steps of a quiet machine are those of `QuietNext`;
taking the choice enters into none of this. -/
theorem stuckAndDoneStay : Obligations.StuckAndDoneStay := by
  unfold Obligations.StuckAndDoneStay
  intro s s' h
  obtain ⟨-, -, hstep⟩ := step_next s s' h
  obtain ⟨cs, n, e⟩ := dropChoice_eq s
  rw [e] at hstep
  have hstuck := agentStep_stuck hstep
  have hdone := agentStep_done hstep
  exact ⟨hstuck, hdone⟩

end Sys2Proof.Machine.Proofs
